-- ==== Sys2Proof/Word.lean ====
section
/-! DEFINITION. The word types of the block: a byte, the 16-bit event word, the 64-bit SETUP word, and the
general-knowledge code numbers of 00_scope.md R7 that the encodings use. An address of RAM or ROM is a Nat,
reduced modulo `2 ^ PTR_W` wherever the block forms one (20_memory.md R61, 00_scope.md R10; log 19). -/

namespace Sys2Proof

/-- A byte of either address space (20_memory.md R61). -/
abbrev Byte := BitVec 8

/-- The event word `EVW` (30_encoding.md R91). -/
abbrev Evw := BitVec 16

/-- The SETUP packet as one word, byte `k` in bits `8k+7:8k` (30_encoding.md R96). -/
abbrev Spw := BitVec 64

/-- Low byte of a 16-bit field: it stands at the lower address (20_memory.md R62). -/
def lowByte (v : BitVec 16) : Byte := v.extractLsb' 0 8

/-- High byte of a 16-bit field (20_memory.md R62). -/
def highByte (v : BitVec 16) : Byte := v.extractLsb' 8 8

/-- Token PIDs (00_scope.md R7). -/
def pidOut : BitVec 4 := 0x1
/-- Token PIDs (00_scope.md R7). -/
def pidIn : BitVec 4 := 0x9
/-- Token PIDs (00_scope.md R7). -/
def pidSetup : BitVec 4 := 0xD

end Sys2Proof
end

