-- ==== Sys2Proof/Config.lean ====
section
/-! DEFINITION. The implementation parameters of 00_scope.md R6 and R7: what is fixed for one machine and what the spec leaves OPEN
(92_eei_decisions.md). A machine carries its parameters as plain data (log 1); `Params.standard` is the set that `State.reset` uses:
the defaults of R7, and, where R7 gives none, values named in logs 2 and 3. -/

namespace Sys2Proof

/-- `EP0_MAXPKT` (R6). -/
def ep0MaxPkt : Nat := 8
/-- `REPORT_LEN` (R6). -/
def reportLen : Nat := 2
/-- `DEV_DESC_LEN` (R6). -/
def devDescLen : Nat := 18
/-- `CFG_DESC_LEN` (R6). -/
def cfgDescLen : Nat := 34
/-- `RPT_DESC_LEN` (R6). -/
def rptDescLen : Nat := 60

/-- `BUS_RESET_TOGGLE_SCOPE` (R7, D9). -/
inductive ToggleScope where
  | rpt
  | ctx
  | both
  deriving DecidableEq, Repr

/-- `NONSTD_TYPE_POLICY` (R7, D7). -/
inductive NonstdPolicy where
  | refuse
  | asStandard
  | stall
  deriving DecidableEq, Repr

/-- A run of addresses (20_memory.md R67). -/
structure Region where
  base : Nat
  len : Nat
  deriving DecidableEq, Repr

/-- One string descriptor: its ROM address and its bytes after the two-byte header (44_descriptor_repository.md R249). -/
structure StringEntry where
  addr : Nat
  body : List Byte
  deriving DecidableEq, Repr

/-- The OPEN bytes of the device descriptor (44_descriptor_repository.md R242). -/
structure DeviceParams where
  devClass : Byte
  devSubclass : Byte
  devProtocol : Byte
  vid : BitVec 16
  pid : BitVec 16
  rel : BitVec 16
  iManuf : Byte
  iProduct : Byte
  iSerial : Byte
  deriving DecidableEq, Repr

/-- The OPEN bytes of the configuration descriptor (44_descriptor_repository.md R244 to R246). -/
structure ConfigParams where
  iConfig : Byte
  cfgAttr : Byte
  cfgPower : Byte
  ifSubclass : Byte
  ifProtocol : Byte
  iInterface : Byte
  hidCountry : Byte
  deriving DecidableEq, Repr

/-- Every parameter of 00_scope.md R7 that is not a fixed code number. -/
structure Params where
  /-- `PTR_W`. -/
  ptrW : Nat
  /-- `TRN_FIFO_DEPTH`. -/
  trnFifoDepth : Nat
  busResetToggleScope : ToggleScope
  nonstdTypePolicy : NonstdPolicy
  hidDescGettable : Bool
  sieResetFlush : Bool
  traceStall : Bool
  traceResetChar : Byte
  traceStallChar : Byte
  /-- `REPORT_INIT[0..1]`. -/
  reportInit0 : Byte
  reportInit1 : Byte
  bdtBase : Nat
  ep0OutBuf : Nat
  ep0InBuf : Nat
  ep1InBuf : Nat
  addrConfig : Nat
  addrReport : Nat
  romDevice : Nat
  romConfig : Nat
  romReport : Nat
  string0 : StringEntry
  string1 : StringEntry
  string2 : StringEntry
  string3 : StringEntry
  device : DeviceParams
  config : ConfigParams
  /-- `P_RPT[0..59]` (R248). -/
  rpt : List Byte
  deriving DecidableEq, Repr

/-- `ROM_STRING[i]` and its contents. -/
def Params.string (p : Params) (i : BitVec 2) : StringEntry :=
  if i = 0 then p.string0 else if i = 1 then p.string1 else if i = 2 then p.string2 else p.string3

/-- `STR_LEN[i]` (44_descriptor_repository.md R249): the header's two bytes and the body. -/
def StringEntry.len (e : StringEntry) : Nat := e.body.length + 2

/-- The RAM regions of 20_memory.md R67. -/
def Params.ramRegions (p : Params) : List Region :=
  [⟨p.bdtBase, 16⟩, ⟨p.ep0OutBuf, 8⟩, ⟨p.ep0InBuf, 8⟩, ⟨p.ep1InBuf, 8⟩, ⟨p.addrConfig, 1⟩, ⟨p.addrReport, 2⟩]

/-- The ROM regions of 20_memory.md R67. -/
def Params.romRegions (p : Params) : List Region :=
  [⟨p.romDevice, devDescLen⟩, ⟨p.romConfig, cfgDescLen⟩, ⟨p.romReport, rptDescLen⟩,
   ⟨p.string0.addr, p.string0.len⟩, ⟨p.string1.addr, p.string1.len⟩, ⟨p.string2.addr, p.string2.len⟩,
   ⟨p.string3.addr, p.string3.len⟩]

/-- Two regions share no byte. -/
def Region.disjoint (r q : Region) : Bool := decide (r.base + r.len ≤ q.base ∨ q.base + q.len ≤ r.base)

/-- A region does not wrap past `2 ^ PTR_W`. -/
def Region.fits (ptrW : Nat) (r : Region) : Bool := decide (r.base + r.len ≤ 2 ^ ptrW)

/-- No two regions of a list share a byte. -/
def pairwiseDisjoint : List Region → Bool
  | [] => true
  | r :: rs => rs.all r.disjoint && pairwiseDisjoint rs

/-- The constraint of 44_descriptor_repository.md R249 on a string: `STR_LEN` even, 2 to 254. -/
def StringEntry.ok (e : StringEntry) : Bool := decide (e.len % 2 = 0) && decide (e.len ≤ 254)

/-- The constraints R67 and R44's files put on a parameter set: disjoint, non-wrapping regions (20_memory.md R67), the string
lengths (44 R249), 60 report-descriptor bytes (44 R248), a queue of at least one entry (10_state.md R43), and the string indices of
the device descriptor below NUM_STRINGS (44 R250). -/
def Params.wf (p : Params) : Bool :=
  pairwiseDisjoint p.ramRegions && pairwiseDisjoint p.romRegions &&
  p.ramRegions.all (Region.fits p.ptrW) && p.romRegions.all (Region.fits p.ptrW) &&
  p.string0.ok && p.string1.ok && p.string2.ok && p.string3.ok &&
  decide (p.rpt.length = rptDescLen) && decide (1 ≤ p.trnFifoDepth) &&
  decide (p.device.iManuf.toNat < 4) && decide (p.device.iProduct.toNat < 4) && decide (p.device.iSerial.toNat < 4)

/-- The parameter set of `State.reset`: the defaults of 00_scope.md R7; the addresses of log 2; the descriptor bytes of `TESTROM`
(44_descriptor_repository.md R251, which are not the device's), the trace characters and `REPORT_INIT` of log 3. -/
def Params.standard : Params where
  ptrW := 16
  trnFifoDepth := 4
  busResetToggleScope := .both
  nonstdTypePolicy := .refuse
  hidDescGettable := false
  sieResetFlush := true
  traceStall := false
  traceResetChar := 0x52
  traceStallChar := 0x53
  reportInit0 := 0x00
  reportInit1 := 0x00
  bdtBase := 0x0400
  ep0OutBuf := 0x0410
  ep0InBuf := 0x0418
  ep1InBuf := 0x0420
  addrConfig := 0x0428
  addrReport := 0x042A
  romDevice := 0x1000
  romConfig := 0x1020
  romReport := 0x1050
  string0 := ⟨0x1090, [0x09, 0x04]⟩
  string1 := ⟨0x10A0, [0x4B, 0x00]⟩
  string2 := ⟨0x10B0, [0x50, 0x00, 0x41, 0x00, 0x44, 0x00]⟩
  string3 := ⟨0x10C0, [0x31, 0x00]⟩
  device :=
    { devClass := 0, devSubclass := 0, devProtocol := 0, vid := 0xF055, pid := 0x0001, rel := 0x0100,
      iManuf := 1, iProduct := 2, iSerial := 3 }
  config :=
    { iConfig := 0, cfgAttr := 0x80, cfgPower := 0x32, ifSubclass := 0, ifProtocol := 0, iInterface := 0, hidCountry := 0 }
  rpt := (List.range 60).map fun i => BitVec.ofNat 8 (0xA0 + i)

end Sys2Proof
end

