-- ==== Sys2Proof/Syntax.lean ====
section
/-! DEFINITION. The instructions: one constructor for each row of spec/opcode_table.json, 12 events (format EV) and 14 request
outcomes (format SP). A constructor carries every bit of its encoding that the row leaves free, the bits no rule reads among them
(30_encoding.md R100, R106), so that encoding loses nothing (log 12). -/

namespace Sys2Proof

/-- The two formats of opcode_table.json (30_encoding.md R110): the event word and the SETUP packet. -/
inductive Format where
  | ev
  | sp
  deriving DecidableEq, Repr

/-- The bits of `bmRequestType` that no rule reads (30_encoding.md R97, R100): bit 7 and bits 4:0. -/
structure ReqAttr where
  /-- Direction, bit 7. -/
  dir : BitVec 1
  /-- Recipient, bits 4:0. -/
  recipient : BitVec 5
  deriving DecidableEq, Repr

/-- One constructor per row of spec/opcode_table.json. `low` and `zero` are bits of the event word that its row does not test. -/
inductive Instr where
  /-- BUS_RESET, 40_bus_event_dispatcher.md R132. -/
  | busReset (low : BitVec 12)
  /-- TRN_EP0_SETUP, 41_ep0_control_engine.md R160. -/
  | trnEp0Setup (zero : BitVec 3)
  /-- TRN_EP0_OUT, R161: any PID but SETUP. -/
  | trnEp0Out (pid : BitVec 4) (zero : BitVec 3)
  /-- TRN_EP0_IN, R162: the PID is ignored. -/
  | trnEp0In (pid : BitVec 4) (zero : BitVec 3)
  /-- TRN_EP1, 43_ep1_report_engine.md R224: direction and PID are ignored. -/
  | trnEp1 (dir : BitVec 1) (pid : BitVec 4) (zero : BitVec 3)
  /-- TRN_OTHER_EP, R134: endpoints 2 to 15. -/
  | trnOtherEp (endp : BitVec 4) (dir : BitVec 1) (pid : BitVec 4) (zero : BitVec 3)
  /-- BUS_ERROR, R135. -/
  | busError (low : BitVec 12)
  /-- IDLE, R136. -/
  | idle (low : BitVec 12)
  /-- ACTIVITY, R137. -/
  | activity (low : BitVec 12)
  /-- OTHER_CAUSE, R138. -/
  | otherCause (low : BitVec 12)
  /-- REPORT_WRITE b0 b1, R220: the two operand bytes stand beside the word (R94). -/
  | reportWrite (low : BitVec 12) (b0 b1 : Byte)
  /-- REPORT_CHANGED, R221. -/
  | reportChanged (low : BitVec 12)
  /-- A vendor or reserved request type, 42_ep0_requests.md R204; `reserved` is bit 5 of `bmRequestType`. -/
  | nonstdRequestType (attr : ReqAttr) (reserved : BitVec 1) (bRequest : Byte) (wValue wIndex wLength : BitVec 16)
  /-- GET_DESCRIPTOR DEVICE, R191; `index` is `wValue[7:0]`. -/
  | getDescriptorDevice (attr : ReqAttr) (index : Byte) (wIndex wLength : BitVec 16)
  /-- GET_DESCRIPTOR CONFIGURATION, R192. -/
  | getDescriptorConfiguration (attr : ReqAttr) (index : Byte) (wIndex wLength : BitVec 16)
  /-- GET_DESCRIPTOR REPORT, R193. -/
  | getDescriptorReport (attr : ReqAttr) (index : Byte) (wIndex wLength : BitVec 16)
  /-- GET_DESCRIPTOR STRING, index 0 to 3, R194: the row tests `wValue[7:2] = 0`. -/
  | getDescriptorString (attr : ReqAttr) (index : BitVec 2) (wIndex wLength : BitVec 16)
  /-- GET_DESCRIPTOR STRING, index 4 to 255, R194. -/
  | getDescriptorStringOutOfRange (attr : ReqAttr) (index : Byte) (wIndex wLength : BitVec 16)
  /-- GET_DESCRIPTOR of any other type, R195. -/
  | getDescriptorUnknown (attr : ReqAttr) (descType index : Byte) (wIndex wLength : BitVec 16)
  /-- SET_ADDRESS, R196. -/
  | setAddress (attr : ReqAttr) (wValue wIndex wLength : BitVec 16)
  /-- SET_CONFIGURATION, R197. -/
  | setConfiguration (attr : ReqAttr) (wValue wIndex wLength : BitVec 16)
  /-- GET_CONFIGURATION, R198. -/
  | getConfiguration (attr : ReqAttr) (wValue wIndex wLength : BitVec 16)
  /-- GET_REPORT, R199. -/
  | getReport (attr : ReqAttr) (wValue wIndex wLength : BitVec 16)
  /-- SET_IDLE, R200. -/
  | setIdle (attr : ReqAttr) (wValue wIndex wLength : BitVec 16)
  /-- Any other standard request, R201. -/
  | unsupportedStandard (attr : ReqAttr) (bRequest : Byte) (wValue wIndex wLength : BitVec 16)
  /-- Any other class request, R202. -/
  | unsupportedClass (attr : ReqAttr) (bRequest : Byte) (wValue wIndex wLength : BitVec 16)
  deriving DecidableEq, Repr

/-- The rows of spec/opcode_table.json by name. -/
inductive Mnemonic where
  | busReset | trnEp0Setup | trnEp0Out | trnEp0In | trnEp1 | trnOtherEp | busError | idle | activity | otherCause
  | reportWrite | reportChanged
  | nonstdRequestType | getDescriptorDevice | getDescriptorConfiguration | getDescriptorReport | getDescriptorString
  | getDescriptorStringOutOfRange | getDescriptorUnknown | setAddress | setConfiguration | getConfiguration | getReport
  | setIdle | unsupportedStandard | unsupportedClass
  deriving DecidableEq, Repr

/-- The row an instruction belongs to. -/
def Instr.mnemonic : Instr → Mnemonic
  | .busReset _ => .busReset
  | .trnEp0Setup _ => .trnEp0Setup
  | .trnEp0Out _ _ => .trnEp0Out
  | .trnEp0In _ _ => .trnEp0In
  | .trnEp1 _ _ _ => .trnEp1
  | .trnOtherEp _ _ _ _ => .trnOtherEp
  | .busError _ => .busError
  | .idle _ => .idle
  | .activity _ => .activity
  | .otherCause _ => .otherCause
  | .reportWrite _ _ _ => .reportWrite
  | .reportChanged _ => .reportChanged
  | .nonstdRequestType _ _ _ _ _ _ => .nonstdRequestType
  | .getDescriptorDevice _ _ _ _ => .getDescriptorDevice
  | .getDescriptorConfiguration _ _ _ _ => .getDescriptorConfiguration
  | .getDescriptorReport _ _ _ _ => .getDescriptorReport
  | .getDescriptorString _ _ _ _ => .getDescriptorString
  | .getDescriptorStringOutOfRange _ _ _ _ => .getDescriptorStringOutOfRange
  | .getDescriptorUnknown _ _ _ _ _ => .getDescriptorUnknown
  | .setAddress _ _ _ _ => .setAddress
  | .setConfiguration _ _ _ _ => .setConfiguration
  | .getConfiguration _ _ _ _ => .getConfiguration
  | .getReport _ _ _ _ => .getReport
  | .setIdle _ _ _ _ => .setIdle
  | .unsupportedStandard _ _ _ _ _ => .unsupportedStandard
  | .unsupportedClass _ _ _ _ _ => .unsupportedClass

/-- The format of a row (30_encoding.md R110). -/
def Mnemonic.format : Mnemonic → Format
  | .busReset | .trnEp0Setup | .trnEp0Out | .trnEp0In | .trnEp1 | .trnOtherEp | .busError | .idle | .activity | .otherCause
  | .reportWrite | .reportChanged => .ev
  | .nonstdRequestType | .getDescriptorDevice | .getDescriptorConfiguration | .getDescriptorReport | .getDescriptorString
  | .getDescriptorStringOutOfRange | .getDescriptorUnknown | .setAddress | .setConfiguration | .getConfiguration | .getReport
  | .setIdle | .unsupportedStandard | .unsupportedClass => .sp

/-- The format of an instruction. -/
def Instr.format (i : Instr) : Format := i.mnemonic.format

/-- The foreground's two events; every other event of format EV belongs to the handler (30_encoding.md R92). -/
def Mnemonic.isForeground : Mnemonic → Bool
  | .reportWrite | .reportChanged => true
  | .busReset | .trnEp0Setup | .trnEp0Out | .trnEp0In | .trnEp1 | .trnOtherEp | .busError | .idle | .activity | .otherCause
  | .nonstdRequestType | .getDescriptorDevice | .getDescriptorConfiguration | .getDescriptorReport | .getDescriptorString
  | .getDescriptorStringOutOfRange | .getDescriptorUnknown | .setAddress | .setConfiguration | .getConfiguration | .getReport
  | .setIdle | .unsupportedStandard | .unsupportedClass => false

end Sys2Proof
end

