-- ==== Sys2Proof/WellFormed.lean ====
section
/-! DEFINITION. Well-formed instructions: the operand lies in the range its row of the opcode table has left after the rows of
higher priority (30_encoding.md R93, R102, R103, R110). -/

namespace Sys2Proof

/-- The operand ranges of the rows that stand behind a more specific one. -/
def Instr.wf : Instr → Bool
  | .busReset _ => true
  | .trnEp0Setup _ => true
  | .trnEp0Out pid _ => pid != pidSetup
  | .trnEp0In _ _ => true
  | .trnEp1 _ _ _ => true
  | .trnOtherEp endp _ _ _ => endp != 0 && endp != 1
  | .busError _ => true
  | .idle _ => true
  | .activity _ => true
  | .otherCause _ => true
  | .reportWrite _ _ _ => true
  | .reportChanged _ => true
  | .nonstdRequestType _ _ _ _ _ _ => true
  | .getDescriptorDevice _ _ _ _ => true
  | .getDescriptorConfiguration _ _ _ _ => true
  | .getDescriptorReport _ _ _ _ => true
  | .getDescriptorString _ _ _ _ => true
  | .getDescriptorStringOutOfRange _ index _ _ => decide (4 ≤ index.toNat)
  | .getDescriptorUnknown _ descType _ _ _ => descType != 0x01 && descType != 0x02 && descType != 0x22 && descType != 0x03
  | .setAddress _ _ _ _ => true
  | .setConfiguration _ _ _ _ => true
  | .getConfiguration _ _ _ _ => true
  | .getReport _ _ _ _ => true
  | .setIdle _ _ _ _ => true
  | .unsupportedStandard _ bRequest _ _ _ => bRequest != 0x05 && bRequest != 0x06 && bRequest != 0x08 && bRequest != 0x09
  | .unsupportedClass _ bRequest _ _ _ => bRequest != 0x01 && bRequest != 0x0A

end Sys2Proof
end

