-- ==== Sys2Proof/Decode.lean ====
section
/-! DEFINITION. The decoder of the two formats, total on any bytes and rejecting by name, and the encoder written from the same
encoding rules (30_encoding.md R90 to R103, R106, R110). -/

namespace Sys2Proof

/-- Why bytes are no instruction. -/
inductive DecodeError where
  /-- `EVW.CAUSE` is 0x6, 0x7 or 0xA to 0xF (30_encoding.md R92, R106). -/
  | reservedCause (cause : BitVec 4)
  /-- Fewer bytes than the format has (30_encoding.md R107), or REPORT_WRITE without its operand bytes (R94). -/
  | truncated
  deriving DecidableEq, Repr

/-! ### Format EV (30_encoding.md R91) -/

/-- `CAUSE`, bits 15:12. -/
def evCause (w : Evw) : BitVec 4 := w.extractLsb' 12 4
/-- `ENDP`, bits 11:8. -/
def evEndp (w : Evw) : BitVec 4 := w.extractLsb' 8 4
/-- `DIR`, bit 7. -/
def evDir (w : Evw) : BitVec 1 := w.extractLsb' 7 1
/-- `PID`, bits 6:3. -/
def evPid (w : Evw) : BitVec 4 := w.extractLsb' 3 4
/-- Bits 2:0. -/
def evZero (w : Evw) : BitVec 3 := w.extractLsb' 0 3
/-- Bits 11:0, the part that only CAUSE = TRN gives a meaning. -/
def evLow (w : Evw) : BitVec 12 := w.extractLsb' 0 12

/-- CAUSE = TRN: first match wins (30_encoding.md R93). -/
def decodeTrn (w : Evw) : Instr :=
  if evEndp w = 0 then
    if evDir w = 0 then
      if evPid w = pidSetup then .trnEp0Setup (evZero w) else .trnEp0Out (evPid w) (evZero w)
    else .trnEp0In (evPid w) (evZero w)
  else if evEndp w = 1 then .trnEp1 (evDir w) (evPid w) (evZero w)
  else .trnOtherEp (evEndp w) (evDir w) (evPid w) (evZero w)

/-- An event word with the two operand bytes that stand beside it (30_encoding.md R92, R94, R106). -/
def decodeEv (w : Evw) (b0 b1 : Byte) : Except DecodeError Instr :=
  if evCause w = 0x0 then .ok (.busReset (evLow w))
  else if evCause w = 0x1 then .ok (decodeTrn w)
  else if evCause w = 0x2 then .ok (.busError (evLow w))
  else if evCause w = 0x3 then .ok (.idle (evLow w))
  else if evCause w = 0x4 then .ok (.activity (evLow w))
  else if evCause w = 0x5 then .ok (.otherCause (evLow w))
  else if evCause w = 0x8 then .ok (.reportWrite (evLow w) b0 b1)
  else if evCause w = 0x9 then .ok (.reportChanged (evLow w))
  else .error (.reservedCause (evCause w))

/-! ### Format SP (30_encoding.md R96 to R103) -/

/-- `bmRequestType[7]` and `bmRequestType[4:0]` (R97). -/
def spAttr (w : Spw) : ReqAttr := ⟨w.extractLsb' 7 1, w.extractLsb' 0 5⟩
/-- `bmRequestType[6]`, the high bit of the type field (R97). -/
def spNonstd (w : Spw) : BitVec 1 := w.extractLsb' 6 1
/-- `bmRequestType[5]`, the low bit of the type field (R97). -/
def spClass (w : Spw) : BitVec 1 := w.extractLsb' 5 1
/-- `bRequest` (R96). -/
def spRequest (w : Spw) : Byte := w.extractLsb' 8 8
/-- `wValue` (R96). -/
def spValue (w : Spw) : BitVec 16 := w.extractLsb' 16 16
/-- `wIndex` (R96). -/
def spIndex (w : Spw) : BitVec 16 := w.extractLsb' 32 16
/-- `wLength` (R96). -/
def spLength (w : Spw) : BitVec 16 := w.extractLsb' 48 16

/-- The extended request code, class bit above the request code (30_encoding.md R101). -/
def xreq (isClass : BitVec 1) (bRequest : Byte) : BitVec 9 := isClass ++ bRequest

/-- `desc_type`, the high byte of `wValue` (30_encoding.md R98). -/
def descType (wValue : BitVec 16) : Byte := wValue.extractLsb' 8 8

/-- `desc_index`, the low byte of `wValue` (30_encoding.md R98). -/
def descIndex (wValue : BitVec 16) : Byte := wValue.extractLsb' 0 8

/-- The descriptor-type sub-dispatch of GET_DESCRIPTOR (30_encoding.md R103). -/
def decodeGetDescriptor (attr : ReqAttr) (wValue wIndex wLength : BitVec 16) : Instr :=
  if descType wValue = 0x01 then .getDescriptorDevice attr (descIndex wValue) wIndex wLength
  else if descType wValue = 0x02 then .getDescriptorConfiguration attr (descIndex wValue) wIndex wLength
  else if descType wValue = 0x22 then .getDescriptorReport attr (descIndex wValue) wIndex wLength
  else if descType wValue = 0x03 then
    if wValue.extractLsb' 2 6 = 0 then .getDescriptorString attr (wValue.extractLsb' 0 2) wIndex wLength
    else .getDescriptorStringOutOfRange attr (descIndex wValue) wIndex wLength
  else .getDescriptorUnknown attr (descType wValue) (descIndex wValue) wIndex wLength

/-- The dispatch on the extended request code (30_encoding.md R102, 42_ep0_requests.md R190). -/
def decodeTyped (attr : ReqAttr) (isClass : BitVec 1) (bRequest : Byte) (wValue wIndex wLength : BitVec 16) : Instr :=
  if xreq isClass bRequest = 0x006 then decodeGetDescriptor attr wValue wIndex wLength
  else if xreq isClass bRequest = 0x005 then .setAddress attr wValue wIndex wLength
  else if xreq isClass bRequest = 0x009 then .setConfiguration attr wValue wIndex wLength
  else if xreq isClass bRequest = 0x008 then .getConfiguration attr wValue wIndex wLength
  else if xreq isClass bRequest = 0x101 then .getReport attr wValue wIndex wLength
  else if xreq isClass bRequest = 0x10A then .setIdle attr wValue wIndex wLength
  else if isClass = 0 then .unsupportedStandard attr bRequest wValue wIndex wLength
  else .unsupportedClass attr bRequest wValue wIndex wLength

/-- The SETUP word: every word is the packet of some row (42_ep0_requests.md R190, R204). -/
def decodeSp (w : Spw) : Instr :=
  if spNonstd w = 1 then
    .nonstdRequestType (spAttr w) (spClass w) (spRequest w) (spValue w) (spIndex w) (spLength w)
  else decodeTyped (spAttr w) (spClass w) (spRequest w) (spValue w) (spIndex w) (spLength w)

/-- The SETUP word of eight bytes, byte 0 least significant (30_encoding.md R96). -/
def spwOfBytes (b0 b1 b2 b3 b4 b5 b6 b7 : Byte) : Spw := b7 ++ b6 ++ b5 ++ b4 ++ b3 ++ b2 ++ b1 ++ b0

/-! ### Bytes -/

/-- Decode the first instruction of a byte list and hand back the rest. The event word is taken low byte first, REPORT_WRITE's
operand bytes `b0`, `b1` follow it (log 12); the SETUP packet is its eight bytes in order (R96). -/
def decode : Format → List Byte → Except DecodeError (Instr × List Byte)
  | .ev, lo :: hi :: rest =>
    if evCause (hi ++ lo) = 0x8 then
      match rest with
      | b0 :: b1 :: rest' => (decodeEv (hi ++ lo) b0 b1).map fun i => (i, rest')
      | _ => .error .truncated
    else (decodeEv (hi ++ lo) 0 0).map fun i => (i, rest)
  | .ev, _ => .error .truncated
  | .sp, b0 :: b1 :: b2 :: b3 :: b4 :: b5 :: b6 :: b7 :: rest => .ok (decodeSp (spwOfBytes b0 b1 b2 b3 b4 b5 b6 b7), rest)
  | .sp, _ => .error .truncated

/-! ### The encoder -/

/-- An event word from its five fields (30_encoding.md R91). -/
def evw (cause endp : BitVec 4) (dir : BitVec 1) (pid : BitVec 4) (zero : BitVec 3) : Evw :=
  cause ++ endp ++ dir ++ pid ++ zero

/-- An event word of a cause other than TRN (30_encoding.md R92). -/
def evwLow (cause : BitVec 4) (low : BitVec 12) : Evw := cause ++ low

/-- A SETUP word from its fields (30_encoding.md R96, R97). -/
def spw (attr : ReqAttr) (nonstd isClass : BitVec 1) (bRequest : Byte) (wValue wIndex wLength : BitVec 16) : Spw :=
  wLength ++ wIndex ++ wValue ++ bRequest ++ attr.dir ++ nonstd ++ isClass ++ attr.recipient

/-- The word of an instruction of format EV; `none` for the requests. -/
def Instr.evWord : Instr → Option Evw
  | .busReset low => some (evwLow 0x0 low)
  | .trnEp0Setup zero => some (evw 0x1 0 0 pidSetup zero)
  | .trnEp0Out pid zero => some (evw 0x1 0 0 pid zero)
  | .trnEp0In pid zero => some (evw 0x1 0 1 pid zero)
  | .trnEp1 dir pid zero => some (evw 0x1 1 dir pid zero)
  | .trnOtherEp endp dir pid zero => some (evw 0x1 endp dir pid zero)
  | .busError low => some (evwLow 0x2 low)
  | .idle low => some (evwLow 0x3 low)
  | .activity low => some (evwLow 0x4 low)
  | .otherCause low => some (evwLow 0x5 low)
  | .reportWrite low _ _ => some (evwLow 0x8 low)
  | .reportChanged low => some (evwLow 0x9 low)
  | .nonstdRequestType _ _ _ _ _ _ => none
  | .getDescriptorDevice _ _ _ _ => none
  | .getDescriptorConfiguration _ _ _ _ => none
  | .getDescriptorReport _ _ _ _ => none
  | .getDescriptorString _ _ _ _ => none
  | .getDescriptorStringOutOfRange _ _ _ _ => none
  | .getDescriptorUnknown _ _ _ _ _ => none
  | .setAddress _ _ _ _ => none
  | .setConfiguration _ _ _ _ => none
  | .getConfiguration _ _ _ _ => none
  | .getReport _ _ _ _ => none
  | .setIdle _ _ _ _ => none
  | .unsupportedStandard _ _ _ _ _ => none
  | .unsupportedClass _ _ _ _ _ => none

/-- The SETUP word of a request; `none` for the events. -/
def Instr.spWord : Instr → Option Spw
  | .busReset _ => none
  | .trnEp0Setup _ => none
  | .trnEp0Out _ _ => none
  | .trnEp0In _ _ => none
  | .trnEp1 _ _ _ => none
  | .trnOtherEp _ _ _ _ => none
  | .busError _ => none
  | .idle _ => none
  | .activity _ => none
  | .otherCause _ => none
  | .reportWrite _ _ _ => none
  | .reportChanged _ => none
  | .nonstdRequestType a r b v x l => some (spw a 1 r b v x l)
  | .getDescriptorDevice a index x l => some (spw a 0 0 0x06 ((0x01 : Byte) ++ index) x l)
  | .getDescriptorConfiguration a index x l => some (spw a 0 0 0x06 ((0x02 : Byte) ++ index) x l)
  | .getDescriptorReport a index x l => some (spw a 0 0 0x06 ((0x22 : Byte) ++ index) x l)
  | .getDescriptorString a index x l => some (spw a 0 0 0x06 ((0x03 : Byte) ++ (0 : BitVec 6) ++ index) x l)
  | .getDescriptorStringOutOfRange a index x l => some (spw a 0 0 0x06 ((0x03 : Byte) ++ index) x l)
  | .getDescriptorUnknown a ty index x l => some (spw a 0 0 0x06 (ty ++ index) x l)
  | .setAddress a v x l => some (spw a 0 0 0x05 v x l)
  | .setConfiguration a v x l => some (spw a 0 0 0x09 v x l)
  | .getConfiguration a v x l => some (spw a 0 0 0x08 v x l)
  | .getReport a v x l => some (spw a 0 1 0x01 v x l)
  | .setIdle a v x l => some (spw a 0 1 0x0A v x l)
  | .unsupportedStandard a b v x l => some (spw a 0 0 b v x l)
  | .unsupportedClass a b v x l => some (spw a 0 1 b v x l)

/-- The operand bytes beside the event word (30_encoding.md R94): REPORT_WRITE alone has some. -/
def Instr.operandBytes : Instr → List Byte
  | .reportWrite _ b0 b1 => [b0, b1]
  | .busReset _ => []
  | .trnEp0Setup _ => []
  | .trnEp0Out _ _ => []
  | .trnEp0In _ _ => []
  | .trnEp1 _ _ _ => []
  | .trnOtherEp _ _ _ _ => []
  | .busError _ => []
  | .idle _ => []
  | .activity _ => []
  | .otherCause _ => []
  | .reportChanged _ => []
  | .nonstdRequestType _ _ _ _ _ _ => []
  | .getDescriptorDevice _ _ _ _ => []
  | .getDescriptorConfiguration _ _ _ _ => []
  | .getDescriptorReport _ _ _ _ => []
  | .getDescriptorString _ _ _ _ => []
  | .getDescriptorStringOutOfRange _ _ _ _ => []
  | .getDescriptorUnknown _ _ _ _ _ => []
  | .setAddress _ _ _ _ => []
  | .setConfiguration _ _ _ _ => []
  | .getConfiguration _ _ _ _ => []
  | .getReport _ _ _ _ => []
  | .setIdle _ _ _ _ => []
  | .unsupportedStandard _ _ _ _ _ => []
  | .unsupportedClass _ _ _ _ _ => []

/-- The `n` bytes of a number, least significant first. -/
def bytesOfNat : Nat → Nat → List Byte
  | 0, _ => []
  | n + 1, w => BitVec.ofNat 8 w :: bytesOfNat n (w / 256)

/-- The bytes of an event word, low byte first (log 12). -/
def evBytes (w : Evw) : List Byte := [w.extractLsb' 0 8, w.extractLsb' 8 8]

/-- The bytes of a SETUP word, byte 0 first (30_encoding.md R96). -/
def spBytes (w : Spw) : List Byte :=
  [w.extractLsb' 0 8, w.extractLsb' 8 8, w.extractLsb' 16 8, w.extractLsb' 24 8,
   w.extractLsb' 32 8, w.extractLsb' 40 8, w.extractLsb' 48 8, w.extractLsb' 56 8]

/-- The bytes of an instruction. -/
def encode (i : Instr) : List Byte :=
  (i.evWord.elim [] evBytes) ++ (i.spWord.elim [] spBytes) ++ i.operandBytes

/-! ### The opcode table (30_encoding.md R110) -/

/-- A row of opcode_table.json of format EV. -/
structure EvRow where
  mnemonic : Mnemonic
  pattern : Evw
  mask : Evw
  deriving DecidableEq, Repr

/-- A row of opcode_table.json of format SP. -/
structure SpRow where
  mnemonic : Mnemonic
  pattern : Spw
  mask : Spw
  deriving DecidableEq, Repr

/-- The rows of format EV in priority order, `match` and `mask` as opcode_table.json gives them. -/
def evTable : List EvRow :=
  [⟨.busReset, 0x0000, 0xF000⟩, ⟨.trnEp0Setup, 0x1068, 0xFFF8⟩, ⟨.trnEp0Out, 0x1000, 0xFF80⟩, ⟨.trnEp0In, 0x1080, 0xFF80⟩,
   ⟨.trnEp1, 0x1100, 0xFF00⟩, ⟨.trnOtherEp, 0x1000, 0xF000⟩, ⟨.busError, 0x2000, 0xF000⟩, ⟨.idle, 0x3000, 0xF000⟩,
   ⟨.activity, 0x4000, 0xF000⟩, ⟨.otherCause, 0x5000, 0xF000⟩, ⟨.reportWrite, 0x8000, 0xF000⟩, ⟨.reportChanged, 0x9000, 0xF000⟩]

/-- The rows of format SP in priority order. -/
def spTable : List SpRow :=
  [⟨.nonstdRequestType, 0x40, 0x40⟩, ⟨.getDescriptorDevice, 0x01000600, 0xFF00FF60⟩,
   ⟨.getDescriptorConfiguration, 0x02000600, 0xFF00FF60⟩, ⟨.getDescriptorReport, 0x22000600, 0xFF00FF60⟩,
   ⟨.getDescriptorString, 0x03000600, 0xFFFCFF60⟩, ⟨.getDescriptorStringOutOfRange, 0x03000600, 0xFF00FF60⟩,
   ⟨.getDescriptorUnknown, 0x0600, 0xFF60⟩, ⟨.setAddress, 0x0500, 0xFF60⟩, ⟨.setConfiguration, 0x0900, 0xFF60⟩,
   ⟨.getConfiguration, 0x0800, 0xFF60⟩, ⟨.getReport, 0x0120, 0xFF60⟩, ⟨.setIdle, 0x0A20, 0xFF60⟩,
   ⟨.unsupportedStandard, 0x00, 0x60⟩, ⟨.unsupportedClass, 0x20, 0x60⟩]

/-- The first row a word matches: `w & mask = match`. -/
def evRowOf (w : Evw) : Option Mnemonic := (evTable.find? fun r => w &&& r.mask == r.pattern).map EvRow.mnemonic

/-- The first row a SETUP word matches. -/
def spRowOf (w : Spw) : Option Mnemonic := (spTable.find? fun r => w &&& r.mask == r.pattern).map SpRow.mnemonic

/-! ### The host's view -/

/-- The instruction the decoder reads from the table's bits: 64 bits are a SETUP packet; 16 bits are an event word, whose operand
bytes are the bits above it, 0 where the table gives the row no bits. -/
def decodeTableWord (nbits w : Nat) : Option Instr :=
  if nbits = 64 then
    match decode .sp (bytesOfNat 8 w) with
    | .ok (i, _) => some i
    | .error _ => none
  else if 16 ≤ nbits ∧ nbits ≤ 32 then
    match decode .ev (bytesOfNat 4 (w % 2 ^ nbits)) with
    | .ok (i, _) => some i
    | .error _ => none
  else none

end Sys2Proof
end

