-- ==== Sys2Proof/Machine/State.lean ====
section
/-! DEFINITION. The machine's state: every piece of state of 10_state.md, the outputs `trace` and `wire`, the parameters of the
machine, and the list of what the agents outside do next; the reasons a step can stop; the state after module start. -/

namespace Sys2Proof.Machine

/-- The two address spaces (20_memory.md R60); also the memory class of a context's source (10_state.md R22). -/
inductive Space where
  | ram
  | rom
  deriving DecidableEq, Repr

/-- `ctx.kind` (10_state.md R21): NONE, IN, OUT. -/
inductive Kind where
  | none
  | ctlIn
  | ctlOut
  deriving DecidableEq, Repr

/-- A pointer register: an address, or the spec's own marker `unspecified` (42_ep0_requests.md R203). -/
inductive Pointer where
  | unspecified
  | at (a : Nat)
  deriving DecidableEq, Repr

/-- The Transfer Context (10_state.md R21 to R25). A toggle is `true` for DATA1. -/
structure Ctx where
  kind : Kind
  mclass : Space
  data : Pointer
  remaining : BitVec 16
  nextToggle : Bool
  deriving DecidableEq, Repr

/-- The Device State but for `configuration`, which lives in RAM at `ADDR_CONFIG` (10_state.md R27, R28, R29). -/
structure Dev where
  uaddr : BitVec 7
  pendingAddr : BitVec 7
  deriving DecidableEq, Repr

/-- The HID Report State but for `report`, which lives in RAM at `ADDR_REPORT` (10_state.md R30, R31, R32). -/
structure Rpt where
  pending : Bool
  nextToggle : Bool
  deriving DecidableEq, Repr

/-- `BD[b].own` (10_state.md R34). -/
inductive Owner where
  | device
  | sie
  deriving DecidableEq, Repr

/-- One buffer descriptor (10_state.md R33 to R39). -/
structure BD where
  own : Owner
  stall : Bool
  dtsen : Bool
  dts : Bool
  pid : BitVec 4
  count : BitVec 8
  addr : Nat
  deriving DecidableEq, Repr

/-- The index of a buffer descriptor (10_state.md R33), which also names an endpoint direction. -/
inductive BdIx where
  | ep0Out
  | ep0In
  | ep1Out
  | ep1In
  deriving DecidableEq, Repr

/-- The buffer descriptor file (10_state.md R33). -/
structure BdFile where
  ep0Out : BD
  ep0In : BD
  ep1Out : BD
  ep1In : BD
  deriving DecidableEq, Repr

/-- One bit per interrupt cause: the shape of `ip` and of `ie` (10_state.md R41, R42). -/
structure Causes where
  reset : Bool
  trn : Bool
  error : Bool
  idle : Bool
  actv : Bool
  other : Bool
  deriving DecidableEq, Repr

/-- One entry of the transaction-status queue (10_state.md R43); `dir` is 0 for OUT or SETUP, 1 for IN. -/
structure TrnEntry where
  endp : BitVec 4
  dir : BitVec 1
  deriving DecidableEq, Repr

/-- Where a handler invocation is (40_bus_event_dispatcher.md R131): the cause it examines next, `wake` for IDLE's wait. -/
inductive Phase where
  | reset
  | trn
  | error
  | idle
  | wake
  | actv
  | drain
  deriving DecidableEq, Repr

/-- A record of the wire log (45_environment_agents.md R286). -/
inductive WireRecord where
  | reset
  | setup (packet : Spw)
  | outData (toggle : Bool) (bytes : List Byte)
  | inData (ep : BitVec 4) (toggle : Bool) (bytes : List Byte)
  | nak (token : BdIx)
  | stall (token : BdIx)
  deriving DecidableEq, Repr

/-- A step of the SIE (45_environment_agents.md R276 to R283). A token step carries the address the host put in the token (R273). -/
inductive SieStep where
  | hostBusReset
  | setupToken (addr : BitVec 7) (packet : Spw)
  | outData (addr : BitVec 7) (toggle : Bool) (bytes : List Byte)
  | inDone (addr : BitVec 7) (b : BdIx)
  | nak (addr : BitVec 7) (b : BdIx)
  | stallHandshake (addr : BitVec 7) (b : BdIx)
  | busErrorDetected (e : Byte)
  | idleDetected
  | activityDetected
  | otherDetected
  deriving DecidableEq, Repr

/-- What comes from outside the block next (45_environment_agents.md R271): a step of the SIE, or an event word with its operand
bytes, a foreground call or the event the handler takes (30_encoding.md R94; logs 8 and 9). -/
inductive Input where
  | sie (a : SieStep)
  | event (w : Evw) (b0 b1 : Byte)
  deriving DecidableEq, Repr

/-- RAM: address and byte, addresses rising, no byte equal to what an unlisted address reads as. -/
abbrev Memory := List Host.Cell

/-- The whole machine. -/
structure State where
  ctx : Ctx
  dev : Dev
  rpt : Rpt
  bd : BdFile
  /-- `pktdis` (10_state.md R40). -/
  pktdis : Bool
  /-- Pending interrupt causes (10_state.md R41). -/
  ip : Causes
  /-- Enabled interrupt causes (10_state.md R42). -/
  ie : Causes
  /-- `trn_fifo`; its head is `ustat` (10_state.md R43). -/
  trnFifo : List TrnEntry
  /-- `err_flags` (10_state.md R44). -/
  errFlags : BitVec 8
  /-- `suspended` (10_state.md R45). -/
  suspended : Bool
  /-- `gie` (10_state.md R46). -/
  gie : Bool
  /-- `in_handler` (10_state.md R46). -/
  inHandler : Bool
  /-- The model's own: the place inside a handler invocation (log 7). -/
  phase : Phase
  /-- `trace` (10_state.md R48), oldest first. -/
  trace : List Byte
  /-- `wire` (45_environment_agents.md R286), oldest first. -/
  wire : List WireRecord
  /-- RAM but for the BD table (20_memory.md R60, R67). -/
  ram : Memory
  /-- The model's own: what comes from outside next (log 8). -/
  inputs : List Input
  /-- The parameters of this machine (00_scope.md R7); no step writes them (log 1). -/
  params : Params
  deriving DecidableEq, Repr

/-- The reasons the model stops (60_exceptions.md R305, R306; log 14). -/
inductive Fault where
  /-- `Fault_UnspecifiedSink(n)` (60_exceptions.md R305): raised by TRN_EP0_OUT. Safe: the model stops where a chip writes somewhere. -/
  | unspecifiedSink (n : Nat)
  /-- `Fault_PtrRange(space, addr)` (60_exceptions.md R306): raised by MemRead, MemWrite and Copy. Safe: the model stops. -/
  | ptrRange (space : Space) (addr : Nat)
  /-- An IN context with bytes to send and an unspecified source: raised by ARM_IN_DATA in states no run reaches (log 14). Safe. -/
  | unspecifiedSource (n : Nat)
  /-- `ip.TRN` set with an empty queue, against 10_state.md R43: raised by the handler in states no run reaches (log 14). Safe. -/
  | transactionQueueEmpty
  deriving DecidableEq, Repr

/-- The inputs the model gives no meaning (60_exceptions.md R307). -/
inductive Refusal where
  /-- An instruction without a meaning: raised by exec's arms only. Safe. -/
  | notModelled (mnemonic : String)
  /-- A vendor or reserved request type under NONSTD_TYPE_POLICY = REFUSE (42_ep0_requests.md R204): raised by the request. Safe. -/
  | nonstandardRequestType
  /-- An event word with a reserved CAUSE (30_encoding.md R106): raised by the step. Safe. -/
  | reservedCause (cause : BitVec 4)
  /-- A foreground event offered while suspended or while the handler runs (60_exceptions.md R307): raised by the step. Safe. -/
  | foregroundNotEnabled
  /-- A handler event offered that is not the event the handler takes next (60_exceptions.md R307; log 9): raised by the step. Safe. -/
  | handlerEventNotEnabled
  /-- A step of the SIE whose guard is false (60_exceptions.md R307): raised by the SIE step. Safe. -/
  | sieGuardFalse
  /-- An event where a request is expected: raised by no run, since a SETUP word decodes to a request. Safe. -/
  | notARequest
  deriving DecidableEq, Repr

/-- A value, or the reason the model stops. -/
abbrev Result (α : Type) := Host.Outcome α Fault Refusal

/-- No cause. -/
def Causes.empty : Causes := ⟨false, false, false, false, false, false⟩

/-- `FULL_IE = {RESET, TRN, ERROR, IDLE}` (00_scope.md R7, D22). -/
def fullIe : Causes := { Causes.empty with reset := true, trn := true, error := true, idle := true }

/-- `SUSPEND_IE = {ACTV}` (00_scope.md R7, D22). -/
def suspendIe : Causes := { Causes.empty with actv := true }

/-- A device-owned descriptor as module start leaves it (70_reset_and_hazards.md R341). -/
def BD.atStart (addr : Nat) : BD :=
  { own := .device, stall := false, dtsen := false, dts := false, pid := 0, count := 0, addr := addr }

/-- Right after MODULE_START (10_state.md R49, 70_reset_and_hazards.md R341), for the parameters of `Params.standard`. The values the
spec leaves unspecified are those of logs 3, 4 and 5. -/
def State.reset : State where
  ctx := { kind := .none, mclass := .ram, data := .unspecified, remaining := 0, nextToggle := true }
  dev := { uaddr := 0, pendingAddr := 0 }
  rpt := { pending := false, nextToggle := true }
  bd :=
    { ep0Out := { BD.atStart Params.standard.ep0OutBuf with own := .sie, count := 8 }
      ep0In := BD.atStart Params.standard.ep0InBuf
      ep1Out := BD.atStart 0
      ep1In := BD.atStart Params.standard.ep1InBuf }
  pktdis := false
  ip := Causes.empty
  ie := fullIe
  trnFifo := []
  errFlags := 0
  suspended := false
  gie := true
  inHandler := false
  phase := .reset
  trace := []
  wire := []
  ram := []
  inputs := []
  params := Params.standard

end Sys2Proof.Machine
end

