-- ==== Sys2Proof/Machine/Operands.lean ====
section
/-! DEFINITION. Operand assembly: what a rule takes from the SETUP word and from the pointers (30_encoding.md R98, R99,
41_ep0_control_engine.md R171, 00_scope.md R10). -/

namespace Sys2Proof.Machine

/-- `new_addr <- wValue[6:0]` (30_encoding.md R98). -/
def newAddr (wValue : BitVec 16) : BitVec 7 := wValue.extractLsb' 0 7

/-- `new_config <- wValue[7:0]` (30_encoding.md R98). -/
def newConfig (wValue : BitVec 16) : Byte := wValue.extractLsb' 0 8

/-- `min(true_len, req_len)` on 16-bit values (30_encoding.md R99). -/
def clampLength (trueLen : Nat) (wLength : BitVec 16) : BitVec 16 := BitVec.ofNat 16 (min trueLen wLength.toNat)

/-- The bytes of the next packet, `min(ctx.remaining, 8)` (41_ep0_control_engine.md R165). -/
def packetSize (remaining : BitVec 16) : Nat := min remaining.toNat ep0MaxPkt

end Sys2Proof.Machine

namespace Sys2Proof

/-- Address arithmetic is modulo `2 ^ PTR_W` (20_memory.md R61). -/
def Params.wrap (p : Params) (a : Nat) : Nat := a % 2 ^ p.ptrW

/-- The addresses of an access of `n` bytes at `a` (00_scope.md R10). -/
def Params.addrs (p : Params) (a : Nat) (n : Nat) : List Nat := (List.range n).map fun k => p.wrap (a + k)

end Sys2Proof

namespace Sys2Proof.Machine

/-- `(ctx.data + n) mod 2^PTR_W`; the marker stays (41_ep0_control_engine.md R161, R165). -/
def Pointer.advance (p : Params) (n : Nat) : Pointer → Pointer
  | .unspecified => .unspecified
  | .at a => .at (p.wrap (a + n))

end Sys2Proof.Machine
end

