-- ==== Sys2Proof/Machine/Descriptors.lean ====
section
/-! DEFINITION. The Descriptor Repository: the bytes of the descriptor ROM and LOOKUP (44_descriptor_repository.md R240 to R251). -/

namespace Sys2Proof

/-- The device descriptor, 18 bytes (44_descriptor_repository.md R242). -/
def Params.deviceDescriptor (p : Params) : List Byte :=
  [0x12, 0x01, 0x00, 0x02, p.device.devClass, p.device.devSubclass, p.device.devProtocol, 0x08,
   lowByte p.device.vid, highByte p.device.vid, lowByte p.device.pid, highByte p.device.pid,
   lowByte p.device.rel, highByte p.device.rel, p.device.iManuf, p.device.iProduct, p.device.iSerial, 0x01]

/-- The configuration descriptor, 34 bytes: configuration, interface, HID and endpoint parts (44_descriptor_repository.md R243 to
R247). -/
def Params.configDescriptor (p : Params) : List Byte :=
  [0x09, 0x02, 0x22, 0x00, 0x01, 0x01, p.config.iConfig, p.config.cfgAttr, p.config.cfgPower] ++
  [0x09, 0x04, 0x00, 0x00, 0x01, 0x03, p.config.ifSubclass, p.config.ifProtocol, p.config.iInterface] ++
  [0x09, 0x21, 0x10, 0x01, p.config.hidCountry, 0x01, 0x22, 0x3C, 0x00] ++
  [0x07, 0x05, 0x81, 0x03, 0x08, 0x00, 0x0A]

/-- A string descriptor: its own length, the type 0x03, then its units (44_descriptor_repository.md R249). -/
def StringEntry.descriptor (e : StringEntry) : List Byte := BitVec.ofNat 8 e.len :: 0x03 :: e.body

/-- The ROM regions with their bytes (20_memory.md R67). -/
def Params.romEntries (p : Params) : List (Nat × List Byte) :=
  [(p.romDevice, p.deviceDescriptor), (p.romConfig, p.configDescriptor), (p.romReport, p.rpt),
   (p.string0.addr, p.string0.descriptor), (p.string1.addr, p.string1.descriptor),
   (p.string2.addr, p.string2.descriptor), (p.string3.addr, p.string3.descriptor)]

/-- The byte of ROM at an address; outside the entries no access reads it (`memRead` stops first). -/
def Params.romByte (p : Params) (a : Nat) : Byte :=
  match p.romEntries.find? fun e => decide (e.1 ≤ a ∧ a < e.1 + e.2.length) with
  | some e => e.2.getD (a - e.1) 0
  | none => 0

end Sys2Proof

namespace Sys2Proof.Machine

/-- `LOOKUP(type, index)`: a ROM pointer and the true length, or nothing, and then the caller stalls
(44_descriptor_repository.md R240). -/
def lookup (p : Params) (type index : Byte) : Option (Pointer × Nat) :=
  if type = 0x01 then some (.at p.romDevice, devDescLen)
  else if type = 0x02 then some (.at p.romConfig, cfgDescLen)
  else if type = 0x22 then some (.at p.romReport, rptDescLen)
  else if type = 0x03 then
    if index.toNat < 4 then
      some (.at (p.string (index.extractLsb' 0 2)).addr, (p.string (index.extractLsb' 0 2)).len)
    else some (.unspecified, 0)
  else if type = 0x21 ∧ p.hidDescGettable then some (.at (p.wrap (p.romConfig + 18)), 9)
  else none

end Sys2Proof.Machine
end

