-- ==== Sys2Proof/Machine/Flags.lean ====
section
/-! DEFINITION. The flag computations: toggles, the interrupt request and its pending bits, the BD status byte, the numeric codes
(10_state.md, 30_encoding.md R104, 41_ep0_control_engine.md R171). -/

namespace Sys2Proof.Machine

/-- Toggle flip, exclusive or with 1 on one bit (41_ep0_control_engine.md R171 iv). -/
def flipToggle (t : Bool) : Bool := t ^^ true

/-- `next_toggle` of the HID Report State after a bus reset (40_bus_event_dispatcher.md R132). -/
def busResetRptToggle (p : Params) (t : Bool) : Bool :=
  match p.busResetToggleScope with
  | .rpt => true
  | .both => true
  | .ctx => t

/-- `next_toggle` of the Transfer Context after a bus reset (40_bus_event_dispatcher.md R132). -/
def busResetCtxToggle (p : Params) (t : Bool) : Bool :=
  match p.busResetToggleScope with
  | .ctx => true
  | .both => true
  | .rpt => t

/-- `(ip & ie) != 0` (60_exceptions.md R309). -/
def Causes.meets (ip ie : Causes) : Bool :=
  (ip.reset && ie.reset) || (ip.trn && ie.trn) || (ip.error && ie.error) || (ip.idle && ie.idle) ||
  (ip.actv && ie.actv) || (ip.other && ie.other)

/-- The `ip` or `ie` byte of 10_state.md R41, D14; the one OTHER bit of the model stands in bits 7 to 5 (log 18). -/
def Causes.toByte (c : Causes) : Byte :=
  BitVec.ofBool c.other ++ BitVec.ofBool c.other ++ BitVec.ofBool c.other ++ BitVec.ofBool c.idle ++
  BitVec.ofBool c.trn ++ BitVec.ofBool c.actv ++ BitVec.ofBool c.error ++ BitVec.ofBool c.reset

/-- NONE = 0, IN = 1, OUT = 2 (10_state.md R21). -/
def Kind.code : Kind → BitVec 2
  | .none => 0
  | .ctlIn => 1
  | .ctlOut => 2

/-- RAM = 0, ROM = 1 (10_state.md R22). -/
def Space.code : Space → BitVec 1
  | .ram => 0
  | .rom => 1

/-- DEVICE = 0, SIE = 1 (10_state.md R34). -/
def Owner.code : Owner → BitVec 1
  | .device => 0
  | .sie => 1

/-- The BD status byte (10_state.md R33, 30_encoding.md R104): as the block writes it while the SIE owns the BD, as the SIE writes it
back while the block does. -/
def BD.statusByte (d : BD) : Byte :=
  match d.own with
  | .sie =>
    (1 : BitVec 1) ++ BitVec.ofBool d.dts ++ (0 : BitVec 2) ++ BitVec.ofBool d.dtsen ++ BitVec.ofBool d.stall ++ (0 : BitVec 2)
  | .device => (0 : BitVec 1) ++ BitVec.ofBool d.dts ++ d.pid ++ (0 : BitVec 2)

/-- The pending-address test, `dev.pending_addr != 0` on 7 bits (41_ep0_control_engine.md R171 vii). -/
def addressPending (d : Dev) : Bool := d.pendingAddr != 0

end Sys2Proof.Machine
end

