-- ==== Sys2Proof/Machine/Ops.lean ====
section
/-! DEFINITION. The operations the rules share: memory, register updates, buffer-descriptor arms, the epilogue, the context helpers,
the exception ProtocolStall, handler entry and return, the critical section, the trace output. -/

namespace Sys2Proof.Machine

/-- Sequencing: go on with a value, or stop where the first part stopped. -/
def andThen {α β : Type} (r : Result α) (f : α → Result β) : Result β :=
  match r with
  | .next a => f a
  | .fault e => .fault e
  | .refused e => .refused e

/-! ### RAM as a list of cells -/

/-- What an address reads as that the list does not hold (20_memory.md R67 gives no contents; log 4). -/
def Memory.unlisted : Byte := 0x00

/-- The byte at an address. -/
def Memory.read : Memory → Nat → Byte
  | [], _ => Memory.unlisted
  | (x, y) :: m, a => if x = a then y else Memory.read m a

/-- A list without the entries of one address. -/
def Memory.erase (m : Memory) (a : Nat) : Memory := m.filter fun c => c.1 != a

/-- An entry put at its place, over one of the same address. -/
def Memory.insert : Memory → Nat → Byte → Memory
  | [], a, b => [(a, b)]
  | (x, y) :: m, a, b =>
    if x < a then (x, y) :: Memory.insert m a b
    else if x = a then (a, b) :: m
    else (a, b) :: (x, y) :: m

/-- Write one byte and keep the canonical form: a byte equal to what an unlisted address reads as is not listed. -/
def Memory.write (m : Memory) (a : Nat) (b : Byte) : Memory :=
  if b = Memory.unlisted then Memory.erase m a else Memory.insert m a b

/-- The canonical form: addresses strictly rising, no entry equal to what an unlisted address reads as. -/
abbrev Memory.wf (m : Memory) : Prop :=
  m.Pairwise (fun c d => c.1 < d.1) ∧ ∀ c ∈ m, c.2 ≠ Memory.unlisted

/-! ### Register updates, one per field of State -/

def State.withCtx (s : State) (v : Ctx) : State := { s with ctx := v }
def State.withDev (s : State) (v : Dev) : State := { s with dev := v }
def State.withRpt (s : State) (v : Rpt) : State := { s with rpt := v }
def State.withBd (s : State) (v : BdFile) : State := { s with bd := v }
def State.withPktdis (s : State) (v : Bool) : State := { s with pktdis := v }
def State.withIp (s : State) (v : Causes) : State := { s with ip := v }
def State.withIe (s : State) (v : Causes) : State := { s with ie := v }
def State.withTrnFifo (s : State) (v : List TrnEntry) : State := { s with trnFifo := v }
def State.withErrFlags (s : State) (v : BitVec 8) : State := { s with errFlags := v }
def State.withSuspended (s : State) (v : Bool) : State := { s with suspended := v }
def State.withGie (s : State) (v : Bool) : State := { s with gie := v }
def State.withInHandler (s : State) (v : Bool) : State := { s with inHandler := v }
def State.withPhase (s : State) (v : Phase) : State := { s with phase := v }
def State.withTrace (s : State) (v : List Byte) : State := { s with trace := v }
def State.withWire (s : State) (v : List WireRecord) : State := { s with wire := v }
def State.withRam (s : State) (v : Memory) : State := { s with ram := v }
def State.withInputs (s : State) (v : List Input) : State := { s with inputs := v }

/-! ### The buffer descriptor file (10_state.md R33) -/

/-- `BD[b]`. -/
def BdFile.get (f : BdFile) : BdIx → BD
  | .ep0Out => f.ep0Out
  | .ep0In => f.ep0In
  | .ep1Out => f.ep1Out
  | .ep1In => f.ep1In

/-- `BD[b] <- d`. -/
def BdFile.set (f : BdFile) (b : BdIx) (d : BD) : BdFile :=
  match b with
  | .ep0Out => { f with ep0Out := d }
  | .ep0In => { f with ep0In := d }
  | .ep1Out => { f with ep1Out := d }
  | .ep1In => { f with ep1In := d }

/-- `BD[b]` of the machine. -/
def State.bdAt (s : State) (b : BdIx) : BD := s.bd.get b

/-- `BD[b] <- d` of the machine. -/
def State.withBdAt (s : State) (b : BdIx) (d : BD) : State := s.withBd (s.bd.set b d)

/-- The descriptor whose four bytes hold offset `k` of the BD table (10_state.md R33). -/
def bdOfOffset (k : Nat) : BdIx :=
  if k < 4 then .ep0Out else if k < 8 then .ep0In else if k < 12 then .ep1Out else .ep1In

/-- Byte `k` of a descriptor: status, count, address low, address high (10_state.md R33; log 13). -/
def BD.byte (d : BD) (k : Nat) : Byte :=
  if k = 0 then d.statusByte
  else if k = 1 then d.count
  else if k = 2 then BitVec.ofNat 8 d.addr
  else BitVec.ofNat 8 (d.addr / 256)

/-- Write byte `k` of a descriptor, the status byte in the layout the block writes (10_state.md R33; log 13). -/
def BD.putByte (d : BD) (k : Nat) (v : Byte) : BD :=
  if k = 0 then
    { d with own := if v.getLsbD 7 then .sie else .device, dts := v.getLsbD 6, dtsen := v.getLsbD 3, stall := v.getLsbD 2 }
  else if k = 1 then { d with count := v }
  else if k = 2 then { d with addr := d.addr - d.addr % 256 + v.toNat }
  else { d with addr := d.addr % 256 + 256 * v.toNat }

/-! ### Memory access (00_scope.md R10, 20_memory.md R60 to R67) -/

/-- The address is inside the region. -/
def inRegion (r : Region) (a : Nat) : Bool := decide (r.base ≤ a ∧ a < r.base + r.len)

/-- The address is inside some region of the space (20_memory.md R67). -/
def inSpace (p : Params) : Space → Nat → Bool
  | .ram, a => p.ramRegions.any fun r => inRegion r a
  | .rom, a => p.romRegions.any fun r => inRegion r a

/-- The BD table's region (20_memory.md R67). -/
def bdtRegion (p : Params) : Region := ⟨p.bdtBase, 16⟩

/-- The byte of RAM at an address: the BD table is the byte view of the descriptors (log 13). -/
def State.ramByte (s : State) (a : Nat) : Byte :=
  if inRegion (bdtRegion s.params) a then
    (s.bdAt (bdOfOffset (a - s.params.bdtBase))).byte ((a - s.params.bdtBase) % 4)
  else s.ram.read a

/-- The byte of a space at an address. -/
def State.byteAt (s : State) : Space → Nat → Byte
  | .ram, a => s.ramByte a
  | .rom, a => s.params.romByte a

/-- Write one byte of RAM. -/
def State.putRamByte (s : State) (a : Nat) (v : Byte) : State :=
  if inRegion (bdtRegion s.params) a then
    s.withBdAt (bdOfOffset (a - s.params.bdtBase))
      ((s.bdAt (bdOfOffset (a - s.params.bdtBase))).putByte ((a - s.params.bdtBase) % 4) v)
  else s.withRam (s.ram.write a v)

/-- The bytes at `a`, `a + 1`, ... as they stand, without a region check: the SIE's own reads (log 17). -/
def State.peekBytes (s : State) (sp : Space) (a : Nat) (n : Nat) : List Byte := (s.params.addrs a n).map (s.byteAt sp)

/-- Bytes stored in ascending order, without a region check: the SIE's own writes (log 17). -/
def State.pokeBytes (s : State) (a : Nat) : List Byte → State
  | [] => s
  | v :: vs => (s.putRamByte (s.params.wrap a) v).pokeBytes (a + 1) vs

/-- `MemRead(S, a, n)` (00_scope.md R10); the first address outside every region raises `Fault_PtrRange` (60_exceptions.md R306). -/
def memRead (s : State) (sp : Space) (a : Nat) (n : Nat) : Result (List Byte) :=
  match (s.params.addrs a n).find? fun x => !inSpace s.params sp x with
  | some x => .fault (.ptrRange sp x)
  | none => .next (s.peekBytes sp a n)

/-- `MemWrite(RAM, a, n, v)` (00_scope.md R10, 60_exceptions.md R306). -/
def memWrite (s : State) (a : Nat) (v : List Byte) : Result State :=
  match (s.params.addrs a v.length).find? fun x => !inSpace s.params .ram x with
  | some x => .fault (.ptrRange .ram x)
  | none => .next (s.pokeBytes a v)

/-- `Copy(S, src, dst, n)` (00_scope.md R10). -/
def copy (s : State) (sp : Space) (src dst : Nat) (n : Nat) : Result State :=
  andThen (memRead s sp src n) fun v => memWrite s dst v

/-- `dev.configuration` (10_state.md R29). -/
def State.configuration (s : State) : Byte := s.ram.read s.params.addrConfig

/-- `dev.configuration <- v` (10_state.md R29). -/
def State.withConfiguration (s : State) (v : Byte) : State := s.withRam (s.ram.write s.params.addrConfig v)

/-- `rpt.report[0..1]` (10_state.md R30). -/
def State.report (s : State) : Byte × Byte :=
  (s.ram.read s.params.addrReport, s.ram.read (s.params.wrap (s.params.addrReport + 1)))

/-! ### Trace (60_exceptions.md R318) -/

/-- `debug_write(b)`: `trace <- trace ++ [b]`. -/
def debugWrite (b : Byte) (s : State) : State := s.withTrace (s.trace ++ [b])

/-! ### Arms (41_ep0_control_engine.md R164 to R169) -/

/-- Hand a descriptor to the SIE with the given count, address and flags; `pid` keeps its value (00_scope.md R9, R104). -/
def BD.arm (d : BD) (count : BitVec 8) (addr : Nat) (stall dtsen dts : Bool) : BD :=
  { d with own := .sie, count := count, addr := addr, stall := stall, dtsen := dtsen, dts := dts }

/-- ARM_SETUP (R164). -/
def armSetup (s : State) : State :=
  s.withBdAt .ep0Out ((s.bdAt .ep0Out).arm 8 s.params.ep0OutBuf false false false)

/-- ARM_OUT_STATUS (R166). -/
def armOutStatus (s : State) : State :=
  s.withBdAt .ep0Out ((s.bdAt .ep0Out).arm 8 s.params.ep0OutBuf false true true)

/-- ARM_OUT_DATA (R167). -/
def armOutData (s : State) : State :=
  s.withBdAt .ep0Out ((s.bdAt .ep0Out).arm 8 s.params.ep0OutBuf false true s.ctx.nextToggle)

/-- ARM_IN_STATUS (R168). -/
def armInStatus (s : State) : State :=
  s.withBdAt .ep0In ((s.bdAt .ep0In).arm 0 s.params.ep0InBuf false true true)

/-- ARM_STALL (R169). -/
def armStall (s : State) : State :=
  let s1 := s.withBdAt .ep0Out ((s.bdAt .ep0Out).arm 8 s.params.ep0OutBuf true false false)
  s1.withBdAt .ep0In ((s1.bdAt .ep0In).arm 0 s1.params.ep0InBuf true false false)

/-- The copy of the IN data stage: nothing is dereferenced when there is nothing to send (R165); an unspecified source with bytes to
send is a state no run reaches (log 14). -/
def copyFromSource (s : State) (n : Nat) : Result State :=
  match s.ctx.data with
  | .at a => copy s s.ctx.mclass a s.params.ep0InBuf n
  | .unspecified => if n = 0 then .next s else .fault (.unspecifiedSource n)

/-- ARM_IN_DATA (R165). -/
def armInData (s : State) : Result State :=
  let n := packetSize s.ctx.remaining
  andThen (copyFromSource s n) fun s1 =>
    let s2 := s1.withBdAt .ep0In
      ((s1.bdAt .ep0In).arm (BitVec.ofNat 8 n) s1.params.ep0InBuf false true s1.ctx.nextToggle)
    .next (s2.withCtx
      { s2.ctx with remaining := s2.ctx.remaining - BitVec.ofNat 16 n, data := s2.ctx.data.advance s2.params n })

/-! ### The shared epilogue (41_ep0_control_engine.md R163) -/

/-- EPILOGUE(stalled). -/
def epilogue (stalled : Bool) (s : State) : Result State :=
  if stalled then .next s
  else
    match s.ctx.kind with
    | .ctlIn => andThen (armInData s) fun s1 => .next (armOutStatus s1)
    | .ctlOut => .next (armInStatus (armOutData s))
    | .none => .next (armSetup s)

/-! ### Context helpers (42_ep0_requests.md R203) -/

/-- BEGIN_IN(mclass, ptr, len). -/
def beginIn (mclass : Space) (ptr : Pointer) (len : BitVec 16) (s : State) : State :=
  s.withCtx { s.ctx with kind := .ctlIn, mclass := mclass, data := ptr, remaining := len }

/-- BEGIN_OUT_ZERO(). -/
def beginOutZero (s : State) : State :=
  s.withCtx { s.ctx with kind := .ctlOut, remaining := 0, data := .unspecified }

/-! ### The exception (60_exceptions.md R301, R302) -/

/-- The causes of ProtocolStall (60_exceptions.md R302). Nothing records them. -/
inductive StallReason where
  | unknownDescriptorType
  | unknownStandardRequest
  | unknownClassRequest
  | unsupportedRequestType
  deriving DecidableEq, Repr

/-- `raise ProtocolStall(reason)`: ARM_STALL, the optional trace character, and the mark `stalled` (60_exceptions.md R301). -/
def protocolStall (_reason : StallReason) (s : State) : State × Bool :=
  let s1 := armStall s
  (if s1.params.traceStall then debugWrite s1.params.traceStallChar s1 else s1, true)

/-! ### The TRN condition (40_bus_event_dispatcher.md R133, R139) -/

/-- `pop head of trn_fifo ; ip.TRN <- (trn_fifo not empty)`. -/
def clearTrn (s : State) : State :=
  let q := s.trnFifo.tail
  (s.withTrnFifo q).withIp { s.ip with trn := !q.isEmpty }

/-- The last lines of every transaction-complete event: the shared epilogue, then the TRN condition is cleared
(40_bus_event_dispatcher.md R133, 41_ep0_control_engine.md R163). -/
def finishEp0 (stalled : Bool) (s : State) : Result State :=
  andThen (epilogue stalled s) fun s1 => .next (clearTrn s1)

/-! ### Handler entry and return (60_exceptions.md R312, R313) -/

/-- Entry: `in_handler <- 1`, nothing else; the invocation starts with the first cause (40_bus_event_dispatcher.md R131). -/
def enterHandler (s : State) : State := (s.withInHandler true).withPhase .reset

/-- Return: `in_handler <- 0`. -/
def leaveHandler (s : State) : State := (s.withInHandler false).withPhase .reset

/-! ### The critical section (20_memory.md R71, 43_ep1_report_engine.md R221) -/

/-- `saved <- gie ; gie <- 0 ; ... ; gie <- saved`. -/
def criticalSection (body : State → Result State) (s : State) : Result State :=
  andThen (body (s.withGie false)) fun t => .next (t.withGie s.gie)

end Sys2Proof.Machine
end

