-- ==== Sys2Proof/Machine/Requests.lean ====
section
/-! DEFINITION. The endpoint-0 requests (42_ep0_requests.md R190 to R204). A request executes as the whole SETUP event whose packet it
is (41_ep0_control_engine.md R160; log 11): each meaning is the event around the rule of the request. -/

namespace Sys2Proof.Machine

/-- TRN_EP0_SETUP around the rule of one request (41_ep0_control_engine.md R160): the context is aborted, the rule runs and says
whether it stalled, `pktdis` is cleared, and the epilogue follows; then the TRN condition is cleared (R133). -/
def setupEvent (rule : State → State × Bool) (s : State) : Result State :=
  let s1 := s.withCtx { s.ctx with kind := .none, nextToggle := true }
  let r := rule s1
  finishEp0 r.2 (r.1.withPktdis false)

/-- A rule that does not stall. -/
def accept (f : State → State) (s : State) : State × Bool := (f s, false)

/-- GET_DESCRIPTOR: look the descriptor up and begin an IN context over ROM clamped to `wLength`, or stall
(42_ep0_requests.md R191 to R195). -/
def getDescriptor (type index : Byte) (wLength : BitVec 16) (s : State) : State × Bool :=
  match lookup s.params type index with
  | some (ptr, len) => (beginIn .rom ptr (clampLength len wLength) s, false)
  | none => protocolStall .unknownDescriptorType s

/-- GET_DESCRIPTOR_DEVICE (R191). -/
def execGetDescriptorDevice (index : Byte) (wLength : BitVec 16) (s : State) : Result State :=
  setupEvent (getDescriptor 0x01 index wLength) s

/-- GET_DESCRIPTOR_CONFIGURATION (R192). -/
def execGetDescriptorConfiguration (index : Byte) (wLength : BitVec 16) (s : State) : Result State :=
  setupEvent (getDescriptor 0x02 index wLength) s

/-- GET_DESCRIPTOR_REPORT (R193). -/
def execGetDescriptorReport (index : Byte) (wLength : BitVec 16) (s : State) : Result State :=
  setupEvent (getDescriptor 0x22 index wLength) s

/-- GET_DESCRIPTOR_STRING with an index in range (R194). -/
def execGetDescriptorString (index : BitVec 2) (wLength : BitVec 16) (s : State) : Result State :=
  setupEvent (getDescriptor 0x03 (index.setWidth 8) wLength) s

/-- GET_DESCRIPTOR_STRING with an index out of range: a zero-length response, not an error (R194). -/
def execGetDescriptorStringOutOfRange (index : Byte) (wLength : BitVec 16) (s : State) : Result State :=
  setupEvent (getDescriptor 0x03 index wLength) s

/-- GET_DESCRIPTOR_UNKNOWN (R195). -/
def execGetDescriptorUnknown (descType index : Byte) (wLength : BitVec 16) (s : State) : Result State :=
  setupEvent (getDescriptor descType index wLength) s

/-- SET_ADDRESS (R196). -/
def execSetAddress (wValue : BitVec 16) (s : State) : Result State :=
  setupEvent (accept fun t => (beginOutZero t).withDev { t.dev with pendingAddr := newAddr wValue }) s

/-- SET_CONFIGURATION (R197). -/
def execSetConfiguration (wValue : BitVec 16) (s : State) : Result State :=
  setupEvent (accept fun t => (beginOutZero t).withConfiguration (newConfig wValue)) s

/-- GET_CONFIGURATION (R198). -/
def execGetConfiguration (s : State) : Result State :=
  setupEvent (accept fun t => beginIn .ram (.at t.params.addrConfig) 1 t) s

/-- GET_REPORT (R199). -/
def execGetReport (s : State) : Result State :=
  setupEvent (accept fun t => beginIn .ram (.at t.params.addrReport) 2 t) s

/-- SET_IDLE (R200). -/
def execSetIdle (s : State) : Result State := setupEvent (accept beginOutZero) s

/-- UNSUPPORTED_STANDARD (R201). -/
def execUnsupportedStandard (s : State) : Result State := setupEvent (protocolStall .unknownStandardRequest) s

/-- UNSUPPORTED_CLASS (R202). -/
def execUnsupportedClass (s : State) : Result State := setupEvent (protocolStall .unknownClassRequest) s

/-- What runs a request of type vendor or reserved. -/
abbrev NonstdMeaning := ReqAttr → Byte → BitVec 16 → BitVec 16 → BitVec 16 → State → Result State

/-- The dispatch of 42_ep0_requests.md R190. The events are no requests; the decoder never gives one for a SETUP word. -/
def dispatchRequest (nonstd : NonstdMeaning) (i : Instr) (s : State) : Result State :=
  match i with
  | .nonstdRequestType attr _ bRequest wValue wIndex wLength => nonstd attr bRequest wValue wIndex wLength s
  | .getDescriptorDevice _ index _ wLength => execGetDescriptorDevice index wLength s
  | .getDescriptorConfiguration _ index _ wLength => execGetDescriptorConfiguration index wLength s
  | .getDescriptorReport _ index _ wLength => execGetDescriptorReport index wLength s
  | .getDescriptorString _ index _ wLength => execGetDescriptorString index wLength s
  | .getDescriptorStringOutOfRange _ index _ wLength => execGetDescriptorStringOutOfRange index wLength s
  | .getDescriptorUnknown _ descType index _ wLength => execGetDescriptorUnknown descType index wLength s
  | .setAddress _ wValue _ _ => execSetAddress wValue s
  | .setConfiguration _ wValue _ _ => execSetConfiguration wValue s
  | .getConfiguration _ _ _ _ => execGetConfiguration s
  | .getReport _ _ _ _ => execGetReport s
  | .setIdle _ _ _ _ => execSetIdle s
  | .unsupportedStandard _ _ _ _ _ => execUnsupportedStandard s
  | .unsupportedClass _ _ _ _ _ => execUnsupportedClass s
  | .busReset _ => .refused .notARequest
  | .trnEp0Setup _ => .refused .notARequest
  | .trnEp0Out _ _ => .refused .notARequest
  | .trnEp0In _ _ => .refused .notARequest
  | .trnEp1 _ _ _ => .refused .notARequest
  | .trnOtherEp _ _ _ _ => .refused .notARequest
  | .busError _ => .refused .notARequest
  | .idle _ => .refused .notARequest
  | .activity _ => .refused .notARequest
  | .otherCause _ => .refused .notARequest
  | .reportWrite _ _ _ => .refused .notARequest
  | .reportChanged _ => .refused .notARequest

/-- What AS_STANDARD's further dispatch does with a nonstandard type: it never meets one, since the type is then taken as standard. -/
def refuseNonstd : NonstdMeaning := fun _ _ _ _ _ _ => .refused .nonstandardRequestType

/-- A request of type vendor or reserved: NONSTD_TYPE_POLICY decides (42_ep0_requests.md R204). Under AS_STANDARD the dispatch goes on
with `is_class = 0`. -/
def execNonstdRequestType (attr : ReqAttr) (bRequest : Byte) (wValue wIndex wLength : BitVec 16) (s : State) : Result State :=
  match s.params.nonstdTypePolicy with
  | .refuse => .refused .nonstandardRequestType
  | .asStandard => dispatchRequest refuseNonstd (decodeTyped attr 0 bRequest wValue wIndex wLength) s
  | .stall => setupEvent (protocolStall .unsupportedRequestType) s

/-- The dispatch of a decoded SETUP word (42_ep0_requests.md R190). -/
def runRequest (i : Instr) (s : State) : Result State := dispatchRequest execNonstdRequestType i s

end Sys2Proof.Machine
end

