-- ==== Sys2Proof/Machine/ControlEngine.lean ====
section
/-! DEFINITION. The Endpoint-0 Control Engine's three events (41_ep0_control_engine.md R160 to R162). -/

namespace Sys2Proof.Machine

/-- The SETUP word of a byte list, byte 0 least significant (30_encoding.md R96). -/
def spwOfList : List Byte → Spw
  | [b0, b1, b2, b3, b4, b5, b6, b7] => spwOfBytes b0 b1 b2 b3 b4 b5 b6 b7
  | _ => 0

/-- TRN_EP0_SETUP (R160): fetch the eight bytes, decode them, run the request's event. -/
def execTrnEp0Setup (s : State) : Result State :=
  andThen (memRead s .ram s.params.ep0OutBuf 8) fun sp => runRequest (decodeSp (spwOfList sp)) s

/-- The OUT arm of TRN_EP0_OUT: the received bytes go to the context's sink, which must be specified if there are any (R161; the sink
is tested before any address is formed, 60_exceptions.md R311 iv). -/
def copyToSink (s : State) (n : Nat) : Result State :=
  match s.ctx.data with
  | .at a => copy s .ram s.params.ep0OutBuf a n
  | .unspecified => if n = 0 then .next s else .fault (.unspecifiedSink n)

/-- TRN_EP0_OUT (R161). -/
def execTrnEp0Out (s : State) : Result State :=
  match s.ctx.kind with
  | .ctlIn => finishEp0 false (s.withCtx { s.ctx with kind := .none })
  | .ctlOut =>
    let n := (s.bdAt .ep0Out).count.toNat
    andThen (copyToSink s n) fun s1 =>
      finishEp0 false (s1.withCtx
        { s1.ctx with data := s1.ctx.data.advance s1.params n, nextToggle := flipToggle s1.ctx.nextToggle })
  | .none => finishEp0 false s

/-- The Status-stage commit of a pending address (R162). -/
def commitAddress (s : State) : State :=
  if addressPending s.dev then s.withDev { uaddr := s.dev.pendingAddr, pendingAddr := 0 } else s

/-- TRN_EP0_IN (R162). -/
def execTrnEp0In (s : State) : Result State :=
  match s.ctx.kind with
  | .ctlIn => finishEp0 false (s.withCtx { s.ctx with nextToggle := flipToggle s.ctx.nextToggle })
  | .ctlOut => finishEp0 false (commitAddress (s.withCtx { s.ctx with kind := .none }))
  | .none => finishEp0 false s

end Sys2Proof.Machine
end

