-- ==== Sys2Proof/Machine/Dispatcher.lean ====
section
/-! DEFINITION. The Bus Event Dispatcher's causes other than the transactions of endpoints 0 and 1
(40_bus_event_dispatcher.md R132 to R138). -/

namespace Sys2Proof.Machine

/-- BUS_RESET (R132). -/
def execBusReset (s : State) : Result State :=
  let s1 := s.withDev { uaddr := 0, pendingAddr := 0 }
  let s2 := s1.withConfiguration 0
  let s3 := s2.withRpt { pending := false, nextToggle := busResetRptToggle s2.params s2.rpt.nextToggle }
  let s4 := s3.withCtx { s3.ctx with nextToggle := busResetCtxToggle s3.params s3.ctx.nextToggle }
  let s5 := debugWrite s4.params.traceResetChar (armSetup s4)
  .next (s5.withIp { s5.ip with reset := false })

/-- TRN_OTHER_EP (R134): no action, the condition is cleared (R133). -/
def execTrnOtherEp (s : State) : Result State := .next (clearTrn s)

/-- BUS_ERROR (R135). -/
def execBusError (s : State) : Result State :=
  .next ((s.withErrFlags 0).withIp { s.ip with error := false })

/-- IDLE (R136). The wait until `ip.ACTV = 1` is the place `wake` of the handler's invocation (log 25). -/
def execIdle (s : State) : Result State :=
  .next ((((s.withSuspended true).withIe suspendIe).withIp { s.ip with idle := false }).withPhase .wake)

/-- ACTIVITY (R137). -/
def execActivity (s : State) : Result State :=
  .next (((s.withSuspended false).withIe fullIe).withIp { s.ip with actv := false })

/-- OTHER_CAUSE, the drain (R138). -/
def execOtherCause (s : State) : Result State := .next (s.withIp { s.ip with other := false })

end Sys2Proof.Machine
end

