-- ==== Sys2Proof/Machine/ReportEngine.lean ====
section
/-! DEFINITION. The Endpoint-1 Report Engine (43_ep1_report_engine.md R220 to R224). -/

namespace Sys2Proof.Machine

/-- TRANSMIT_REPORT (R223). -/
def transmitReport (s : State) : Result State :=
  andThen (copy s .ram s.params.addrReport s.params.ep1InBuf reportLen) fun s1 =>
    let s2 := s1.withBdAt .ep1In ((s1.bdAt .ep1In).arm 2 s1.params.ep1InBuf false true s1.rpt.nextToggle)
    .next (s2.withRpt { s2.rpt with nextToggle := flipToggle s2.rpt.nextToggle })

/-- REPORT_WRITE (R220). -/
def execReportWrite (b0 b1 : Byte) (s : State) : Result State := memWrite s s.params.addrReport [b0, b1]

/-- The body of REPORT_CHANGED's critical section (R221). -/
def reportChangedBody (s : State) : Result State :=
  match (s.bdAt .ep1In).own with
  | .device => transmitReport s
  | .sie => .next (s.withRpt { s.rpt with pending := true })

/-- REPORT_CHANGED (R221). -/
def execReportChanged (s : State) : Result State := criticalSection reportChangedBody s

/-- TRN_EP1 (R224), then the TRN condition is cleared (40_bus_event_dispatcher.md R133). -/
def execTrnEp1 (s : State) : Result State :=
  if s.rpt.pending then
    andThen (transmitReport s) fun s1 => .next (clearTrn (s1.withRpt { s1.rpt with pending := false }))
  else .next (clearTrn s)

end Sys2Proof.Machine
end

