-- ==== Sys2Proof/Machine/Dispatch.lean ====
section
/-! DEFINITION. One arm per instruction: the meaning of each is one definition of its family's file. -/

namespace Sys2Proof.Machine

def exec (i : Instr) (s : State) : Host.Outcome State Fault Refusal :=
  match i with
  | .busReset _ => Sys2Proof.Machine.execBusReset s
  | .trnEp0Setup _ => Sys2Proof.Machine.execTrnEp0Setup s
  | .trnEp0Out _ _ => Sys2Proof.Machine.execTrnEp0Out s
  | .trnEp0In _ _ => Sys2Proof.Machine.execTrnEp0In s
  | .trnEp1 _ _ _ => Sys2Proof.Machine.execTrnEp1 s
  | .trnOtherEp _ _ _ _ => Sys2Proof.Machine.execTrnOtherEp s
  | .busError _ => Sys2Proof.Machine.execBusError s
  | .idle _ => Sys2Proof.Machine.execIdle s
  | .activity _ => Sys2Proof.Machine.execActivity s
  | .otherCause _ => Sys2Proof.Machine.execOtherCause s
  | .reportWrite _ b0 b1 => Sys2Proof.Machine.execReportWrite b0 b1 s
  | .reportChanged _ => Sys2Proof.Machine.execReportChanged s
  | .nonstdRequestType attr _ bRequest wValue wIndex wLength => Sys2Proof.Machine.execNonstdRequestType attr bRequest wValue wIndex wLength s
  | .getDescriptorDevice _ index _ wLength => Sys2Proof.Machine.execGetDescriptorDevice index wLength s
  | .getDescriptorConfiguration _ index _ wLength => Sys2Proof.Machine.execGetDescriptorConfiguration index wLength s
  | .getDescriptorReport _ index _ wLength => Sys2Proof.Machine.execGetDescriptorReport index wLength s
  | .getDescriptorString _ index _ wLength => Sys2Proof.Machine.execGetDescriptorString index wLength s
  | .getDescriptorStringOutOfRange _ index _ wLength => Sys2Proof.Machine.execGetDescriptorStringOutOfRange index wLength s
  | .getDescriptorUnknown _ descType index _ wLength => Sys2Proof.Machine.execGetDescriptorUnknown descType index wLength s
  | .setAddress _ wValue _ _ => Sys2Proof.Machine.execSetAddress wValue s
  | .setConfiguration _ wValue _ _ => Sys2Proof.Machine.execSetConfiguration wValue s
  | .getConfiguration _ _ _ _ => Sys2Proof.Machine.execGetConfiguration s
  | .getReport _ _ _ _ => Sys2Proof.Machine.execGetReport s
  | .setIdle _ _ _ _ => Sys2Proof.Machine.execSetIdle s
  | .unsupportedStandard _ _ _ _ _ => Sys2Proof.Machine.execUnsupportedStandard s
  | .unsupportedClass _ _ _ _ _ => Sys2Proof.Machine.execUnsupportedClass s

end Sys2Proof.Machine
end

