-- ==== Sys2Proof/Machine/Sie.lean ====
section
/-! DEFINITION. The steps of the SIE, acting for the host (45_environment_agents.md R273 to R283, R286). A step whose guard is false is
refused (60_exceptions.md R307). -/

namespace Sys2Proof.Machine

/-- Append a record to the wire log (R286). -/
def wireWrite (r : WireRecord) (s : State) : State := s.withWire (s.wire ++ [r])

/-- The endpoint of a descriptor. -/
def BdIx.endp : BdIx → BitVec 4
  | .ep0Out => 0
  | .ep0In => 0
  | .ep1Out => 1
  | .ep1In => 1

/-- The direction of a descriptor, 1 for IN. -/
def BdIx.dir : BdIx → BitVec 1
  | .ep0Out => 0
  | .ep0In => 1
  | .ep1Out => 0
  | .ep1In => 1

/-- The endpoint buffer of a descriptor (10_state.md R39); endpoint 1 OUT has none, and its descriptor's own address stands for it. -/
def State.bufferOf (s : State) : BdIx → Nat
  | .ep0Out => s.params.ep0OutBuf
  | .ep0In => s.params.ep0InBuf
  | .ep1Out => s.bd.ep1Out.addr
  | .ep1In => s.params.ep1InBuf

/-- The queue has no room (10_state.md R43). -/
def State.trnFull (s : State) : Bool := decide (s.params.trnFifoDepth ≤ s.trnFifo.length)

/-- A completed transaction is queued: `push ... on trn_fifo ; ip.TRN <- 1`. -/
def pushTrn (b : BdIx) (s : State) : State :=
  (s.withTrnFifo (s.trnFifo ++ [⟨b.endp, b.dir⟩])).withIp { s.ip with trn := true }

/-- The descriptor goes back to the block, last (20_memory.md R69). -/
def handBack (b : BdIx) (pid : BitVec 4) (dts : Bool) (count : BitVec 8) (s : State) : State :=
  s.withBdAt b { s.bdAt b with pid := pid, dts := dts, count := count, own := .device }

/-- The guard of SETUP_TOKEN (R277): the stall flag and the toggle are not in it. -/
def setupReady (s : State) : Bool :=
  decide ((s.bdAt .ep0Out).own = .sie) && !s.pktdis && !s.trnFull

/-- SETUP_TOKEN (R277). -/
def setupToken (packet : Spw) (s : State) : State :=
  let s1 := s.pokeBytes s.params.ep0OutBuf (spBytes packet)
  let s2 := handBack .ep0Out pidSetup false 8 s1
  wireWrite (.setup packet) (pushTrn .ep0Out (s2.withPktdis true))

/-- The part of OUT_DATA's guard before the toggle is looked at (R278). -/
def outReady (bytes : List Byte) (s : State) : Bool :=
  decide ((s.bdAt .ep0Out).own = .sie) && !(s.bdAt .ep0Out).stall && !s.pktdis && !s.trnFull &&
  decide (bytes.length ≤ (s.bdAt .ep0Out).count.toNat)

/-- The toggle is acceptable (R278, 10_state.md R36). -/
def toggleAccepted (t : Bool) (s : State) : Bool := !(s.bdAt .ep0Out).dtsen || t == (s.bdAt .ep0Out).dts

/-- OUT_DATA on endpoint 0 (R278); a packet with the wrong toggle is acknowledged and discarded, and nothing changes (log 15). -/
def outData (t : Bool) (bytes : List Byte) (s : State) : State :=
  if toggleAccepted t s then
    let s1 := s.pokeBytes s.params.ep0OutBuf bytes
    let s2 := handBack .ep0Out pidOut t (BitVec.ofNat 8 bytes.length) s1
    wireWrite (.outData t bytes) (pushTrn .ep0Out s2)
  else s

/-- The guard of IN_DONE (R279). -/
def inReady (b : BdIx) (s : State) : Bool :=
  (decide (b = .ep0In) || decide (b = .ep1In)) && decide ((s.bdAt b).own = .sie) && !(s.bdAt b).stall &&
  !(decide (b = .ep0In) && s.pktdis) && !s.trnFull

/-- The bytes an IN packet carries, `buffer(b)[0 .. BD[b].count - 1]` (R279). -/
def packetBytes (b : BdIx) (s : State) : List Byte := s.peekBytes .ram (s.bufferOf b) (s.bdAt b).count.toNat

/-- IN_DONE (R279). -/
def inDone (b : BdIx) (s : State) : State :=
  let s1 := wireWrite (.inData b.endp (s.bdAt b).dts (packetBytes b s)) s
  pushTrn b (handBack b pidIn (s.bdAt b).dts (s.bdAt b).count s1)

/-- The guard of NAK (R280); a full queue makes the SIE answer NAK too (R277; log 16). -/
def nakReady (b : BdIx) (s : State) : Bool :=
  decide ((s.bdAt b).own = .device) || (decide (b.endp = 0) && s.pktdis) || s.trnFull

/-- The guard of STALL_HANDSHAKE (R281). -/
def stallReady (b : BdIx) (s : State) : Bool :=
  decide ((s.bdAt b).own = .sie) && (s.bdAt b).stall && !s.pktdis

/-- A token step: not enabled while suspended (R283); a token to another address changes nothing (R273); else the guard decides. -/
def tokenStep (addr : BitVec 7) (ready : State → Bool) (effect : State → State) (s : State) : Result State :=
  if s.suspended then .refused .sieGuardFalse
  else if addr ≠ s.dev.uaddr then .next s
  else if ready s then .next (effect s)
  else .refused .sieGuardFalse

/-- HOST_BUS_RESET (R276): a reset is bus activity, and SIE_RESET_FLUSH decides the rest. -/
def hostBusReset (s : State) : State :=
  let s1 := s.withIp { s.ip with reset := true, actv := s.ip.actv || s.suspended }
  let s2 :=
    if s1.params.sieResetFlush then
      ((s1.withPktdis false).withTrnFifo []).withIp { s1.ip with trn := false }
    else s1
  wireWrite .reset s2

/-- One step of the SIE. -/
def sieStep (a : SieStep) (s : State) : Result State :=
  match a with
  | .hostBusReset => .next (hostBusReset s)
  | .setupToken addr packet => tokenStep addr setupReady (setupToken packet) s
  | .outData addr t bytes => tokenStep addr (outReady bytes) (outData t bytes) s
  | .inDone addr b => tokenStep addr (inReady b) (inDone b) s
  | .nak addr b => tokenStep addr (nakReady b) (wireWrite (.nak b)) s
  | .stallHandshake addr b =>
    tokenStep addr (stallReady b) (fun t => wireWrite (.stall b) (t.withIp { t.ip with other := true })) s
  | .busErrorDetected e =>
    if e = 0 then .refused .sieGuardFalse
    else .next ((s.withErrFlags (s.errFlags ||| e)).withIp { s.ip with error := true })
  | .idleDetected => if s.suspended then .refused .sieGuardFalse else .next (s.withIp { s.ip with idle := true })
  | .activityDetected => if s.suspended then .next (s.withIp { s.ip with actv := true }) else .refused .sieGuardFalse
  | .otherDetected => .next (s.withIp { s.ip with other := true })

/-! ### Reading the wire log (R286) -/

/-- The bytes returned after a request's SETUP record: those of the endpoint-0 IN records up to the next OUT or SETUP record. -/
def returnedBytes : List WireRecord → List Byte
  | [] => []
  | .inData ep _ bytes :: r => if ep = 0 then bytes ++ returnedBytes r else returnedBytes r
  | .outData _ _ :: _ => []
  | .setup _ :: _ => []
  | .reset :: r => returnedBytes r
  | .nak _ :: r => returnedBytes r
  | .stall _ :: r => returnedBytes r

/-- The transmitted reports: the endpoint-1 IN records, toggle and bytes. -/
def transmittedReports : List WireRecord → List (Bool × List Byte)
  | [] => []
  | .inData ep t bytes :: r => if ep = 1 then (t, bytes) :: transmittedReports r else transmittedReports r
  | .outData _ _ :: r => transmittedReports r
  | .setup _ :: r => transmittedReports r
  | .reset :: r => transmittedReports r
  | .nak _ :: r => transmittedReports r
  | .stall _ :: r => transmittedReports r

end Sys2Proof.Machine
end

