-- ==== Sys2Proof/Machine/Handler.lean ====
section
/-! DEFINITION. Which event comes next, and the step over a meaning of the instructions: the handler's order, the interrupt request,
the forming of the event word, the inputs (40_bus_event_dispatcher.md R130, R131, R139, R140; 30_encoding.md R94;
45_environment_agents.md R271; logs 7, 8, 9, 25). -/

namespace Sys2Proof.Machine

/-- The handler's events by cause (30_encoding.md R92). -/
inductive Cause where
  | reset
  | trn
  | error
  | idle
  | actv
  | other
  deriving DecidableEq, Repr

/-- `CAUSE` of a handler event (30_encoding.md R92). -/
def Cause.code : Cause → BitVec 4
  | .reset => 0x0
  | .trn => 0x1
  | .error => 0x2
  | .idle => 0x3
  | .actv => 0x4
  | .other => 0x5

/-- From ACTV on: ACTIVITY if pending and enabled, else the drain. -/
def selectActv (s : State) : Cause := if s.ip.actv && s.ie.actv then .actv else .other
/-- From IDLE on. -/
def selectIdle (s : State) : Cause := if s.ip.idle && s.ie.idle then .idle else selectActv s
/-- From ERROR on. -/
def selectError (s : State) : Cause := if s.ip.error && s.ie.error then .error else selectIdle s
/-- From TRN on. -/
def selectTrn (s : State) : Cause := if s.ip.trn && s.ie.trn then .trn else selectError s
/-- From RESET on. -/
def selectReset (s : State) : Cause := if s.ip.reset && s.ie.reset then .reset else selectTrn s

/-- The cause an invocation acts on next, from the place it has reached: the first of RESET, TRN, ERROR, IDLE, ACTV that is pending and
enabled, and the drain at the end (40_bus_event_dispatcher.md R131). -/
def select (s : State) : Phase → Cause
  | .reset => selectReset s
  | .trn => selectTrn s
  | .error => selectError s
  | .idle => selectIdle s
  | .wake => selectActv s
  | .actv => selectActv s
  | .drain => .other

/-- The place after a cause; IDLE's own rule goes on to its wait. -/
def phaseAfter : Cause → Phase
  | .reset => .trn
  | .trn => .error
  | .error => .idle
  | .idle => .actv
  | .actv => .drain
  | .other => .drain

/-- `EVW` formed from the interface registers (30_encoding.md R94); nothing if TRN is pending with an empty queue (log 14). -/
def formEvw (s : State) : Cause → Option Evw
  | .trn =>
    match s.trnFifo with
    | [] => none
    | e :: _ => some (evw 0x1 e.endp e.dir (if e.endp = 0 ∧ e.dir = 0 then s.bd.ep0Out.pid else 0) 0)
  | c => some (evwLow c.code 0)

/-- The bits of an event word that have a meaning (30_encoding.md R91). -/
def evwMeaning (w : Evw) : Evw :=
  if evCause w = 0x1 then (if evEndp w = 0 ∧ evDir w = 0 then w &&& 0xFFF8 else w &&& 0xFF80) else w &&& 0xF000

/-- The interrupt is requested and taken: `(ip & ie) != 0` and `gie = 1` (40_bus_event_dispatcher.md R130; the caller has
`in_handler = 0`). -/
def interruptTaken (s : State) : Bool := s.ip.meets s.ie && s.gie

/-- The handler sleeps in IDLE's wait (40_bus_event_dispatcher.md R136). -/
def asleep (s : State) : Bool := s.inHandler && decide (s.phase = .wake) && !s.ip.actv

/-- Run one event of the handler with its event word: the place moves on, the event's instruction runs, and after the drain the handler
returns (40_bus_event_dispatcher.md R131, 60_exceptions.md R313). -/
def runEvent (ex : Instr → State → Result State) (c : Cause) (w : Evw) (s : State) : Result State :=
  match decodeEv w 0 0 with
  | .error _ => .refused (.reservedCause (evCause w))
  | .ok i =>
    andThen (ex i (s.withPhase (phaseAfter c))) fun t =>
      .next (match c with
        | .other => leaveHandler t
        | .reset => t
        | .trn => t
        | .error => t
        | .idle => t
        | .actv => t)

/-- The next event of the running invocation. -/
def handlerStep (ex : Instr → State → Result State) (s : State) : Result State :=
  match formEvw s (select s s.phase) with
  | none => .fault .transactionQueueEmpty
  | some w => runEvent ex (select s s.phase) w s

/-- An event word at the head of the inputs while the handler is not running: a foreground call waits for the interrupt and runs if it
is enabled; a handler event must be the one the handler takes next (45_environment_agents.md R271, 60_exceptions.md R307). -/
def offeredEvent (ex : Instr → State → Result State) (w : Evw) (b0 b1 : Byte) (rest : List Input) (s : State) : Result State :=
  match decodeEv w b0 b1 with
  | .error _ => .refused (.reservedCause (evCause w))
  | .ok i =>
    if i.mnemonic.isForeground then
      if s.suspended then .refused .foregroundNotEnabled
      else if interruptTaken s then handlerStep ex (enterHandler s)
      else ex i (s.withInputs rest)
    else if interruptTaken s then
      match formEvw s (selectReset s) with
      | none => .fault .transactionQueueEmpty
      | some v =>
        if evwMeaning w = evwMeaning v then runEvent ex (selectReset s) w ((enterHandler s).withInputs rest)
        else .refused .handlerEventNotEnabled
    else .refused .handlerEventNotEnabled

/-- One step of the machine over a meaning of the instructions. -/
def stepWith (ex : Instr → State → Result State) (s : State) : Result State :=
  if s.inHandler && !asleep s then handlerStep ex s
  else
    match s.inputs with
    | .sie a :: rest => sieStep a (s.withInputs rest)
    | [] => if !s.inHandler && interruptTaken s then handlerStep ex (enterHandler s) else .next s
    | .event w b0 b1 :: rest =>
      if s.inHandler then
        match decodeEv w b0 b1 with
        | .error _ => .refused (.reservedCause (evCause w))
        | .ok i => .refused (if i.mnemonic.isForeground then .foregroundNotEnabled else .handlerEventNotEnabled)
      else offeredEvent ex w b0 b1 rest s

/-! ### Placing an instruction (log 6) -/

/-- One cause pending and no other. -/
def Cause.only : Cause → Causes
  | .reset => { Causes.empty with reset := true }
  | .trn => { Causes.empty with trn := true }
  | .error => { Causes.empty with error := true }
  | .idle => { Causes.empty with idle := true }
  | .actv => { Causes.empty with actv := true }
  | .other => { Causes.empty with other := true }

/-- The causes of either set. -/
def Causes.union (c d : Causes) : Causes :=
  ⟨c.reset || d.reset, c.trn || d.trn, c.error || d.error, c.idle || d.idle, c.actv || d.actv, c.other || d.other⟩

/-- The handler's cause an event word names. -/
def causeOf (w : Evw) : Option Cause :=
  if evCause w = 0x0 then some .reset
  else if evCause w = 0x1 then some .trn
  else if evCause w = 0x2 then some .error
  else if evCause w = 0x3 then some .idle
  else if evCause w = 0x4 then some .actv
  else if evCause w = 0x5 then some .other
  else none

/-- The interface registers say what the event word says: its cause alone is pending, and enabled; for TRN the head of the queue and the
read-back PID are the word's. A foreground word needs no pending cause and a processor that is awake. -/
def presentEvent (w : Evw) (s : State) : State :=
  let s1 := (leaveHandler s).withGie true
  match causeOf w with
  | some c =>
    let s2 := (s1.withIp c.only).withIe (s1.ie.union c.only)
    match c with
    | .trn =>
      let s3 := s2.withTrnFifo (⟨evEndp w, evDir w⟩ :: s2.trnFifo.tail)
      if evEndp w = 0 ∧ evDir w = 0 then s3.withBdAt .ep0Out { s3.bdAt .ep0Out with pid := evPid w } else s3
    | .reset => s2
    | .error => s2
    | .idle => s2
    | .actv => s2
    | .other => s2
  | none => (s1.withIp Causes.empty).withSuspended false

/-- The event word of TRN_EP0_SETUP (30_encoding.md R93). -/
def evwSetup : Evw := 0x1068

/-- Place an instruction where the next step takes it: an event word at the head of the inputs with its interface registers, a SETUP
word in `EP0_OUT_BUF` with its TRN_EP0_SETUP event. -/
def placeWord (s : State) (nbits w : Nat) : State :=
  if nbits = 64 then
    let s1 := presentEvent evwSetup (s.pokeBytes s.params.ep0OutBuf (spBytes (BitVec.ofNat 64 w)))
    s1.withInputs (.event evwSetup 0 0 :: s.inputs)
  else
    let v := w % 2 ^ nbits
    let s1 := presentEvent (BitVec.ofNat 16 v) s
    s1.withInputs (.event (BitVec.ofNat 16 v) (BitVec.ofNat 8 (v / 2 ^ 16)) (BitVec.ofNat 8 (v / 2 ^ 24)) :: s.inputs)

end Sys2Proof.Machine
end

