-- ==== Sys2Proof/Machine/ModuleStart.lean ====
section
/-! DEFINITION. MODULE_START for any parameter set (70_reset_and_hazards.md R341); `State.reset` is the one of `Params.standard`. -/

namespace Sys2Proof.Machine

/-- RAM at module start: nothing but `REPORT_INIT` and `dev.configuration = 0` (70_reset_and_hazards.md R341; log 4). -/
def ramAtStart (p : Params) : Memory :=
  let r1 : Memory := Memory.write [] p.addrReport p.reportInit0
  let r2 := Memory.write r1 (p.wrap (p.addrReport + 1)) p.reportInit1
  Memory.write r2 p.addrConfig 0

/-- MODULE_START (70_reset_and_hazards.md R341). -/
def moduleStart (p : Params) : State :=
  armSetup
    { ctx := { kind := .none, mclass := .ram, data := .unspecified, remaining := 0, nextToggle := true }
      dev := { uaddr := 0, pendingAddr := 0 }
      rpt := { pending := false, nextToggle := true }
      bd :=
        { ep0Out := BD.atStart p.ep0OutBuf
          ep0In := BD.atStart p.ep0InBuf
          ep1Out := BD.atStart 0
          ep1In := BD.atStart p.ep1InBuf }
      pktdis := false
      ip := Causes.empty
      ie := fullIe
      trnFifo := []
      errFlags := 0
      suspended := false
      gie := true
      inHandler := false
      phase := .reset
      trace := []
      wire := []
      ram := ramAtStart p
      inputs := []
      params := p }

end Sys2Proof.Machine
end

