-- ==== Sys2Proof/Safety.lean ====
section
/-! DEFINITION. What claims about the machine are said in: the invariants of its state, the words for what an event changes and leaves
alone, and the whole effect of the shared forms of the SETUP event. -/

namespace Sys2Proof

/-- The instructions that are a SETUP event: TRN_EP0_SETUP and the requests (41_ep0_control_engine.md R160). -/
def Mnemonic.isSetup (m : Mnemonic) : Bool := decide (m.format = .sp) || decide (m = .trnEp0Setup)

/-- The endpoint-0 events (41_ep0_control_engine.md). -/
def Mnemonic.isEp0 (m : Mnemonic) : Bool := m.isSetup || decide (m = .trnEp0Out) || decide (m = .trnEp0In)

/-- The request a SETUP packet is dispatched as (42_ep0_requests.md R190, R204): AS_STANDARD takes a vendor or reserved type with
`is_class = 0`; every other packet is dispatched as it is. -/
def Instr.underPolicy (policy : NonstdPolicy) : Instr → Instr
  | .nonstdRequestType attr c bRequest wValue wIndex wLength =>
    if policy = .asStandard then decodeTyped attr 0 bRequest wValue wIndex wLength
    else .nonstdRequestType attr c bRequest wValue wIndex wLength
  | i => i

end Sys2Proof

namespace Sys2Proof.Machine

/-! ### Invariants -/

/-- The regions of a space (20_memory.md R67). -/
def regionsOf (p : Params) : Space → List Region
  | .ram => p.ramRegions
  | .rom => p.romRegions

/-- `n` bytes at `a` lie inside one region of the space. -/
def insideRegion (p : Params) (sp : Space) (a n : Nat) : Prop := ∃ r ∈ regionsOf p sp, r.base ≤ a ∧ a + n ≤ r.base + r.len

/-- `ip.TRN = 1` exactly when the queue is not empty, and the queue holds at most TRN_FIFO_DEPTH entries (10_state.md R43). -/
def State.queueOk (s : State) : Prop :=
  (s.ip.trn = true ↔ s.trnFifo ≠ []) ∧ s.trnFifo.length ≤ s.params.trnFifoDepth

/-- The bytes an IN context has still to send lie inside one region of its source (10_state.md R26 iii); an OUT context has no bytes
left and no sink (42_ep0_requests.md R203); a pointer has PTR_W bits (10_state.md R23). -/
def State.transferOk (s : State) : Prop :=
  (s.ctx.kind = .ctlIn → 0 < s.ctx.remaining.toNat →
    ∃ a, s.ctx.data = .at a ∧ insideRegion s.params s.ctx.mclass a s.ctx.remaining.toNat) ∧
  (s.ctx.kind = .ctlOut → s.ctx.remaining = 0 ∧ s.ctx.data = .unspecified) ∧
  (∀ a, s.ctx.data = .at a → a < 2 ^ s.params.ptrW)

/-- The interrupt discipline: `gie` is 1 between events (43_ep1_report_engine.md R221); the machine is suspended exactly while a handler
invocation sleeps, and then `ie` is SUSPEND_IE, else FULL_IE (40_bus_event_dispatcher.md R136, R137, 60_exceptions.md R319); outside the
handler the next invocation starts with the first cause (R131). -/
def State.powerOk (s : State) : Prop :=
  s.gie = true ∧
  (s.suspended = true ↔ s.inHandler = true ∧ s.phase = .wake) ∧
  s.ie = (if s.suspended then suspendIe else fullIe) ∧
  (s.inHandler = false → s.phase = .reset)

/-- The descriptors: constant buffer addresses (10_state.md R39), counts of at most 8 (R38), endpoint 1 never stalled (R35), EP1_OUT
never armed (43_ep1_report_engine.md R222). -/
def State.descriptorsOk (s : State) : Prop :=
  s.bd.ep0Out.addr = s.params.ep0OutBuf ∧ s.bd.ep0In.addr = s.params.ep0InBuf ∧ s.bd.ep1In.addr = s.params.ep1InBuf ∧
  (∀ b, (s.bdAt b).count.toNat ≤ 8) ∧
  s.bd.ep1Out.stall = false ∧ s.bd.ep1In.stall = false ∧ s.bd.ep1Out.own = .device

/-- A cause of the handler is pending and enabled (40_bus_event_dispatcher.md R131); the drain is not asked. -/
def pendingEnabled (s : State) : Cause → Bool
  | .reset => s.ip.reset && s.ie.reset
  | .trn => s.ip.trn && s.ie.trn
  | .error => s.ip.error && s.ie.error
  | .idle => s.ip.idle && s.ie.idle
  | .actv => s.ip.actv && s.ie.actv
  | .other => false

/-! ### Frames -/

/-- The address lies in the `n` bytes at `base`. -/
def inRun (base n a : Nat) : Prop := base ≤ a ∧ a < base + n

/-- The place of a descriptor in the BD table (10_state.md R33). -/
def BdIx.number : BdIx → Nat
  | .ep0Out => 0
  | .ep0In => 1
  | .ep1Out => 2
  | .ep1In => 3

/-- The address lies in the four bytes of a descriptor (10_state.md R33). -/
def inBd (p : Params) (b : BdIx) (a : Nat) : Prop := inRun (p.bdtBase + 4 * b.number) 4 a

/-- Every byte of RAM reads as before, but at the addresses named. -/
def sameBytesExcept (s t : State) (changed : Nat → Prop) : Prop := ∀ a, ¬ changed a → t.ramByte a = s.ramByte a

/-! ### The request of a SETUP event -/

/-- The SETUP word that stands in EP0_OUT_BUF (30_encoding.md R96). -/
def State.setupWord (s : State) : Spw :=
  spwOfBytes (s.ramByte s.params.ep0OutBuf) (s.ramByte (s.params.ep0OutBuf + 1)) (s.ramByte (s.params.ep0OutBuf + 2))
    (s.ramByte (s.params.ep0OutBuf + 3)) (s.ramByte (s.params.ep0OutBuf + 4)) (s.ramByte (s.params.ep0OutBuf + 5))
    (s.ramByte (s.params.ep0OutBuf + 6)) (s.ramByte (s.params.ep0OutBuf + 7))

/-- The request an instruction runs: TRN_EP0_SETUP runs the packet that stands in EP0_OUT_BUF (41_ep0_control_engine.md R160), a request
itself, both as NONSTD_TYPE_POLICY says. -/
def State.requestOf (s : State) (i : Instr) : Instr :=
  (if i.mnemonic = .trnEp0Setup then decodeSp s.setupWord else i).underPolicy s.params.nonstdTypePolicy

/-- The bytes of the first packet of GET_DESCRIPTOR: of the descriptor LOOKUP finds, clamped to `wLength`
(42_ep0_requests.md R191 to R195); none for a string index out of range, whose length is 0, nor where LOOKUP finds nothing and the event
stalls. -/
def descriptorPacket (p : Params) (type index : Byte) (wLength : BitVec 16) : Nat :=
  match lookup p type index with
  | some (_, len) => min (min len wLength.toNat) 8
  | none => 0

/-- The bytes a request puts into EP0_IN_BUF with its SETUP event (42_ep0_requests.md R191 to R204): a request that delivers nothing, or
stalls, puts none. -/
def packetOf (p : Params) : Instr → Nat
  | .getDescriptorDevice _ index _ l => descriptorPacket p 0x01 index l
  | .getDescriptorConfiguration _ index _ l => descriptorPacket p 0x02 index l
  | .getDescriptorReport _ index _ l => descriptorPacket p 0x22 index l
  | .getDescriptorString _ index _ l => descriptorPacket p 0x03 (index.setWidth 8) l
  | .getDescriptorStringOutOfRange _ index _ l => descriptorPacket p 0x03 index l
  | .getDescriptorUnknown _ type index _ l => descriptorPacket p type index l
  | .getConfiguration _ _ _ _ => 1
  | .getReport _ _ _ _ => 2
  | .setAddress _ _ _ _ | .setConfiguration _ _ _ _ | .setIdle _ _ _ _ | .unsupportedStandard _ _ _ _ _
  | .unsupportedClass _ _ _ _ _ | .nonstdRequestType _ _ _ _ _ _ => 0
  | .busReset _ | .trnEp0Setup _ | .trnEp0Out _ _ | .trnEp0In _ _ | .trnEp1 _ _ _ | .trnOtherEp _ _ _ _ | .busError _ | .idle _
  | .activity _ | .otherCause _ | .reportWrite _ _ _ | .reportChanged _ => 0

/-- The addresses an event stores to, computed from the state it starts in: the byte of the configuration, the report, the bytes of the
packet it arms, the descriptors it arms (41_ep0_control_engine.md R163 to R169, R172; 42_ep0_requests.md R197; 40_bus_event_dispatcher.md
R132; 43_ep1_report_engine.md R220, R221, R223, R224). -/
def storedBy (s : State) (i : Instr) (a : Nat) : Prop :=
  match i.mnemonic with
  | .busReset => a = s.params.addrConfig ∨ inBd s.params .ep0Out a
  | .trnEp0Out => inBd s.params .ep0Out a ∨ (s.ctx.kind = .ctlOut ∧ inBd s.params .ep0In a)
  | .trnEp0In =>
    inBd s.params .ep0Out a ∨
    (s.ctx.kind = .ctlIn ∧ (inBd s.params .ep0In a ∨ inRun s.params.ep0InBuf (packetSize s.ctx.remaining) a))
  | .trnEp1 => s.rpt.pending = true ∧ (inBd s.params .ep1In a ∨ inRun s.params.ep1InBuf 2 a)
  | .trnOtherEp | .busError | .idle | .activity | .otherCause => False
  | .reportWrite => inRun s.params.addrReport 2 a
  | .reportChanged => s.bd.ep1In.own = .device ∧ (inBd s.params .ep1In a ∨ inRun s.params.ep1InBuf 2 a)
  | .trnEp0Setup | .nonstdRequestType | .getDescriptorDevice | .getDescriptorConfiguration | .getDescriptorReport
  | .getDescriptorString | .getDescriptorStringOutOfRange | .getDescriptorUnknown | .setAddress | .setConfiguration
  | .getConfiguration | .getReport | .setIdle | .unsupportedStandard | .unsupportedClass =>
    inBd s.params .ep0Out a ∨ inBd s.params .ep0In a ∨ inRun s.params.ep0InBuf (packetOf s.params (s.requestOf i)) a ∨
    ((s.requestOf i).mnemonic = .setConfiguration ∧ a = s.params.addrConfig)

/-! ### The forms of the SETUP event (41_ep0_control_engine.md R160, R163) -/

/-- A descriptor armed with the given count and flags; `pid` keeps its value. -/
def armed (d : BD) (count : BitVec 8) (addr : Nat) (stall dtsen dts : Bool) : BD :=
  { own := .sie, stall := stall, dtsen := dtsen, dts := dts, pid := d.pid, count := count, addr := addr }

/-- The head of the queue is popped and TRN stays pending if another entry waits (40_bus_event_dispatcher.md R133). -/
def trnCleared (s : State) : Causes := { s.ip with trn := decide (s.trnFifo.tail ≠ []) }

/-- The packet of the first `n` bytes at `base` of a space is armed on EP0_IN with toggle `dts`, EP0_OUT is armed for the Status stage,
the context goes on to `left` bytes at `base + n`, and the TRN condition is cleared (41_ep0_control_engine.md R163, R165, R166). Nothing
else changes but `pktdis` as given. -/
def sendsPacket (s t : State) (pktdis : Bool) (sp : Space) (base n left : Nat) (dts : Bool) : Prop :=
  t.ctx = { kind := .ctlIn, mclass := sp, data := .at (s.params.wrap (base + n)), remaining := BitVec.ofNat 16 left,
            nextToggle := dts } ∧
  (∀ k < n, t.ramByte (s.params.ep0InBuf + k) = s.byteAt sp (base + k)) ∧
  sameBytesExcept s t (fun a => inRun s.params.ep0InBuf n a ∨ inBd s.params .ep0In a ∨ inBd s.params .ep0Out a) ∧
  t = { s with
        ctx := t.ctx
        bd := { s.bd with
                ep0In := armed s.bd.ep0In (BitVec.ofNat 8 n) s.params.ep0InBuf false true dts
                ep0Out := armed s.bd.ep0Out 8 s.params.ep0OutBuf false true true }
        pktdis := pktdis
        trnFifo := s.trnFifo.tail
        ip := trnCleared s
        ram := t.ram }

/-- A SETUP event that begins an IN context of `total` bytes at `base`: the first packet, DATA1 (42_ep0_requests.md R203). -/
def beginsIn (s t : State) (sp : Space) (base total : Nat) : Prop :=
  sendsPacket s t false sp base (min total 8) (total - min total 8) true

/-- The state after a SETUP event that answers with an empty data stage from no source (42_ep0_requests.md R194). -/
def answersNothing (s : State) : State :=
  { s with
    ctx := { kind := .ctlIn, mclass := .rom, data := .unspecified, remaining := 0, nextToggle := true }
    bd := { s.bd with
            ep0Out := armed s.bd.ep0Out 8 s.params.ep0OutBuf false true true
            ep0In := armed s.bd.ep0In 0 s.params.ep0InBuf false true true }
    pktdis := false
    trnFifo := s.trnFifo.tail
    ip := trnCleared s }

/-- The state after a SETUP event that begins a zero-length OUT context (42_ep0_requests.md R203, 41_ep0_control_engine.md R167, R168),
but for what the request itself stores. -/
def beginsOut (s : State) : State :=
  { s with
    ctx := { s.ctx with kind := .ctlOut, data := .unspecified, remaining := 0, nextToggle := true }
    bd := { s.bd with
            ep0Out := armed s.bd.ep0Out 8 s.params.ep0OutBuf false true true
            ep0In := armed s.bd.ep0In 0 s.params.ep0InBuf false true true }
    pktdis := false
    trnFifo := s.trnFifo.tail
    ip := trnCleared s }

/-- The state after a SETUP event that stalls (60_exceptions.md R301, 41_ep0_control_engine.md R169). -/
def stalls (s : State) : State :=
  { s with
    ctx := { s.ctx with kind := .none, nextToggle := true }
    bd := { s.bd with
            ep0Out := armed s.bd.ep0Out 8 s.params.ep0OutBuf true false false
            ep0In := armed s.bd.ep0In 0 s.params.ep0InBuf true false false }
    pktdis := false
    trace := if s.params.traceStall then s.trace ++ [s.params.traceStallChar] else s.trace
    trnFifo := s.trnFifo.tail
    ip := trnCleared s }

/-- EP0_OUT armed for a fresh SETUP and the TRN condition cleared: the end of an endpoint-0 event with `ctx.kind = NONE`
(41_ep0_control_engine.md R163, R164). -/
def awaitsSetup (s : State) : State :=
  { s with
    bd := { s.bd with ep0Out := armed s.bd.ep0Out 8 s.params.ep0OutBuf false false false }
    trnFifo := s.trnFifo.tail
    ip := trnCleared s }

/-- The end of an endpoint-0 event with `ctx.kind = OUT` (41_ep0_control_engine.md R163, R167, R168): EP0_OUT armed for data at the
current toggle, EP0_IN for an empty Status packet, the TRN condition cleared. -/
def awaitsOut (s : State) : State :=
  { s with
    bd := { s.bd with
            ep0Out := armed s.bd.ep0Out 8 s.params.ep0OutBuf false true s.ctx.nextToggle
            ep0In := armed s.bd.ep0In 0 s.params.ep0InBuf false true true }
    trnFifo := s.trnFifo.tail
    ip := trnCleared s }

/-- The report is copied to EP1_IN_BUF and armed on EP1_IN, and the toggle flips (43_ep1_report_engine.md R223). Nothing else changes but
`pending`, the queue and its cause as given. -/
def transmits (s t : State) (pending : Bool) (fifo : List TrnEntry) (ip : Causes) : Prop :=
  t.ramByte s.params.ep1InBuf = s.report.1 ∧ t.ramByte (s.params.ep1InBuf + 1) = s.report.2 ∧
  sameBytesExcept s t (fun a => inRun s.params.ep1InBuf 2 a ∨ inBd s.params .ep1In a) ∧
  t = { s with
        rpt := { pending := pending, nextToggle := !s.rpt.nextToggle }
        bd := { s.bd with ep1In := armed s.bd.ep1In 2 s.params.ep1InBuf false true s.rpt.nextToggle }
        trnFifo := fifo
        ip := ip
        ram := t.ram }

/-! ### Runs of events used by claims -/

/-- `n` steps of the machine in a row. -/
def runSteps : Nat → State → Result State
  | 0, s => .next s
  | n + 1, s => andThen (step s) (runSteps n)

/-- The host takes the armed endpoint-0 packet and acknowledges it, and the block handles the completion. -/
def readPacket (s : State) : Result State :=
  andThen (sieStep (.inDone s.dev.uaddr .ep0In) s) fun t => exec (.trnEp0In 0 0) t

/-- `n` packets in a row. -/
def readPackets : Nat → State → Result State
  | 0, s => .next s
  | n + 1, s => andThen (readPacket s) (readPackets n)

/-- A control read of `desc` by a host that asks for `asked` bytes and takes every packet: the SETUP event `i` and as many endpoint-0 IN
completions as it takes packets to end with a short one. Every packet is DATA1, DATA0, DATA1, ... with 8 bytes but for the last, and the
bytes returned (45_environment_agents.md R286) are the first `asked` bytes of `desc`. -/
def controlReadReturns (s : State) (i : Instr) (asked : Nat) (desc : List Byte) : Prop :=
  ∃ t u packets, exec i s = .next t ∧ readPackets (min desc.length asked / 8 + 1) t = .next u ∧ u.wire = s.wire ++ packets ∧
    returnedBytes packets = desc.take asked ∧ packets.length = min desc.length asked / 8 + 1 ∧
    ∀ k, k < packets.length →
      packets[k]? = some (.inData 0 (decide (k % 2 = 0)) ((desc.take asked).extract (8 * k) (8 * k + 8)))

/-- A call of the foreground (45_environment_agents.md R284). -/
inductive Call where
  | write (b0 b1 : Byte)
  | changed
  deriving DecidableEq, Repr

/-- The instruction of a call. -/
def Call.instr : Call → Instr
  | .write b0 b1 => .reportWrite 0 b0 b1
  | .changed => .reportChanged 0

/-- Calls of the foreground in a row. -/
def runCalls : List Call → State → Result State
  | [], s => .next s
  | c :: cs, s => andThen (exec c.instr s) (runCalls cs)

/-- The bytes of the last REPORT_WRITE of a list of calls, or the ones that stood before. -/
def lastWritten : List Call → Byte × Byte → Byte × Byte
  | [], r => r
  | .write b0 b1 :: cs, _ => lastWritten cs (b0, b1)
  | .changed :: cs, r => lastWritten cs r

end Sys2Proof.Machine
end

