-- ==== Sys2Proof/Certificates/Slice0/Obligations.lean ====
section
/-! DEFINITION. The statements. Each docstring names the rules it formalises and the decisions of 92_eei_decisions.md (D<n>) or the log
entries its values rest on. `armed`, `sendsPacket`, `beginsIn`, `beginsOut`, `stalls`, `transmits` and the invariants are defined in
Sys2Proof/Safety.lean. -/

open Sys2Proof Sys2Proof.Machine

/-! ### Reset -/

/-- MODULE_START, 70_reset_and_hazards.md R341, for every well-formed parameter set; the values are the spec's decision D13, `ie` D22.
`State.reset` is the one of `Params.standard` (logs 1, 2, 3). -/
def Obligations.ModuleStartValues : Prop :=
  State.reset = moduleStart Params.standard ∧ Params.standard.wf = true ∧
  ∀ p : Params, p.wf = true →
    (moduleStart p).ctx.kind = .none ∧ (moduleStart p).ctx.nextToggle = true ∧
    (moduleStart p).dev = { uaddr := 0, pendingAddr := 0 } ∧ (moduleStart p).configuration = 0 ∧
    (moduleStart p).report = (p.reportInit0, p.reportInit1) ∧ (moduleStart p).rpt = { pending := false, nextToggle := true } ∧
    (moduleStart p).bd.ep0Out =
      { own := .sie, stall := false, dtsen := false, dts := false, pid := 0, count := 8, addr := p.ep0OutBuf } ∧
    (moduleStart p).bd.ep0In =
      { own := .device, stall := false, dtsen := false, dts := false, pid := 0, count := 0, addr := p.ep0InBuf } ∧
    (moduleStart p).bd.ep1Out =
      { own := .device, stall := false, dtsen := false, dts := false, pid := 0, count := 0, addr := (moduleStart p).bd.ep1Out.addr } ∧
    (moduleStart p).bd.ep1In =
      { own := .device, stall := false, dtsen := false, dts := false, pid := 0, count := 0, addr := p.ep1InBuf } ∧
    (moduleStart p).pktdis = false ∧
    (moduleStart p).ip = { reset := false, trn := false, error := false, idle := false, actv := false, other := false } ∧
    (moduleStart p).ie = { reset := true, trn := true, error := true, idle := true, actv := false, other := false } ∧
    (moduleStart p).trnFifo = [] ∧ (moduleStart p).errFlags = 0 ∧ (moduleStart p).suspended = false ∧
    (moduleStart p).inHandler = false ∧ (moduleStart p).gie = true ∧ (moduleStart p).trace = [] ∧ (moduleStart p).wire = []

/-- The machine after module start, for every well-formed parameter set, meets every invariant. The premise that parameters are
well formed is 20_memory.md R67; the start values are decision D13 and logs 4 and 5. -/
def Obligations.ModuleStartMeetsTheInvariants : Prop :=
  (State.reset.ram.wf ∧ State.reset.queueOk ∧ State.reset.transferOk ∧ State.reset.powerOk ∧ State.reset.descriptorsOk) ∧
  ∀ p : Params, p.wf = true →
    (moduleStart p).ram.wf ∧ (moduleStart p).queueOk ∧ (moduleStart p).transferOk ∧ (moduleStart p).powerOk ∧
    (moduleStart p).descriptorsOk

/-! ### Encoding -/

/-- Words written out from 30_encoding.md R91 to R103 and the packets of 95_test_vectors.md. The code numbers are general knowledge
(00_scope.md R7, log 23). -/
def Obligations.WordsDecodeAsTheSpecWritesThem : Prop :=
  decodeEv 0x0000 0 0 = .ok (.busReset 0) ∧
  decodeEv 0x1068 0 0 = .ok (.trnEp0Setup 0) ∧
  decodeEv 0x1008 0 0 = .ok (.trnEp0Out 0x1 0) ∧
  decodeEv 0x1080 0 0 = .ok (.trnEp0In 0 0) ∧
  decodeEv 0x1180 0 0 = .ok (.trnEp1 1 0 0) ∧
  decodeEv 0x1200 0 0 = .ok (.trnOtherEp 0x2 0 0 0) ∧
  decodeEv 0x5000 0 0 = .ok (.otherCause 0) ∧
  decodeEv 0x8000 0x05 0x41 = .ok (.reportWrite 0 0x05 0x41) ∧
  decodeEv 0x6000 0 0 = .error (.reservedCause 0x6) ∧
  decode .sp [0x80, 0x06, 0x00, 0x01, 0x00, 0x00, 0x12, 0x00] = .ok (.getDescriptorDevice ⟨1, 0⟩ 0 0 18, []) ∧
  decode .sp [0x80, 0x06, 0x02, 0x03, 0x09, 0x04, 0xFF, 0x00] = .ok (.getDescriptorString ⟨1, 0⟩ 2 0x0409 255, []) ∧
  decode .sp [0x80, 0x06, 0x07, 0x03, 0x09, 0x04, 0xFF, 0x00] = .ok (.getDescriptorStringOutOfRange ⟨1, 0⟩ 7 0x0409 255, []) ∧
  decode .sp [0x00, 0x05, 0x05, 0x00, 0x00, 0x00, 0x00, 0x00] = .ok (.setAddress ⟨0, 0⟩ 5 0 0, []) ∧
  decode .sp [0xA1, 0x01, 0x00, 0x01, 0x00, 0x00, 0x02, 0x00] = .ok (.getReport ⟨1, 1⟩ 0x0100 0 2, []) ∧
  decode .sp [0x40, 0x00, 0x00, 0x00, 0x00, 0x00, 0x00, 0x00] = .ok (.nonstdRequestType ⟨0, 0⟩ 0 0 0 0 0, [])

/-- 30_encoding.md R110: the decoder gives a word the first row of opcode_table.json it matches, the rows of a format being in
priority order; the table has 12 rows of format EV and 14 of format SP, each of its own mnemonic. A word of format EV that matches no
row decodes to nothing; a word of format SP always matches one. -/
def Obligations.DecoderTakesTheFirstMatchingRow : Prop :=
  (∀ (w : Evw) (b0 b1 : Byte), (decodeEv w b0 b1).toOption.map Instr.mnemonic = evRowOf w) ∧
  (∀ w : Spw, spRowOf w = some (decodeSp w).mnemonic) ∧
  evTable.length = 12 ∧ spTable.length = 14 ∧ (evTable.map EvRow.mnemonic ++ spTable.map SpRow.mnemonic).Nodup

/-- Every well-formed instruction of either format, every operand at every value, decodes back from its bytes, whatever follows. -/
def Obligations.DecodingInvertsEncoding : Prop :=
  ∀ (i : Instr) (rest : List Byte), i.wf = true → decode i.format (encode i ++ rest) = .ok (i, rest)

/-- Every byte list that decodes is the encoding of a well-formed instruction of its format: no bit is dropped and no two words mean
the same instruction. -/
def Obligations.EncodingInvertsDecoding : Prop :=
  ∀ (f : Format) (bytes rest : List Byte) (i : Instr), decode f bytes = .ok (i, rest) →
    i.wf = true ∧ i.format = f ∧ encode i ++ rest = bytes

/-- 30_encoding.md R92, R106 (D3): exactly the words of CAUSE 0x6, 0x7, 0xA to 0xF are no event, and the machine refuses one by name. -/
def Obligations.ReservedCausesAreRefused : Prop :=
  ∀ (w : Evw) (b0 b1 : Byte),
    (decodeEv w b0 b1 = .error (.reservedCause (evCause w)) ↔
      evCause w ∈ [0x6, 0x7, 0xA, 0xB, 0xC, 0xD, 0xE, (0xF : BitVec 4)]) ∧
    ∀ (s : State) (rest : List Input), evCause w ∈ [0x6, 0x7, 0xA, 0xB, 0xC, 0xD, 0xE, (0xF : BitVec 4)] →
      s.inHandler = false → s.inputs = .event w b0 b1 :: rest → step s = .refused (.reservedCause (evCause w))

/-- 30_encoding.md R100 (D37): two SETUP words that agree on the type field, on `bRequest`, and, if they name a standard request that
reads parts of `wValue` and `wLength`, on those parts, act alike in every state, whatever their other bits. -/
def Obligations.UnreadSetupBitsDoNotMatter : Prop :=
  ∀ (v w : Spw) (s : State),
    spNonstd v = spNonstd w → spClass v = spClass w → spRequest v = spRequest w →
    ((spNonstd v = 0 ∧ spClass v = 0) ∨ (spNonstd v = 1 ∧ s.params.nonstdTypePolicy = .asStandard) →
      (spRequest v = 0x06 → descType (spValue v) = descType (spValue w) ∧ spLength v = spLength w ∧
        (descType (spValue v) = 0x03 → descIndex (spValue v) = descIndex (spValue w))) ∧
      (spRequest v = 0x05 → (spValue v).extractLsb' 0 7 = (spValue w).extractLsb' 0 7) ∧
      (spRequest v = 0x09 → (spValue v).extractLsb' 0 8 = (spValue w).extractLsb' 0 8)) →
    exec (decodeSp v) s = exec (decodeSp w) s

/-! ### Memory -/

/-- 00_scope.md R10 with 20_memory.md R67 and 60_exceptions.md R306: addresses are taken modulo `2 ^ PTR_W`; a read answers the bytes of
its addresses in order; a write outside the BD table stores them and changes no other byte and no other state; a copy is the write of
the read; an access of no bytes touches nothing; an access that leaves the regions faults at its first address outside. The BD table's
bytes are the view of log 13. -/
def Obligations.MemoryReadsWritesAndCopies : Prop :=
  ∀ s : State,
    (∀ sp a n, (∀ k, k < n → inSpace s.params sp ((a + k) % 2 ^ s.params.ptrW) = true) →
      memRead s sp a n = .next ((List.range n).map fun k => s.byteAt sp ((a + k) % 2 ^ s.params.ptrW))) ∧
    (∀ a v, v.length ≤ 2 ^ s.params.ptrW →
      (∀ k, k < v.length → inSpace s.params .ram ((a + k) % 2 ^ s.params.ptrW) = true ∧
        ¬ inRun s.params.bdtBase 16 ((a + k) % 2 ^ s.params.ptrW)) →
      ∃ t, memWrite s a v = .next t ∧ t = { s with ram := t.ram } ∧
        (∀ k, k < v.length → t.ramByte ((a + k) % 2 ^ s.params.ptrW) = v.getD k 0) ∧
        sameBytesExcept s t (fun x => ∃ k, k < v.length ∧ x = (a + k) % 2 ^ s.params.ptrW)) ∧
    (∀ sp a n k, k < n → inSpace s.params sp ((a + k) % 2 ^ s.params.ptrW) = false →
      (∀ j, j < k → inSpace s.params sp ((a + j) % 2 ^ s.params.ptrW) = true) →
      memRead s sp a n = .fault (.ptrRange sp ((a + k) % 2 ^ s.params.ptrW))) ∧
    (∀ a v k, k < v.length → inSpace s.params .ram ((a + k) % 2 ^ s.params.ptrW) = false →
      (∀ j, j < k → inSpace s.params .ram ((a + j) % 2 ^ s.params.ptrW) = true) →
      memWrite s a v = .fault (.ptrRange .ram ((a + k) % 2 ^ s.params.ptrW))) ∧
    (∀ sp src dst n v, memRead s sp src n = .next v → copy s sp src dst n = memWrite s dst v) ∧
    (∀ sp src dst n e, memRead s sp src n = .fault e → copy s sp src dst n = .fault e) ∧
    (∀ sp a, memRead s sp a 0 = .next [] ∧ memWrite s a [] = .next s)

/-! ### The descriptor repository -/

/-- 44_descriptor_repository.md R242 to R249: ROM holds the descriptors, each byte at its place, with the lengths 18, 34, 60 and STR_LEN.
The OPEN bytes are the parameters'. -/
def Obligations.RomHoldsTheDescriptors : Prop :=
  ∀ p : Params, p.wf = true →
    p.deviceDescriptor.length = 18 ∧ p.configDescriptor.length = 34 ∧ p.rpt.length = 60 ∧
    (∀ i, (p.string i).descriptor.length = (p.string i).len ∧ (p.string i).descriptor.getD 0 0 = BitVec.ofNat 8 (p.string i).len ∧
      (p.string i).descriptor.getD 1 0 = 0x03 ∧ ∀ k, (p.string i).descriptor.getD (k + 2) 0 = (p.string i).body.getD k 0) ∧
    (∀ k, k < 18 → p.romByte (p.romDevice + k) = p.deviceDescriptor.getD k 0) ∧
    (∀ k, k < 34 → p.romByte (p.romConfig + k) = p.configDescriptor.getD k 0) ∧
    (∀ k, k < 60 → p.romByte (p.romReport + k) = p.rpt.getD k 0) ∧
    (∀ i k, k < (p.string i).len → p.romByte ((p.string i).addr + k) = (p.string i).descriptor.getD k 0)

/-- 44_descriptor_repository.md R242 to R247 and R250: the bytes the source fixes. -/
def Obligations.DescriptorBytesTheSourceFixes : Prop :=
  ∀ p : Params,
    p.deviceDescriptor.take 4 = [0x12, 0x01, 0x00, 0x02] ∧ p.deviceDescriptor.getD 7 0 = 0x08 ∧
    p.deviceDescriptor.extract 8 14 =
      [p.device.vid.extractLsb' 0 8, p.device.vid.extractLsb' 8 8, p.device.pid.extractLsb' 0 8, p.device.pid.extractLsb' 8 8,
       p.device.rel.extractLsb' 0 8, p.device.rel.extractLsb' 8 8] ∧
    p.deviceDescriptor.getD 17 0 = 0x01 ∧
    p.configDescriptor.take 6 = [0x09, 0x02, 0x22, 0x00, 0x01, 0x01] ∧
    p.configDescriptor.extract 9 15 = [0x09, 0x04, 0x00, 0x00, 0x01, 0x03] ∧
    p.configDescriptor.extract 18 22 = [0x09, 0x21, 0x10, 0x01] ∧
    p.configDescriptor.extract 23 27 = [0x01, 0x22, 0x3C, 0x00] ∧
    p.configDescriptor.drop 27 = [0x07, 0x05, 0x81, 0x03, 0x08, 0x00, 0x0A]

/-! ### The Bus Event Dispatcher -/

/-- 40_bus_event_dispatcher.md R132, the whole next state and the bytes of RAM. Toggles: D8, D9; the pending address: D10; what is left
alone: D12; the status flags of the arm: D15. -/
def Obligations.BusResetEffect : Prop :=
  ∀ (low : BitVec 12) (s : State), s.params.wf = true →
    ∃ t, exec (.busReset low) s = .next t ∧ t.configuration = 0 ∧
      sameBytesExcept s t (fun a => a = s.params.addrConfig ∨ inBd s.params .ep0Out a) ∧
      t = { s with
            dev := { uaddr := 0, pendingAddr := 0 }
            rpt := { pending := false,
                     nextToggle := if s.params.busResetToggleScope = .rpt ∨ s.params.busResetToggleScope = .both then true
                                   else s.rpt.nextToggle }
            ctx := { s.ctx with
                     nextToggle := if s.params.busResetToggleScope = .ctx ∨ s.params.busResetToggleScope = .both then true
                                   else s.ctx.nextToggle }
            bd := { s.bd with ep0Out := armed s.bd.ep0Out 8 s.params.ep0OutBuf false false false }
            trace := s.trace ++ [s.params.traceResetChar]
            ip := { s.ip with reset := false }
            ram := t.ram }

/-- 70_reset_and_hazards.md R342: what a bus reset guarantees from any state, and the list of what it does not reset. -/
def Obligations.BusResetGuarantees : Prop :=
  ∀ (low : BitVec 12) (s : State), s.params.wf = true →
    ∃ t, exec (.busReset low) s = .next t ∧
      t.configuration = 0 ∧ t.dev.uaddr = 0 ∧
      (t.bd.ep0Out.own = .sie ∧ t.bd.ep0Out.count = 8 ∧ t.bd.ep0Out.stall = false ∧ t.bd.ep0Out.addr = s.params.ep0OutBuf) ∧
      t.rpt.pending = false ∧ t.dev.pendingAddr = 0 ∧
      (s.params.busResetToggleScope ≠ .ctx → t.rpt.nextToggle = true) ∧
      (s.params.busResetToggleScope = .ctx → t.rpt.nextToggle = s.rpt.nextToggle) ∧
      (s.params.busResetToggleScope ≠ .rpt → t.ctx.nextToggle = true) ∧
      (s.params.busResetToggleScope = .rpt → t.ctx.nextToggle = s.ctx.nextToggle) ∧
      t.trace = s.trace ++ [s.params.traceResetChar] ∧
      t.ctx.kind = s.ctx.kind ∧ t.ctx.mclass = s.ctx.mclass ∧ t.ctx.data = s.ctx.data ∧ t.ctx.remaining = s.ctx.remaining ∧
      t.bd.ep0In = s.bd.ep0In ∧ t.bd.ep1Out = s.bd.ep1Out ∧ t.bd.ep1In = s.bd.ep1In ∧ t.report = s.report ∧
      t.pktdis = s.pktdis ∧ t.ie = s.ie ∧ t.suspended = s.suspended

/-- 40_bus_event_dispatcher.md R134 to R138, the whole next states (`ie` and the wait: D22, log 25; the clear of TRN: D30). IDLE's wait
is the place `wake` of the invocation. -/
def Obligations.RegisterEvents : Prop :=
  ∀ s : State,
    (∀ endp dir pid zero, exec (.trnOtherEp endp dir pid zero) s = .next { s with trnFifo := s.trnFifo.tail, ip := trnCleared s }) ∧
    (∀ low, exec (.busError low) s = .next { s with errFlags := 0, ip := { s.ip with error := false } }) ∧
    (∀ low, exec (.idle low) s = .next { s with
      suspended := true
      ie := { reset := false, trn := false, error := false, idle := false, actv := true, other := false }
      ip := { s.ip with idle := false }
      phase := .wake }) ∧
    (∀ low, exec (.activity low) s = .next { s with
      suspended := false
      ie := { reset := true, trn := true, error := true, idle := true, actv := false, other := false }
      ip := { s.ip with actv := false } }) ∧
    (∀ low, exec (.otherCause low) s = .next { s with ip := { s.ip with other := false } })

/-! ### The step -/

/-- The step runs the decoded event (40_bus_event_dispatcher.md R130, R131, R139; 30_encoding.md R94; 60_exceptions.md R312, R313; the
order D2; logs 7 and 8). Inside an invocation that does not sleep: the event formed from the interface registers for the cause selected
at the invocation's place; with the drain the handler returns. Outside, with nothing offered and the interrupt taken: the first event
of a new invocation, `in_handler <- 1`. A foreground call at the head of the inputs, enabled and with no interrupt to take first: the
call itself. A handler event at the head of the inputs that says what the interface registers say: the same event. -/
def Obligations.StepRunsTheDecodedEvent : Prop :=
  ∀ (s : State) (w : Evw) (i : Instr),
    (s.inHandler = true → asleep s = false → formEvw s (select s s.phase) = some w → decodeEv w 0 0 = .ok i →
      step s = andThen (exec i { s with phase := phaseAfter (select s s.phase) }) fun t =>
        .next (if select s s.phase = .other then { t with inHandler := false, phase := .reset } else t)) ∧
    (s.inHandler = false → s.inputs = [] → interruptTaken s = true → formEvw s (select s .reset) = some w →
      decodeEv w 0 0 = .ok i →
      step s = andThen (exec i { s with inHandler := true, phase := phaseAfter (select s .reset) }) fun t =>
        .next (if select s .reset = .other then { t with inHandler := false, phase := .reset } else t)) ∧
    (∀ b0 b1 rest, s.inHandler = false → s.suspended = false → interruptTaken s = false →
      s.inputs = .event w b0 b1 :: rest → decodeEv w b0 b1 = .ok i → i.mnemonic.isForeground = true →
      step s = exec i { s with inputs := rest }) ∧
    (∀ v b0 b1 rest, s.inHandler = false → interruptTaken s = true → s.inputs = .event w b0 b1 :: rest →
      decodeEv w 0 0 = .ok i → i.mnemonic.isForeground = false → formEvw s (select s .reset) = some v →
      evwMeaning w = evwMeaning v →
      step s = andThen (exec i { s with inHandler := true, phase := phaseAfter (select s .reset), inputs := rest }) fun t =>
        .next (if select s .reset = .other then { t with inHandler := false, phase := .reset } else t))

/-- 60_exceptions.md R307 with 45_environment_agents.md R271 and 40_bus_event_dispatcher.md R130, R131 (the model's names for it: logs 9
and 25): an offered handler event that is not the one the interface registers form, or that comes with no interrupt taken, or into
IDLE's sleep, is refused; so is a foreground call into the sleep or with the processor suspended. -/
def Obligations.EventsNotEnabledAreRefused : Prop :=
  ∀ (s : State) (w : Evw) (b0 b1 : Byte) (rest : List Input) (i : Instr),
    s.inputs = .event w b0 b1 :: rest → decodeEv w b0 b1 = .ok i →
    (∀ v, s.inHandler = false → interruptTaken s = true → i.mnemonic.isForeground = false →
      formEvw s (select s .reset) = some v → evwMeaning w ≠ evwMeaning v → step s = .refused .handlerEventNotEnabled) ∧
    (s.inHandler = false → interruptTaken s = false → i.mnemonic.isForeground = false →
      step s = .refused .handlerEventNotEnabled) ∧
    (asleep s = true → step s = .refused (if i.mnemonic.isForeground then .foregroundNotEnabled else .handlerEventNotEnabled)) ∧
    (s.inHandler = false → s.suspended = true → i.mnemonic.isForeground = true → step s = .refused .foregroundNotEnabled)

/-- Outside the handler and inside IDLE's sleep a step of the SIE at the head of the inputs is taken (45_environment_agents.md R271, D1,
log 8); with nothing offered and no interrupt taken the machine waits; a foreground call gives way to an interrupt that is taken and
stays offered (45_environment_agents.md R271). -/
def Obligations.OtherStepsBetweenEvents : Prop :=
  ∀ s : State,
    (∀ a rest, s.inHandler = false ∨ asleep s = true → s.inputs = .sie a :: rest →
      step s = sieStep a { s with inputs := rest }) ∧
    (s.inHandler = false → s.inputs = [] → interruptTaken s = false → step s = .next s) ∧
    (∀ w b0 b1 rest i v j, s.inHandler = false → s.suspended = false → interruptTaken s = true →
      s.inputs = .event w b0 b1 :: rest → decodeEv w b0 b1 = .ok i → i.mnemonic.isForeground = true →
      formEvw s (select s .reset) = some v → decodeEv v 0 0 = .ok j →
      step s = andThen (exec j { s with inHandler := true, phase := phaseAfter (select s .reset) }) fun t =>
        .next (if select s .reset = .other then { t with inHandler := false, phase := .reset } else t))

/-- 40_bus_event_dispatcher.md R131 (D2, log 7): from each place of an invocation the cause acted on is the first of those not yet examined
that is pending and enabled, and the drain when there is none. -/
def Obligations.CausesAreTakenInOrder : Prop :=
  ∀ s : State,
    select s .reset = ([.reset, .trn, .error, .idle, .actv].find? (pendingEnabled s)).getD .other ∧
    select s .trn = ([.trn, .error, .idle, .actv].find? (pendingEnabled s)).getD .other ∧
    select s .error = ([.error, .idle, .actv].find? (pendingEnabled s)).getD .other ∧
    select s .idle = ([.idle, .actv].find? (pendingEnabled s)).getD .other ∧
    select s .wake = ([.actv].find? (pendingEnabled s)).getD .other ∧
    select s .actv = ([.actv].find? (pendingEnabled s)).getD .other ∧
    select s .drain = .other ∧
    (∀ c d, phaseAfter c = d ↔
      (c, d) ∈ [(.reset, .trn), (.trn, .error), (.error, .idle), (.idle, .actv), (.actv, .drain), (.other, Phase.drain)])

/-- 45_environment_agents.md R287: a handler invocation terminates, except IDLE's wait: from any state inside the handler, at most six
events later the handler has returned or sleeps in IDLE's wait, or the model has stopped for a reason of 60_exceptions.md R305 to
R307. -/
def Obligations.HandlerInvocationEnds : Prop :=
  ∀ s : State, s.inHandler = true →
    ∃ n, n ≤ 6 ∧ ∃ t, runSteps n s = .next t ∧
      (t.inHandler = false ∨ asleep t = true ∨ (∃ e, step t = .fault e) ∨ (∃ e, step t = .refused e))

/-- 40_bus_event_dispatcher.md R136, 60_exceptions.md R319 (D23, log 25): while the handler sleeps, with nothing offered the machine
waits, a foreground call is refused, and no step but one of the SIE that raises `ip.ACTV` ends the sleep; once `ip.ACTV` is 1 the next
step is ACTIVITY. -/
def Obligations.SleepEndsOnlyByActivity : Prop :=
  (∀ s : State, asleep s = true → s.inputs = [] → step s = .next s) ∧
  (∀ (s : State) (w : Evw) (b0 b1 : Byte) (rest : List Input), asleep s = true → s.inputs = .event w b0 b1 :: rest →
    evCause w = 0x8 ∨ evCause w = 0x9 → step s = .refused .foregroundNotEnabled) ∧
  (∀ s t : State, asleep s = true → step s = .next t → asleep t = true ∨
    ∃ a rest, s.inputs = .sie a :: rest ∧ (a = .activityDetected ∨ a = .hostBusReset) ∧ t.ip.actv = true) ∧
  (∀ s : State, s.inHandler = true → s.phase = .wake → s.ie = suspendIe → s.ip.actv = true →
    step s = .next { s with suspended := false, ie := fullIe, ip := { s.ip with actv := false }, phase := .drain })

/-! ### The Endpoint-0 Control Engine: SETUP and the requests -/

/-- 41_ep0_control_engine.md R160 and 42_ep0_requests.md R190: TRN_EP0_SETUP acts as the request whose packet stands in EP0_OUT_BUF, byte
`k` of the buffer being bits `8k+7:8k` (30_encoding.md R96, D5); and the dispatch is on the type bits, `bRequest` and, for
GET_DESCRIPTOR, the high byte of `wValue`. -/
def Obligations.SetupRunsTheRequestInTheBuffer : Prop :=
  (∀ (zero : BitVec 3) (s : State), s.params.wf = true → exec (.trnEp0Setup zero) s = exec (decodeSp s.setupWord) s) ∧
  (∀ (s : State) (k : Nat), k < 8 → s.setupWord.extractLsb' (8 * k) 8 = s.ramByte (s.params.ep0OutBuf + k)) ∧
  (∀ w : Spw,
    (w.getLsbD 6 = true ↔ (decodeSp w).mnemonic = .nonstdRequestType) ∧
    (w.getLsbD 6 = false → w.getLsbD 5 = false →
      (decodeSp w).mnemonic =
        (if w.extractLsb' 8 8 = 0x06 then
           if w.extractLsb' 24 8 = 0x01 then .getDescriptorDevice
           else if w.extractLsb' 24 8 = 0x02 then .getDescriptorConfiguration
           else if w.extractLsb' 24 8 = 0x22 then .getDescriptorReport
           else if w.extractLsb' 24 8 = 0x03 then
             if (w.extractLsb' 16 8).toNat < 4 then .getDescriptorString else .getDescriptorStringOutOfRange
           else .getDescriptorUnknown
         else if w.extractLsb' 8 8 = 0x05 then .setAddress
         else if w.extractLsb' 8 8 = 0x09 then .setConfiguration
         else if w.extractLsb' 8 8 = 0x08 then .getConfiguration
         else .unsupportedStandard)) ∧
    (w.getLsbD 6 = false → w.getLsbD 5 = true →
      (decodeSp w).mnemonic =
        (if w.extractLsb' 8 8 = 0x01 then .getReport
         else if w.extractLsb' 8 8 = 0x0A then .setIdle
         else .unsupportedClass)))

/-- 41_ep0_control_engine.md R160, R170 (D8, D15, D16): every SETUP event of a request the policy of 42_ep0_requests.md R204 does not
refuse completes, from any earlier transfer; it clears `pktdis`, sets the toggle, never ends with kind NONE but by a stall, arms both
endpoint-0 descriptors as its kind says, and leaves the address register, the report path and the interrupt state but TRN alone. -/
def Obligations.EverySetupCompletes : Prop :=
  ∀ (i : Instr) (s : State), s.params.wf = true → i.mnemonic.isSetup = true →
    (s.params.nonstdTypePolicy = .refuse →
      i.mnemonic ≠ .nonstdRequestType ∧ (i.mnemonic = .trnEp0Setup → spNonstd s.setupWord = 0)) →
    ∃ t, exec i s = .next t ∧ t.pktdis = false ∧ t.ctx.nextToggle = true ∧ t.trnFifo = s.trnFifo.tail ∧ t.ip = trnCleared s ∧
      t.dev.uaddr = s.dev.uaddr ∧ t.rpt = s.rpt ∧ t.report = s.report ∧ t.bd.ep1Out = s.bd.ep1Out ∧ t.bd.ep1In = s.bd.ep1In ∧
      t.ie = s.ie ∧ t.errFlags = s.errFlags ∧ t.suspended = s.suspended ∧ t.gie = s.gie ∧ t.inHandler = s.inHandler ∧
      t.wire = s.wire ∧
      ((t.ctx.kind = .ctlIn ∧ t.bd.ep0Out = armed s.bd.ep0Out 8 s.params.ep0OutBuf false true true ∧
          ∃ n, n ≤ 8 ∧ t.bd.ep0In = armed s.bd.ep0In (BitVec.ofNat 8 n) s.params.ep0InBuf false true true) ∨
       (t.ctx.kind = .ctlOut ∧ t.bd.ep0Out = armed s.bd.ep0Out 8 s.params.ep0OutBuf false true true ∧
          t.bd.ep0In = armed s.bd.ep0In 0 s.params.ep0InBuf false true true) ∨
       (t.ctx.kind = .none ∧ t.bd.ep0Out = armed s.bd.ep0Out 8 s.params.ep0OutBuf true false false ∧
          t.bd.ep0In = armed s.bd.ep0In 0 s.params.ep0InBuf true false false))

/-- 10_state.md R26 i, 20_memory.md R68 d: a SETUP invalidates any transfer state of an earlier control transfer: from two states that
differ in the transfer context and in `pktdis` only, a SETUP event stops alike or ends in states that differ in fields of the context
that the new kind does not read only. -/
def Obligations.SetupIgnoresTheEarlierTransfer : Prop :=
  ∀ (i : Instr) (s : State) (c : Ctx) (d : Bool), s.params.wf = true → i.mnemonic.isSetup = true →
    (∃ e, exec i s = .refused e ∧ exec i { s with ctx := c, pktdis := d } = .refused e) ∨
    ∃ t u, exec i s = .next t ∧ exec i { s with ctx := c, pktdis := d } = .next u ∧ u = { t with ctx := u.ctx } ∧
      u.ctx.kind = t.ctx.kind ∧ u.ctx.nextToggle = t.ctx.nextToggle ∧
      (t.ctx.kind ≠ .none → u.ctx.data = t.ctx.data ∧ u.ctx.remaining = t.ctx.remaining) ∧
      (t.ctx.kind = .ctlIn → u.ctx.mclass = t.ctx.mclass)

/-- 42_ep0_requests.md R191, R192, R193 as whole SETUP events: the next state, the packet's bytes and every other byte of RAM. What the
event around the request adds rests on D8, D15; the index and `wIndex` are ignored. -/
def Obligations.GetDescriptorDelivers : Prop :=
  ∀ (s : State) (attr : ReqAttr) (index : Byte) (x l : BitVec 16), s.params.wf = true →
    (∃ t, exec (.getDescriptorDevice attr index x l) s = .next t ∧ beginsIn s t .rom s.params.romDevice (min 18 l.toNat)) ∧
    (∃ t, exec (.getDescriptorConfiguration attr index x l) s = .next t ∧
      beginsIn s t .rom s.params.romConfig (min 34 l.toNat)) ∧
    (∃ t, exec (.getDescriptorReport attr index x l) s = .next t ∧ beginsIn s t .rom s.params.romReport (min 60 l.toNat))

/-- 42_ep0_requests.md R194: a string index below 4 delivers its string clamped to `wLength`; one of 4 or more is answered with an empty
data stage and no stall, from no source (D18). -/
def Obligations.StringDescriptors : Prop :=
  ∀ (s : State) (attr : ReqAttr) (x l : BitVec 16), s.params.wf = true →
    (∀ index : BitVec 2, ∃ t, exec (.getDescriptorString attr index x l) s = .next t ∧
      beginsIn s t .rom (s.params.string index).addr (min (s.params.string index).len l.toNat)) ∧
    (∀ index : Byte, 4 ≤ index.toNat →
      exec (.getDescriptorStringOutOfRange attr index x l) s = .next (answersNothing s) ∧
      sameBytesExcept s (answersNothing s) (fun a => inBd s.params .ep0Out a ∨ inBd s.params .ep0In a))

/-- 42_ep0_requests.md R195 (D17): an unknown descriptor type stalls, but for the HID type under HID_DESC_GETTABLE. -/
def Obligations.UnknownDescriptorTypes : Prop :=
  ∀ (s : State) (attr : ReqAttr) (type index : Byte) (x l : BitVec 16), s.params.wf = true →
    (type = 0x21 → s.params.hidDescGettable = true →
      ∃ t, exec (.getDescriptorUnknown attr type index x l) s = .next t ∧
        beginsIn s t .rom (s.params.romConfig + 18) (min 9 l.toNat)) ∧
    (type ≠ 0x01 → type ≠ 0x02 → type ≠ 0x22 → type ≠ 0x03 → (type ≠ 0x21 ∨ s.params.hidDescGettable = false) →
      exec (.getDescriptorUnknown attr type index x l) s = .next (stalls s))

/-- 42_ep0_requests.md R196, R197, R200: the requests that begin a zero-length OUT context (D20, D15, D8), with what each stores: the
low 7 bits of `wValue` as the pending address and not as the address, the low byte as the configuration (D11), nothing. -/
def Obligations.ZeroLengthRequests : Prop :=
  ∀ (s : State) (attr : ReqAttr) (v x l : BitVec 16), s.params.wf = true →
    exec (.setAddress attr v x l) s =
      .next { beginsOut s with dev := { uaddr := s.dev.uaddr, pendingAddr := v.extractLsb' 0 7 } } ∧
    (∃ t, exec (.setConfiguration attr v x l) s = .next t ∧ t.configuration = v.extractLsb' 0 8 ∧
      t = { beginsOut s with ram := t.ram } ∧
      sameBytesExcept s t (fun a => a = s.params.addrConfig ∨ inBd s.params .ep0Out a ∨ inBd s.params .ep0In a)) ∧
    exec (.setIdle attr v x l) s = .next (beginsOut s) ∧
    sameBytesExcept s (beginsOut s) (fun a => inBd s.params .ep0Out a ∨ inBd s.params .ep0In a)

/-- 42_ep0_requests.md R198, R199: one byte of the configuration, two bytes of the report, whatever `wLength` says (D19), sampled by
the SETUP event itself (20_memory.md R74). -/
def Obligations.ConfigurationAndReportAreRead : Prop :=
  ∀ (s : State) (attr : ReqAttr) (v x l : BitVec 16), s.params.wf = true →
    (∃ t, exec (.getConfiguration attr v x l) s = .next t ∧ beginsIn s t .ram s.params.addrConfig 1 ∧
      t.ramByte s.params.ep0InBuf = s.configuration) ∧
    (∃ t, exec (.getReport attr v x l) s = .next t ∧ beginsIn s t .ram s.params.addrReport 2 ∧
      t.ramByte s.params.ep0InBuf = s.report.1 ∧ t.ramByte (s.params.ep0InBuf + 1) = s.report.2)

/-- 42_ep0_requests.md R201, R202 with 60_exceptions.md R301: the unsupported requests stall both directions of endpoint 0 and do
nothing else; the stall arm's other fields are D15, the skipped epilogue D16. -/
def Obligations.UnsupportedRequestsStall : Prop :=
  ∀ (s : State) (attr : ReqAttr) (b : Byte) (v x l : BitVec 16),
    exec (.unsupportedStandard attr b v x l) s = .next (stalls s) ∧
    exec (.unsupportedClass attr b v x l) s = .next (stalls s) ∧
    (stalls s).bd.ep0Out.statusByte = 0x84 ∧ (stalls s).bd.ep0In.statusByte = 0x84 ∧
    sameBytesExcept s (stalls s) (fun a => inBd s.params .ep0Out a ∨ inBd s.params .ep0In a)

/-- 42_ep0_requests.md R204 (D7): a request of type vendor or reserved is refused by name under REFUSE, stalls under STALL, and acts as
the standard request of the same fields under AS_STANDARD. -/
def Obligations.NonstandardTypesFollowThePolicy : Prop :=
  ∀ (s : State) (attr : ReqAttr) (c : BitVec 1) (b : Byte) (v x l : BitVec 16), s.params.wf = true →
    (s.params.nonstdTypePolicy = .refuse → exec (.nonstdRequestType attr c b v x l) s = .refused .nonstandardRequestType) ∧
    (s.params.nonstdTypePolicy = .stall → exec (.nonstdRequestType attr c b v x l) s = .next (stalls s)) ∧
    (s.params.nonstdTypePolicy = .asStandard →
      exec (.nonstdRequestType attr c b v x l) s = exec (decodeSp (spw attr 0 0 b v x l)) s ∧
      ∃ t, exec (.nonstdRequestType attr c b v x l) s = .next t ∧ t.pktdis = false ∧ t.dev.uaddr = s.dev.uaddr)

/-! ### The Endpoint-0 Control Engine: IN, OUT, the epilogue -/

/-- 41_ep0_control_engine.md R165: ARM_IN_DATA sends `min(ctx.remaining, 8)` bytes of the source; the rest of the buffer keeps its
content; with nothing remaining it arms a zero-length packet and keeps `ctx.remaining` and `ctx.data`, dereferencing nothing. -/
def Obligations.ArmInDataSendsTheNextPacket : Prop :=
  ∀ s : State, s.params.wf = true →
    (∀ a, s.ctx.data = .at a → 0 < s.ctx.remaining.toNat →
      insideRegion s.params s.ctx.mclass a (min s.ctx.remaining.toNat 8) →
      ∃ t, armInData s = .next t ∧
        (∀ k, k < min s.ctx.remaining.toNat 8 → t.ramByte (s.params.ep0InBuf + k) = s.byteAt s.ctx.mclass (a + k)) ∧
        (∀ k, min s.ctx.remaining.toNat 8 ≤ k → k < 8 → t.ramByte (s.params.ep0InBuf + k) = s.ramByte (s.params.ep0InBuf + k)) ∧
        sameBytesExcept s t (fun x => inRun s.params.ep0InBuf (min s.ctx.remaining.toNat 8) x ∨ inBd s.params .ep0In x) ∧
        t.ctx.remaining.toNat = s.ctx.remaining.toNat - min s.ctx.remaining.toNat 8 ∧
        t.bd.ep0In.statusByte = (if s.ctx.nextToggle then 0xC8 else 0x88) ∧
        t = { s with
              ctx := { s.ctx with data := .at ((a + min s.ctx.remaining.toNat 8) % 2 ^ s.params.ptrW)
                                  remaining := t.ctx.remaining }
              bd := { s.bd with ep0In := armed s.bd.ep0In (BitVec.ofNat 8 (min s.ctx.remaining.toNat 8)) s.params.ep0InBuf false
                                           true s.ctx.nextToggle }
              ram := t.ram }) ∧
    (s.ctx.remaining = 0 → (∀ a, s.ctx.data = .at a → a < 2 ^ s.params.ptrW) →
      armInData s = .next { s with
        bd := { s.bd with ep0In := armed s.bd.ep0In 0 s.params.ep0InBuf false true s.ctx.nextToggle } })

/-- 41_ep0_control_engine.md R162 with the epilogue R163 (counts and toggles D8, D15), by the kind of the transfer: IN, the toggle flips
and the next packet is armed, an empty one when nothing remains; OUT, the transfer ends and a pending address is committed; NONE, only
the epilogue. The premise is 10_state.md R26 iii. -/
def Obligations.TrnEp0InByKind : Prop :=
  ∀ (pid : BitVec 4) (zero : BitVec 3) (s : State),
    (s.params.wf = true → s.transferOk → s.ctx.kind = .ctlIn → 0 < s.ctx.remaining.toNat →
      ∃ a t, s.ctx.data = .at a ∧ exec (.trnEp0In pid zero) s = .next t ∧
        sendsPacket s t s.pktdis s.ctx.mclass a (min s.ctx.remaining.toNat 8)
          (s.ctx.remaining.toNat - min s.ctx.remaining.toNat 8) (!s.ctx.nextToggle)) ∧
    (s.transferOk → s.ctx.kind = .ctlIn → s.ctx.remaining = 0 →
      exec (.trnEp0In pid zero) s = .next { s with
        ctx := { s.ctx with nextToggle := !s.ctx.nextToggle }
        bd := { s.bd with
                ep0Out := armed s.bd.ep0Out 8 s.params.ep0OutBuf false true true
                ep0In := armed s.bd.ep0In 0 s.params.ep0InBuf false true (!s.ctx.nextToggle) }
        trnFifo := s.trnFifo.tail
        ip := trnCleared s }) ∧
    (s.ctx.kind = .ctlOut →
      exec (.trnEp0In pid zero) s = .next { awaitsSetup s with
        ctx := { s.ctx with kind := .none }
        dev := if s.dev.pendingAddr ≠ 0 then { uaddr := s.dev.pendingAddr, pendingAddr := 0 } else s.dev }) ∧
    (s.ctx.kind = .none → exec (.trnEp0In pid zero) s = .next (awaitsSetup s)) ∧
    sameBytesExcept s (awaitsSetup s) (fun a => inBd s.params .ep0Out a)

/-- 41_ep0_control_engine.md R161 with the epilogue R163 (D8, D15), by the kind of the transfer: IN, any OUT ends it; NONE, only the
epilogue; OUT, an empty packet flips the toggle, and where the sink is specified the received bytes go there and the pointer moves on. -/
def Obligations.TrnEp0OutByKind : Prop :=
  ∀ (pid : BitVec 4) (zero : BitVec 3) (s : State),
    (s.ctx.kind = .ctlIn → exec (.trnEp0Out pid zero) s = .next { awaitsSetup s with ctx := { s.ctx with kind := .none } }) ∧
    (s.ctx.kind = .none → exec (.trnEp0Out pid zero) s = .next (awaitsSetup s)) ∧
    (s.ctx.kind = .ctlOut → s.ctx.data = .unspecified → s.bd.ep0Out.count = 0 →
      exec (.trnEp0Out pid zero) s = .next (awaitsOut { s with ctx := { s.ctx with nextToggle := !s.ctx.nextToggle } })) ∧
    (∀ a, s.params.wf = true → s.ctx.kind = .ctlOut → s.ctx.data = .at a → s.bd.ep0Out.count.toNat ≤ 8 →
      insideRegion s.params .ram a s.bd.ep0Out.count.toNat →
      (a + s.bd.ep0Out.count.toNat ≤ s.params.bdtBase ∨ s.params.bdtBase + 16 ≤ a) →
      ∃ t, exec (.trnEp0Out pid zero) s = .next t ∧
        (∀ k, k < s.bd.ep0Out.count.toNat → t.ramByte (a + k) = s.ramByte (s.params.ep0OutBuf + k)) ∧
        sameBytesExcept s t (fun x => inRun a s.bd.ep0Out.count.toNat x ∨ inBd s.params .ep0Out x ∨ inBd s.params .ep0In x) ∧
        t = { awaitsOut { s with
                ctx := { s.ctx with data := .at ((a + s.bd.ep0Out.count.toNat) % 2 ^ s.params.ptrW)
                                    nextToggle := !s.ctx.nextToggle } } with ram := t.ram })

/-- 60_exceptions.md R305 (D20): OUT data of an OUT-kind transfer without a sink stops the model, naming the received count. -/
def Obligations.OutDataWithoutASinkStops : Prop :=
  ∀ (pid : BitVec 4) (zero : BitVec 3) (s : State), s.ctx.kind = .ctlOut → s.ctx.data = .unspecified → s.bd.ep0Out.count ≠ 0 →
    exec (.trnEp0Out pid zero) s = .fault (.unspecifiedSink s.bd.ep0Out.count.toNat)

/-- 45_environment_agents.md R274 (D29; the count is D15): every endpoint-0 event, and a bus reset, ends with EP0_OUT SIE-owned for 8 bytes
of EP0_OUT_BUF (41_ep0_control_engine.md R163; 40_bus_event_dispatcher.md R132). A SETUP is then taken wherever the rest of its guard
holds (R277, R283; the queue's room: log 16), which these events do not grant in full: not suspended, `pktdis = 0`, room in the queue. -/
def Obligations.Ep0EventsHandOverEp0Out : Prop :=
  ∀ (i : Instr) (s t : State), s.params.wf = true → i.mnemonic.isEp0 = true ∨ i.mnemonic = .busReset →
    exec i s = .next t →
    t.bd.ep0Out.own = .sie ∧ t.bd.ep0Out.count = 8 ∧ t.bd.ep0Out.addr = s.params.ep0OutBuf ∧
    (t.suspended = false → t.pktdis = false → t.trnFifo.length < t.params.trnFifoDepth →
      ∀ packet, ∃ u, sieStep (.setupToken t.dev.uaddr packet) t = .next u ∧ u.setupWord = packet)

/-! ### The Endpoint-1 Report Engine -/

/-- 43_ep1_report_engine.md R220 (one step: D28): both bytes are written and nothing else changes. -/
def Obligations.ReportWriteStoresBothBytes : Prop :=
  ∀ (low : BitVec 12) (b0 b1 : Byte) (s : State), s.params.wf = true →
    ∃ t, exec (.reportWrite low b0 b1) s = .next t ∧ t.report = (b0, b1) ∧
      sameBytesExcept s t (inRun s.params.addrReport 2) ∧ t = { s with ram := t.ram }

/-- 43_ep1_report_engine.md R221, R223 (toggle enabling D15, `gie` restored D39): with EP1_IN device-owned the report is copied, armed and
the toggle flips; with it SIE-owned only `rpt.pending` is set. -/
def Obligations.ReportChangedTransmitsOrWaits : Prop :=
  ∀ (low : BitVec 12) (s : State), s.params.wf = true →
    (s.bd.ep1In.own = .device →
      ∃ t, exec (.reportChanged low) s = .next t ∧ transmits s t s.rpt.pending s.trnFifo s.ip ∧
        t.bd.ep1In.statusByte = (if s.rpt.nextToggle then 0xC8 else 0x88)) ∧
    (s.bd.ep1In.own = .sie →
      exec (.reportChanged low) s = .next { s with rpt := { pending := true, nextToggle := s.rpt.nextToggle } })

/-- 43_ep1_report_engine.md R224 (no ownership test: D24): a pending report is transmitted with the bytes of now and the flag cleared;
else nothing but the TRN condition (D30) changes. -/
def Obligations.TrnEp1TransmitsAPendingReport : Prop :=
  ∀ (dir : BitVec 1) (pid : BitVec 4) (zero : BitVec 3) (s : State), s.params.wf = true →
    (s.rpt.pending = true →
      ∃ t, exec (.trnEp1 dir pid zero) s = .next t ∧ transmits s t false s.trnFifo.tail (trnCleared s)) ∧
    (s.rpt.pending = false →
      exec (.trnEp1 dir pid zero) s = .next { s with trnFifo := s.trnFifo.tail, ip := trnCleared s })

/-- 43_ep1_report_engine.md R225 ii (a consequence the spec derives): while EP1_IN is SIE-owned, any calls of the foreground with at
least one REPORT_CHANGED leave the armed packet and its bytes alone; when the host takes it, exactly one further packet is armed, with
the bytes of the last REPORT_WRITE; when the host takes that one, nothing more is armed. -/
def Obligations.ChangesInFlightCoalesce : Prop :=
  ∀ (s : State) (calls : List Call), s.params.wf = true → s.descriptorsOk → s.bd.ep1In.own = .sie → s.suspended = false →
    s.trnFifo.length < s.params.trnFifoDepth → Call.changed ∈ calls →
    ∃ a b c d e,
      runCalls calls s = .next a ∧ a.bd = s.bd ∧ (∀ k, k < 8 → a.ramByte (s.params.ep1InBuf + k) = s.ramByte (s.params.ep1InBuf + k)) ∧
      sieStep (.inDone s.dev.uaddr .ep1In) a = .next b ∧
      exec (.trnEp1 1 0 0) b = .next c ∧ c.bd.ep1In.own = .sie ∧ c.bd.ep1In.count = 2 ∧ c.bd.ep1In.dts = s.rpt.nextToggle ∧
      (c.ramByte s.params.ep1InBuf, c.ramByte (s.params.ep1InBuf + 1)) = lastWritten calls s.report ∧
      sieStep (.inDone s.dev.uaddr .ep1In) c = .next d ∧
      exec (.trnEp1 1 0 0) d = .next e ∧ e.bd.ep1In.own = .device ∧ e.rpt.pending = false

/-! ### The SIE (45_environment_agents.md, the spec's construction D29) -/

/-- 45_environment_agents.md R277 (D29): a SETUP addressed to the block is accepted whatever EP0_OUT's stall flag and toggle say; with
EP0_OUT device-owned, `pktdis` set or the queue full the step is not enabled. -/
def Obligations.SetupTokenStep : Prop :=
  ∀ (s : State) (packet : Spw), s.params.wf = true → s.suspended = false →
    (s.bd.ep0Out.own = .sie → s.pktdis = false → s.trnFifo.length < s.params.trnFifoDepth →
      ∃ t, sieStep (.setupToken s.dev.uaddr packet) s = .next t ∧ t.setupWord = packet ∧
        sameBytesExcept s t (fun a => inRun s.params.ep0OutBuf 8 a ∨ inBd s.params .ep0Out a) ∧
        t = { s with
              bd := { s.bd with ep0Out := { s.bd.ep0Out with count := 8, pid := 0xD, dts := false, own := .device } }
              pktdis := true
              trnFifo := s.trnFifo ++ [{ endp := 0, dir := 0 }]
              ip := { s.ip with trn := true }
              wire := s.wire ++ [.setup packet]
              ram := t.ram }) ∧
    (s.bd.ep0Out.own = .device ∨ s.pktdis = true ∨ s.params.trnFifoDepth ≤ s.trnFifo.length →
      sieStep (.setupToken s.dev.uaddr packet) s = .refused .sieGuardFalse)

/-- 45_environment_agents.md R278 (D29; an unaccepted toggle leaves no wire record: log 15): an OUT packet within the guard is stored and
handed back; with the wrong toggle it is acknowledged and changes nothing; outside the guard the step is not enabled. The queue's room is
not in R278's guard: that a full queue leaves OUT_DATA not enabled, of either toggle, is the model's reading of R277 and U20 (log 16). -/
def Obligations.OutDataStep : Prop :=
  ∀ (s : State) (toggle : Bool) (bytes : List Byte), s.params.wf = true → s.descriptorsOk → s.suspended = false →
    (s.bd.ep0Out.own = .sie → s.bd.ep0Out.stall = false → s.pktdis = false → s.trnFifo.length < s.params.trnFifoDepth →
      bytes.length ≤ s.bd.ep0Out.count.toNat →
      (s.bd.ep0Out.dtsen = false ∨ toggle = s.bd.ep0Out.dts →
        ∃ t, sieStep (.outData s.dev.uaddr toggle bytes) s = .next t ∧
          (∀ k, k < bytes.length → t.ramByte (s.params.ep0OutBuf + k) = bytes.getD k 0) ∧
          sameBytesExcept s t (fun a => inRun s.params.ep0OutBuf bytes.length a ∨ inBd s.params .ep0Out a) ∧
          t = { s with
                bd := { s.bd with ep0Out :=
                        { s.bd.ep0Out with count := BitVec.ofNat 8 bytes.length, pid := 0x1, dts := toggle, own := .device } }
                trnFifo := s.trnFifo ++ [{ endp := 0, dir := 0 }]
                ip := { s.ip with trn := true }
                wire := s.wire ++ [.outData toggle bytes]
                ram := t.ram }) ∧
      (s.bd.ep0Out.dtsen = true → toggle ≠ s.bd.ep0Out.dts →
        sieStep (.outData s.dev.uaddr toggle bytes) s = .next s)) ∧
    (s.bd.ep0Out.own = .device ∨ s.bd.ep0Out.stall = true ∨ s.pktdis = true ∨ s.params.trnFifoDepth ≤ s.trnFifo.length ∨
        s.bd.ep0Out.count.toNat < bytes.length →
      sieStep (.outData s.dev.uaddr toggle bytes) s = .refused .sieGuardFalse)

/-- 45_environment_agents.md R279 (D29; the full queue: R277, log 16): an IN packet taken by the host is logged with the descriptor's
toggle and the first `count` bytes of the endpoint's buffer, and the descriptor is handed back; endpoint 0 waits for `pktdis = 0`,
endpoint 1 does not. With the guard false, with no room in the queue, and for a descriptor that is not an IN descriptor the step is not
enabled. -/
def Obligations.InPacketStep : Prop :=
  ∀ s : State, s.params.wf = true → s.descriptorsOk → s.suspended = false →
    (s.bd.ep0In.own = .sie → s.bd.ep0In.stall = false → s.pktdis = false → s.trnFifo.length < s.params.trnFifoDepth →
      sieStep (.inDone s.dev.uaddr .ep0In) s = .next { s with
        bd := { s.bd with ep0In := { s.bd.ep0In with pid := 0x9, own := .device } }
        trnFifo := s.trnFifo ++ [{ endp := 0, dir := 1 }]
        ip := { s.ip with trn := true }
        wire := s.wire ++ [.inData 0 s.bd.ep0In.dts
                  ((List.range s.bd.ep0In.count.toNat).map fun k => s.ramByte (s.params.ep0InBuf + k))] }) ∧
    (s.bd.ep1In.own = .sie → s.trnFifo.length < s.params.trnFifoDepth →
      sieStep (.inDone s.dev.uaddr .ep1In) s = .next { s with
        bd := { s.bd with ep1In := { s.bd.ep1In with pid := 0x9, own := .device } }
        trnFifo := s.trnFifo ++ [{ endp := 1, dir := 1 }]
        ip := { s.ip with trn := true }
        wire := s.wire ++ [.inData 1 s.bd.ep1In.dts
                  ((List.range s.bd.ep1In.count.toNat).map fun k => s.ramByte (s.params.ep1InBuf + k))] }) ∧
    (s.bd.ep0In.own = .device ∨ s.bd.ep0In.stall = true ∨ s.pktdis = true ∨ s.params.trnFifoDepth ≤ s.trnFifo.length →
      sieStep (.inDone s.dev.uaddr .ep0In) s = .refused .sieGuardFalse) ∧
    (s.bd.ep1In.own = .device ∨ s.params.trnFifoDepth ≤ s.trnFifo.length →
      sieStep (.inDone s.dev.uaddr .ep1In) s = .refused .sieGuardFalse) ∧
    (∀ b, b = .ep0Out ∨ b = .ep1Out → sieStep (.inDone s.dev.uaddr b) s = .refused .sieGuardFalse)

/-- 45_environment_agents.md R280, R281 (D29; the full queue: log 16): when each token is answered NAK or STALL, and what that changes. -/
def Obligations.NakAndStallSteps : Prop :=
  ∀ (s : State) (b : BdIx), s.suspended = false →
    ((s.bdAt b).own = .device ∨ ((b = .ep0Out ∨ b = .ep0In) ∧ s.pktdis = true) ∨ s.params.trnFifoDepth ≤ s.trnFifo.length →
      sieStep (.nak s.dev.uaddr b) s = .next { s with wire := s.wire ++ [.nak b] }) ∧
    ((s.bdAt b).own = .sie → ((b = .ep1Out ∨ b = .ep1In) ∨ s.pktdis = false) → s.trnFifo.length < s.params.trnFifoDepth →
      sieStep (.nak s.dev.uaddr b) s = .refused .sieGuardFalse) ∧
    ((s.bdAt b).own = .sie → (s.bdAt b).stall = true → s.pktdis = false →
      sieStep (.stallHandshake s.dev.uaddr b) s =
        .next { s with wire := s.wire ++ [.stall b], ip := { s.ip with other := true } }) ∧
    ((s.bdAt b).own = .device ∨ (s.bdAt b).stall = false ∨ s.pktdis = true →
      sieStep (.stallHandshake s.dev.uaddr b) s = .refused .sieGuardFalse)

/-- 45_environment_agents.md R276, R282, R283 (D29, D43): the bus-level causes. -/
def Obligations.BusLevelSteps : Prop :=
  ∀ s : State,
    (s.params.sieResetFlush = true →
      sieStep .hostBusReset s = .next { s with
        ip := { s.ip with reset := true, actv := s.ip.actv || s.suspended, trn := false }
        pktdis := false
        trnFifo := []
        wire := s.wire ++ [.reset] }) ∧
    (s.params.sieResetFlush = false →
      sieStep .hostBusReset s = .next { s with
        ip := { s.ip with reset := true, actv := s.ip.actv || s.suspended }
        wire := s.wire ++ [.reset] }) ∧
    (∀ e : Byte, e ≠ 0 →
      sieStep (.busErrorDetected e) s = .next { s with errFlags := s.errFlags ||| e, ip := { s.ip with error := true } }) ∧
    sieStep (.busErrorDetected 0) s = .refused .sieGuardFalse ∧
    (s.suspended = false →
      sieStep .idleDetected s = .next { s with ip := { s.ip with idle := true } } ∧
      sieStep .activityDetected s = .refused .sieGuardFalse) ∧
    (s.suspended = true →
      sieStep .activityDetected s = .next { s with ip := { s.ip with actv := true } } ∧
      sieStep .idleDetected s = .refused .sieGuardFalse) ∧
    sieStep .otherDetected s = .next { s with ip := { s.ip with other := true } }

/-- 45_environment_agents.md R273, R283 (D29): a token to another address changes nothing; while suspended no token step is enabled. -/
def Obligations.TokensTheSieDoesNotTake : Prop :=
  ∀ (s : State) (addr : BitVec 7) (packet : Spw) (toggle : Bool) (bytes : List Byte) (b : BdIx) (a : SieStep),
    a ∈ [.setupToken addr packet, .outData addr toggle bytes, .inDone addr b, .nak addr b, .stallHandshake addr b] →
    (s.suspended = false → addr ≠ s.dev.uaddr → sieStep a s = .next s) ∧
    (s.suspended = true → sieStep a s = .refused .sieGuardFalse)

/-! ### Rules of the whole machine -/

/-- 10_state.md R27, R28 and 70_reset_and_hazards.md R356 (two registers: D10): the address register changes by a bus reset and by the
Status-stage commit alone; the pending address by those two, which clear it, and by SET_ADDRESS, which sets it to `wValue[6:0]`: as its
own arm, as the packet in EP0_OUT_BUF, or, under AS_STANDARD, as a packet of a nonstandard type (D7); the SIE changes neither. -/
def Obligations.AddressRegistersChangeOnlyAtTheirEvents : Prop :=
  (∀ (i : Instr) (s t : State), s.params.wf = true → exec i s = .next t →
    (t.dev.uaddr = s.dev.uaddr ∨ (i.mnemonic = .busReset ∧ t.dev.uaddr = 0) ∨
      (i.mnemonic = .trnEp0In ∧ s.ctx.kind = .ctlOut ∧ s.dev.pendingAddr ≠ 0 ∧ t.dev.uaddr = s.dev.pendingAddr)) ∧
    (t.dev.pendingAddr = s.dev.pendingAddr ∨ (i.mnemonic = .busReset ∧ t.dev.pendingAddr = 0) ∨
      (i.mnemonic = .trnEp0In ∧ s.ctx.kind = .ctlOut ∧ t.dev.pendingAddr = 0) ∨
      (∃ attr v x l, s.requestOf i = .setAddress attr v x l ∧ t.dev.pendingAddr = v.extractLsb' 0 7))) ∧
  (∀ (a : SieStep) (s t : State), sieStep a s = .next t → t.dev = s.dev)

/-- 10_state.md R34: the block hands descriptors to the SIE and takes none back, and only the SIE hands one back; the premises shut out
stores through a pointer into the BD table (log 13), which no run has. -/
def Obligations.OnlyTheSieHandsDescriptorsBack : Prop :=
  (∀ (i : Instr) (s t : State) (b : BdIx), s.params.wf = true → s.transferOk → exec i s = .next t →
    (s.bdAt b).own = .sie → (t.bdAt b).own = .sie) ∧
  (∀ (a : SieStep) (s t : State) (b : BdIx), s.params.wf = true → s.descriptorsOk → sieStep a s = .next t →
    (s.bdAt b).own = .device → (t.bdAt b).own = .device)

/-- 10_state.md R35: a stall flag is set only by the stall arm of a SETUP event, on both descriptors of endpoint 0 at once, and every
other arm writes 0; endpoint 1 never stalls; while it is set and the SIE owns the descriptor, IN and OUT tokens are answered STALL and
complete nothing. The premises shut out stores into the BD table, `pktdis` (NAK, 45_environment_agents.md R280) and suspension. -/
def Obligations.TheStallFlag : Prop :=
  (∀ (i : Instr) (s t : State) (b : BdIx), s.params.wf = true → s.transferOk → exec i s = .next t → t.bdAt b ≠ s.bdAt b →
    (t.bdAt b).stall = true →
    i.mnemonic.isSetup = true ∧ (b = .ep0Out ∨ b = .ep0In) ∧ t.bd.ep0Out.stall = true ∧ t.bd.ep0In.stall = true) ∧
  (∀ (i : Instr) (s t : State), s.params.wf = true → s.transferOk → exec i s = .next t →
    t.bd.ep1In.stall = true → s.bd.ep1In.stall = true) ∧
  (∀ (s : State) (b : BdIx), s.suspended = false → s.pktdis = false → (s.bdAt b).own = .sie → (s.bdAt b).stall = true →
    (∃ t, sieStep (.stallHandshake s.dev.uaddr b) s = .next t ∧ t.bd = s.bd ∧ t.trnFifo = s.trnFifo ∧
      t.wire = s.wire ++ [.stall b]) ∧
    sieStep (.inDone s.dev.uaddr b) s = .refused .sieGuardFalse ∧
    (b = .ep0Out → ∀ toggle bytes, sieStep (.outData s.dev.uaddr toggle bytes) s = .refused .sieGuardFalse))

/-- 45_environment_agents.md R270, 10_state.md R41, R43: the block only clears what the SIE sets: pending causes, the queue, the error
flags, `pktdis`; it writes no record of the wire log; `gie` is as before after every event (43_ep1_report_engine.md R221, D39). -/
def Obligations.TheBlockOnlyClearsWhatTheSieSets : Prop :=
  ∀ (i : Instr) (s t : State), s.params.wf = true → s.queueOk → exec i s = .next t →
    (t.ip.reset = true → s.ip.reset = true) ∧ (t.ip.trn = true → s.ip.trn = true) ∧ (t.ip.error = true → s.ip.error = true) ∧
    (t.ip.idle = true → s.ip.idle = true) ∧ (t.ip.actv = true → s.ip.actv = true) ∧ (t.ip.other = true → s.ip.other = true) ∧
    (t.trnFifo = s.trnFifo ∨ t.trnFifo = s.trnFifo.tail) ∧ (t.errFlags = s.errFlags ∨ t.errFlags = 0) ∧
    (t.pktdis = true → s.pktdis = true) ∧ t.wire = s.wire ∧ t.gie = s.gie ∧ t.inHandler = s.inHandler ∧ t.inputs = s.inputs ∧
    t.params = s.params

/-- 60_exceptions.md R315: the foreground's two events leave the transfer context, the device state, the endpoint-0 descriptors and
buffers and the interrupt registers alone; the handler's events leave the report's bytes alone. The premise shuts out a store through a
pointer no run has. -/
def Obligations.ContextsKeepTheirDiscipline : Prop :=
  ∀ (i : Instr) (s t : State), s.params.wf = true → s.transferOk → exec i s = .next t →
    (i.mnemonic.isForeground = true →
      t.ctx = s.ctx ∧ t.dev = s.dev ∧ t.configuration = s.configuration ∧ t.bd.ep0Out = s.bd.ep0Out ∧ t.bd.ep0In = s.bd.ep0In ∧
      t.bd.ep1Out = s.bd.ep1Out ∧ (∀ k, k < 8 → t.ramByte (s.params.ep0OutBuf + k) = s.ramByte (s.params.ep0OutBuf + k)) ∧
      (∀ k, k < 8 → t.ramByte (s.params.ep0InBuf + k) = s.ramByte (s.params.ep0InBuf + k)) ∧ t.pktdis = s.pktdis ∧ t.ip = s.ip ∧
      t.ie = s.ie ∧ t.trnFifo = s.trnFifo ∧ t.errFlags = s.errFlags ∧ t.suspended = s.suspended ∧ t.gie = s.gie ∧
      t.trace = s.trace) ∧
    (i.mnemonic.isForeground = false → t.report = s.report)

/-- 60_exceptions.md R308, the whole table: which event can raise what, and, for each entry that is not "no" or unreachable, a case that
raises it. ProtocolStall is the next state in which the event has stall-armed the descriptors of endpoint 0. A refusal is the policy of
42_ep0_requests.md R204. TRN_EP0_OUT's Fault_PtrRange names an address of its copy: byte `k` of the received ones at the sink `a`. The
premises are the rule's "unreachable". -/
def Obligations.WhatEachEventCanRaise : Prop :=
  ∀ (i : Instr) (s : State), s.params.wf = true → s.descriptorsOk →
    (i.mnemonic ∈ [.busReset, .busError, .idle, .activity, .otherCause, .trnOtherEp, .trnEp1, .reportWrite, .reportChanged] →
      ∃ t, exec i s = .next t ∧ (t.bd.ep0Out.stall = true → t.bd.ep0Out = s.bd.ep0Out)) ∧
    (i.mnemonic.isSetup = true →
      (∃ t, exec i s = .next t) ∨ (s.params.nonstdTypePolicy = .refuse ∧ exec i s = .refused .nonstandardRequestType)) ∧
    (i.mnemonic = .trnEp0Out →
      (∃ t, exec i s = .next t ∧ t.bd.ep0Out.stall = false) ∨
      (s.ctx.kind = .ctlOut ∧ s.bd.ep0Out.count ≠ 0 ∧ s.ctx.data = .unspecified ∧
        exec i s = .fault (.unspecifiedSink s.bd.ep0Out.count.toNat)) ∨
      (∃ a k, s.ctx.kind = .ctlOut ∧ s.ctx.data = .at a ∧ k < s.bd.ep0Out.count.toNat ∧
        inSpace s.params .ram ((a + k) % 2 ^ s.params.ptrW) = false ∧
        exec i s = .fault (.ptrRange .ram ((a + k) % 2 ^ s.params.ptrW)))) ∧
    (i.mnemonic = .trnEp0In → s.transferOk → ∃ t, exec i s = .next t ∧ t.bd.ep0Out.stall = false) ∧
    (∀ attr b v x l, ∃ t, exec (.unsupportedStandard attr b v x l) s = .next t ∧ t.bd.ep0Out.stall = true ∧
      t.bd.ep0In.stall = true) ∧
    (∀ pid zero, s.ctx.kind = .ctlOut → s.bd.ep0Out.count ≠ 0 → s.ctx.data = .unspecified →
      exec (.trnEp0Out pid zero) s = .fault (.unspecifiedSink s.bd.ep0Out.count.toNat)) ∧
    (∀ attr c b v x l, s.params.nonstdTypePolicy = .refuse →
      exec (.nonstdRequestType attr c b v x l) s = .refused .nonstandardRequestType)

/-- The frame of memory, by event: every address outside the bytes the event stores to, computed from the state it starts in
(`storedBy`), reads as before (41_ep0_control_engine.md R172, the copies; the descriptors' bytes are the view of log 13). An event that
puts no packet into EP0_IN_BUF leaves it alone: TRN_EP0_OUT, SET_ADDRESS, SET_CONFIGURATION, SET_IDLE, a string index out of range, every
stall. The premise shuts out a sink no run has. -/
def Obligations.EventsStoreNowhereElse : Prop :=
  ∀ (i : Instr) (s t : State), s.params.wf = true → s.transferOk → exec i s = .next t → sameBytesExcept s t (storedBy s i)

/-- 60_exceptions.md R318 (the characters are D27): a bus reset appends TRACE_RESET_CHAR; a stalling SETUP appends TRACE_STALL_CHAR if
TRACE_STALL says so; no other event writes the trace, nor does the SIE. -/
def Obligations.TraceBytes : Prop :=
  (∀ (i : Instr) (s t : State), s.params.wf = true → exec i s = .next t →
    (i.mnemonic = .busReset ∧ t.trace = s.trace ++ [s.params.traceResetChar]) ∨
    (i.mnemonic.isSetup = true ∧ t.ctx.kind = .none ∧
      t.trace = if s.params.traceStall then s.trace ++ [s.params.traceStallChar] else s.trace) ∨
    (i.mnemonic ≠ .busReset ∧ (i.mnemonic.isSetup = true → t.ctx.kind ≠ .none) ∧ t.trace = s.trace)) ∧
  (∀ (a : SieStep) (s t : State), sieStep a s = .next t → t.trace = s.trace)

/-- A host that takes every packet of a GET_DESCRIPTOR receives `min(true length, wLength)` bytes, and they are the descriptor's
(44_descriptor_repository.md R241; 45_environment_agents.md R286 over the wire log; the host's steps are D29). -/
def Obligations.ControlReadsReturnTheDescriptor : Prop :=
  ∀ (s : State) (attr : ReqAttr) (x l : BitVec 16), s.params.wf = true → s.suspended = false →
    s.trnFifo.length ≤ s.params.trnFifoDepth →
    (∀ index, controlReadReturns s (.getDescriptorDevice attr index x l) l.toNat s.params.deviceDescriptor) ∧
    (∀ index, controlReadReturns s (.getDescriptorConfiguration attr index x l) l.toNat s.params.configDescriptor) ∧
    (∀ index, controlReadReturns s (.getDescriptorReport attr index x l) l.toNat s.params.rpt) ∧
    (∀ index, controlReadReturns s (.getDescriptorString attr index x l) l.toNat (s.params.string index).descriptor)

/-! ### Invariants of the step -/

/-- Every step of the machine keeps RAM in its canonical form and the parameters as they are. -/
def Obligations.StepKeepsRamCanonical : Prop :=
  ∀ s t : State, s.ram.wf → step s = .next t → t.ram.wf ∧ t.params = s.params

/-- Every step keeps `ip.TRN = 1` exactly when the queue is not empty, and the queue within its depth (10_state.md R43, D30). -/
def Obligations.StepKeepsTheQueue : Prop :=
  ∀ s t : State, s.queueOk → step s = .next t → t.queueOk

/-- Every step keeps the rest of an IN transfer inside the region its request chose, and an OUT transfer without bytes left and without
a sink (10_state.md R26 iii, which the spec derives; 42_ep0_requests.md R203). -/
def Obligations.StepKeepsTheTransfer : Prop :=
  ∀ s t : State, s.params.wf = true → s.transferOk → step s = .next t → t.transferOk

/-- Every step keeps the interrupt discipline: `gie` set between events, suspension exactly while an invocation sleeps, and `ie` to
match (60_exceptions.md R319, 40_bus_event_dispatcher.md R136, R137; D22, D23). -/
def Obligations.StepKeepsThePowerState : Prop :=
  ∀ s t : State, s.powerOk → step s = .next t → t.powerOk

/-- Every step keeps the descriptors' buffer addresses, counts of at most 8, endpoint 1 unstalled and EP1_OUT unarmed (10_state.md R35,
R38, R39; 43_ep1_report_engine.md R222, D41). -/
def Obligations.StepKeepsTheDescriptors : Prop :=
  ∀ s t : State, s.params.wf = true → s.transferOk → s.descriptorsOk → step s = .next t → t.descriptorsOk

/-- 60_exceptions.md R305 to R307, over the invariants: a step faults only for OUT data without a sink, so no address out of range, no
empty queue and no missing source is ever met; and it refuses only for the reasons R307 lists. -/
def Obligations.StepStopsOnlyAsTheSpecSays : Prop :=
  ∀ s : State, s.params.wf = true → s.queueOk → s.transferOk → s.descriptorsOk →
    (∀ e, step s = .fault e →
      ∃ n, e = .unspecifiedSink n ∧ 0 < n ∧ s.ctx.kind = .ctlOut ∧ n = s.bd.ep0Out.count.toNat) ∧
    (∀ e, step s = .refused e →
      (e = .nonstandardRequestType ∧ s.params.nonstdTypePolicy = .refuse) ∨ (∃ c, e = .reservedCause c ∧ 0x6 ≤ c.toNat) ∨
      e = .foregroundNotEnabled ∨ e = .handlerEventNotEnabled ∨ e = .sieGuardFalse)
end

