-- ==== Sys2Proof/Laws/State.lean ====
section
/-! SUPPORT. One lemma per field per register update: what `State.with<Field>` and the descriptor update leave and set. -/

namespace Sys2Proof.Machine

section
variable (s : State)

@[simp] theorem State.withCtx_ctx (v : Ctx) : (s.withCtx v).ctx = v := rfl
@[simp] theorem State.withCtx_dev (v : Ctx) : (s.withCtx v).dev = s.dev := rfl
@[simp] theorem State.withCtx_rpt (v : Ctx) : (s.withCtx v).rpt = s.rpt := rfl
@[simp] theorem State.withCtx_bd (v : Ctx) : (s.withCtx v).bd = s.bd := rfl
@[simp] theorem State.withCtx_pktdis (v : Ctx) : (s.withCtx v).pktdis = s.pktdis := rfl
@[simp] theorem State.withCtx_ip (v : Ctx) : (s.withCtx v).ip = s.ip := rfl
@[simp] theorem State.withCtx_ie (v : Ctx) : (s.withCtx v).ie = s.ie := rfl
@[simp] theorem State.withCtx_trnFifo (v : Ctx) : (s.withCtx v).trnFifo = s.trnFifo := rfl
@[simp] theorem State.withCtx_errFlags (v : Ctx) : (s.withCtx v).errFlags = s.errFlags := rfl
@[simp] theorem State.withCtx_suspended (v : Ctx) : (s.withCtx v).suspended = s.suspended := rfl
@[simp] theorem State.withCtx_gie (v : Ctx) : (s.withCtx v).gie = s.gie := rfl
@[simp] theorem State.withCtx_inHandler (v : Ctx) : (s.withCtx v).inHandler = s.inHandler := rfl
@[simp] theorem State.withCtx_phase (v : Ctx) : (s.withCtx v).phase = s.phase := rfl
@[simp] theorem State.withCtx_trace (v : Ctx) : (s.withCtx v).trace = s.trace := rfl
@[simp] theorem State.withCtx_wire (v : Ctx) : (s.withCtx v).wire = s.wire := rfl
@[simp] theorem State.withCtx_ram (v : Ctx) : (s.withCtx v).ram = s.ram := rfl
@[simp] theorem State.withCtx_inputs (v : Ctx) : (s.withCtx v).inputs = s.inputs := rfl
@[simp] theorem State.withCtx_params (v : Ctx) : (s.withCtx v).params = s.params := rfl

@[simp] theorem State.withDev_ctx (v : Dev) : (s.withDev v).ctx = s.ctx := rfl
@[simp] theorem State.withDev_dev (v : Dev) : (s.withDev v).dev = v := rfl
@[simp] theorem State.withDev_rpt (v : Dev) : (s.withDev v).rpt = s.rpt := rfl
@[simp] theorem State.withDev_bd (v : Dev) : (s.withDev v).bd = s.bd := rfl
@[simp] theorem State.withDev_pktdis (v : Dev) : (s.withDev v).pktdis = s.pktdis := rfl
@[simp] theorem State.withDev_ip (v : Dev) : (s.withDev v).ip = s.ip := rfl
@[simp] theorem State.withDev_ie (v : Dev) : (s.withDev v).ie = s.ie := rfl
@[simp] theorem State.withDev_trnFifo (v : Dev) : (s.withDev v).trnFifo = s.trnFifo := rfl
@[simp] theorem State.withDev_errFlags (v : Dev) : (s.withDev v).errFlags = s.errFlags := rfl
@[simp] theorem State.withDev_suspended (v : Dev) : (s.withDev v).suspended = s.suspended := rfl
@[simp] theorem State.withDev_gie (v : Dev) : (s.withDev v).gie = s.gie := rfl
@[simp] theorem State.withDev_inHandler (v : Dev) : (s.withDev v).inHandler = s.inHandler := rfl
@[simp] theorem State.withDev_phase (v : Dev) : (s.withDev v).phase = s.phase := rfl
@[simp] theorem State.withDev_trace (v : Dev) : (s.withDev v).trace = s.trace := rfl
@[simp] theorem State.withDev_wire (v : Dev) : (s.withDev v).wire = s.wire := rfl
@[simp] theorem State.withDev_ram (v : Dev) : (s.withDev v).ram = s.ram := rfl
@[simp] theorem State.withDev_inputs (v : Dev) : (s.withDev v).inputs = s.inputs := rfl
@[simp] theorem State.withDev_params (v : Dev) : (s.withDev v).params = s.params := rfl

@[simp] theorem State.withRpt_ctx (v : Rpt) : (s.withRpt v).ctx = s.ctx := rfl
@[simp] theorem State.withRpt_dev (v : Rpt) : (s.withRpt v).dev = s.dev := rfl
@[simp] theorem State.withRpt_rpt (v : Rpt) : (s.withRpt v).rpt = v := rfl
@[simp] theorem State.withRpt_bd (v : Rpt) : (s.withRpt v).bd = s.bd := rfl
@[simp] theorem State.withRpt_pktdis (v : Rpt) : (s.withRpt v).pktdis = s.pktdis := rfl
@[simp] theorem State.withRpt_ip (v : Rpt) : (s.withRpt v).ip = s.ip := rfl
@[simp] theorem State.withRpt_ie (v : Rpt) : (s.withRpt v).ie = s.ie := rfl
@[simp] theorem State.withRpt_trnFifo (v : Rpt) : (s.withRpt v).trnFifo = s.trnFifo := rfl
@[simp] theorem State.withRpt_errFlags (v : Rpt) : (s.withRpt v).errFlags = s.errFlags := rfl
@[simp] theorem State.withRpt_suspended (v : Rpt) : (s.withRpt v).suspended = s.suspended := rfl
@[simp] theorem State.withRpt_gie (v : Rpt) : (s.withRpt v).gie = s.gie := rfl
@[simp] theorem State.withRpt_inHandler (v : Rpt) : (s.withRpt v).inHandler = s.inHandler := rfl
@[simp] theorem State.withRpt_phase (v : Rpt) : (s.withRpt v).phase = s.phase := rfl
@[simp] theorem State.withRpt_trace (v : Rpt) : (s.withRpt v).trace = s.trace := rfl
@[simp] theorem State.withRpt_wire (v : Rpt) : (s.withRpt v).wire = s.wire := rfl
@[simp] theorem State.withRpt_ram (v : Rpt) : (s.withRpt v).ram = s.ram := rfl
@[simp] theorem State.withRpt_inputs (v : Rpt) : (s.withRpt v).inputs = s.inputs := rfl
@[simp] theorem State.withRpt_params (v : Rpt) : (s.withRpt v).params = s.params := rfl

@[simp] theorem State.withBd_ctx (v : BdFile) : (s.withBd v).ctx = s.ctx := rfl
@[simp] theorem State.withBd_dev (v : BdFile) : (s.withBd v).dev = s.dev := rfl
@[simp] theorem State.withBd_rpt (v : BdFile) : (s.withBd v).rpt = s.rpt := rfl
@[simp] theorem State.withBd_bd (v : BdFile) : (s.withBd v).bd = v := rfl
@[simp] theorem State.withBd_pktdis (v : BdFile) : (s.withBd v).pktdis = s.pktdis := rfl
@[simp] theorem State.withBd_ip (v : BdFile) : (s.withBd v).ip = s.ip := rfl
@[simp] theorem State.withBd_ie (v : BdFile) : (s.withBd v).ie = s.ie := rfl
@[simp] theorem State.withBd_trnFifo (v : BdFile) : (s.withBd v).trnFifo = s.trnFifo := rfl
@[simp] theorem State.withBd_errFlags (v : BdFile) : (s.withBd v).errFlags = s.errFlags := rfl
@[simp] theorem State.withBd_suspended (v : BdFile) : (s.withBd v).suspended = s.suspended := rfl
@[simp] theorem State.withBd_gie (v : BdFile) : (s.withBd v).gie = s.gie := rfl
@[simp] theorem State.withBd_inHandler (v : BdFile) : (s.withBd v).inHandler = s.inHandler := rfl
@[simp] theorem State.withBd_phase (v : BdFile) : (s.withBd v).phase = s.phase := rfl
@[simp] theorem State.withBd_trace (v : BdFile) : (s.withBd v).trace = s.trace := rfl
@[simp] theorem State.withBd_wire (v : BdFile) : (s.withBd v).wire = s.wire := rfl
@[simp] theorem State.withBd_ram (v : BdFile) : (s.withBd v).ram = s.ram := rfl
@[simp] theorem State.withBd_inputs (v : BdFile) : (s.withBd v).inputs = s.inputs := rfl
@[simp] theorem State.withBd_params (v : BdFile) : (s.withBd v).params = s.params := rfl

@[simp] theorem State.withPktdis_ctx (v : Bool) : (s.withPktdis v).ctx = s.ctx := rfl
@[simp] theorem State.withPktdis_dev (v : Bool) : (s.withPktdis v).dev = s.dev := rfl
@[simp] theorem State.withPktdis_rpt (v : Bool) : (s.withPktdis v).rpt = s.rpt := rfl
@[simp] theorem State.withPktdis_bd (v : Bool) : (s.withPktdis v).bd = s.bd := rfl
@[simp] theorem State.withPktdis_pktdis (v : Bool) : (s.withPktdis v).pktdis = v := rfl
@[simp] theorem State.withPktdis_ip (v : Bool) : (s.withPktdis v).ip = s.ip := rfl
@[simp] theorem State.withPktdis_ie (v : Bool) : (s.withPktdis v).ie = s.ie := rfl
@[simp] theorem State.withPktdis_trnFifo (v : Bool) : (s.withPktdis v).trnFifo = s.trnFifo := rfl
@[simp] theorem State.withPktdis_errFlags (v : Bool) : (s.withPktdis v).errFlags = s.errFlags := rfl
@[simp] theorem State.withPktdis_suspended (v : Bool) : (s.withPktdis v).suspended = s.suspended := rfl
@[simp] theorem State.withPktdis_gie (v : Bool) : (s.withPktdis v).gie = s.gie := rfl
@[simp] theorem State.withPktdis_inHandler (v : Bool) : (s.withPktdis v).inHandler = s.inHandler := rfl
@[simp] theorem State.withPktdis_phase (v : Bool) : (s.withPktdis v).phase = s.phase := rfl
@[simp] theorem State.withPktdis_trace (v : Bool) : (s.withPktdis v).trace = s.trace := rfl
@[simp] theorem State.withPktdis_wire (v : Bool) : (s.withPktdis v).wire = s.wire := rfl
@[simp] theorem State.withPktdis_ram (v : Bool) : (s.withPktdis v).ram = s.ram := rfl
@[simp] theorem State.withPktdis_inputs (v : Bool) : (s.withPktdis v).inputs = s.inputs := rfl
@[simp] theorem State.withPktdis_params (v : Bool) : (s.withPktdis v).params = s.params := rfl

@[simp] theorem State.withIp_ctx (v : Causes) : (s.withIp v).ctx = s.ctx := rfl
@[simp] theorem State.withIp_dev (v : Causes) : (s.withIp v).dev = s.dev := rfl
@[simp] theorem State.withIp_rpt (v : Causes) : (s.withIp v).rpt = s.rpt := rfl
@[simp] theorem State.withIp_bd (v : Causes) : (s.withIp v).bd = s.bd := rfl
@[simp] theorem State.withIp_pktdis (v : Causes) : (s.withIp v).pktdis = s.pktdis := rfl
@[simp] theorem State.withIp_ip (v : Causes) : (s.withIp v).ip = v := rfl
@[simp] theorem State.withIp_ie (v : Causes) : (s.withIp v).ie = s.ie := rfl
@[simp] theorem State.withIp_trnFifo (v : Causes) : (s.withIp v).trnFifo = s.trnFifo := rfl
@[simp] theorem State.withIp_errFlags (v : Causes) : (s.withIp v).errFlags = s.errFlags := rfl
@[simp] theorem State.withIp_suspended (v : Causes) : (s.withIp v).suspended = s.suspended := rfl
@[simp] theorem State.withIp_gie (v : Causes) : (s.withIp v).gie = s.gie := rfl
@[simp] theorem State.withIp_inHandler (v : Causes) : (s.withIp v).inHandler = s.inHandler := rfl
@[simp] theorem State.withIp_phase (v : Causes) : (s.withIp v).phase = s.phase := rfl
@[simp] theorem State.withIp_trace (v : Causes) : (s.withIp v).trace = s.trace := rfl
@[simp] theorem State.withIp_wire (v : Causes) : (s.withIp v).wire = s.wire := rfl
@[simp] theorem State.withIp_ram (v : Causes) : (s.withIp v).ram = s.ram := rfl
@[simp] theorem State.withIp_inputs (v : Causes) : (s.withIp v).inputs = s.inputs := rfl
@[simp] theorem State.withIp_params (v : Causes) : (s.withIp v).params = s.params := rfl

@[simp] theorem State.withIe_ctx (v : Causes) : (s.withIe v).ctx = s.ctx := rfl
@[simp] theorem State.withIe_dev (v : Causes) : (s.withIe v).dev = s.dev := rfl
@[simp] theorem State.withIe_rpt (v : Causes) : (s.withIe v).rpt = s.rpt := rfl
@[simp] theorem State.withIe_bd (v : Causes) : (s.withIe v).bd = s.bd := rfl
@[simp] theorem State.withIe_pktdis (v : Causes) : (s.withIe v).pktdis = s.pktdis := rfl
@[simp] theorem State.withIe_ip (v : Causes) : (s.withIe v).ip = s.ip := rfl
@[simp] theorem State.withIe_ie (v : Causes) : (s.withIe v).ie = v := rfl
@[simp] theorem State.withIe_trnFifo (v : Causes) : (s.withIe v).trnFifo = s.trnFifo := rfl
@[simp] theorem State.withIe_errFlags (v : Causes) : (s.withIe v).errFlags = s.errFlags := rfl
@[simp] theorem State.withIe_suspended (v : Causes) : (s.withIe v).suspended = s.suspended := rfl
@[simp] theorem State.withIe_gie (v : Causes) : (s.withIe v).gie = s.gie := rfl
@[simp] theorem State.withIe_inHandler (v : Causes) : (s.withIe v).inHandler = s.inHandler := rfl
@[simp] theorem State.withIe_phase (v : Causes) : (s.withIe v).phase = s.phase := rfl
@[simp] theorem State.withIe_trace (v : Causes) : (s.withIe v).trace = s.trace := rfl
@[simp] theorem State.withIe_wire (v : Causes) : (s.withIe v).wire = s.wire := rfl
@[simp] theorem State.withIe_ram (v : Causes) : (s.withIe v).ram = s.ram := rfl
@[simp] theorem State.withIe_inputs (v : Causes) : (s.withIe v).inputs = s.inputs := rfl
@[simp] theorem State.withIe_params (v : Causes) : (s.withIe v).params = s.params := rfl

@[simp] theorem State.withTrnFifo_ctx (v : List TrnEntry) : (s.withTrnFifo v).ctx = s.ctx := rfl
@[simp] theorem State.withTrnFifo_dev (v : List TrnEntry) : (s.withTrnFifo v).dev = s.dev := rfl
@[simp] theorem State.withTrnFifo_rpt (v : List TrnEntry) : (s.withTrnFifo v).rpt = s.rpt := rfl
@[simp] theorem State.withTrnFifo_bd (v : List TrnEntry) : (s.withTrnFifo v).bd = s.bd := rfl
@[simp] theorem State.withTrnFifo_pktdis (v : List TrnEntry) : (s.withTrnFifo v).pktdis = s.pktdis := rfl
@[simp] theorem State.withTrnFifo_ip (v : List TrnEntry) : (s.withTrnFifo v).ip = s.ip := rfl
@[simp] theorem State.withTrnFifo_ie (v : List TrnEntry) : (s.withTrnFifo v).ie = s.ie := rfl
@[simp] theorem State.withTrnFifo_trnFifo (v : List TrnEntry) : (s.withTrnFifo v).trnFifo = v := rfl
@[simp] theorem State.withTrnFifo_errFlags (v : List TrnEntry) : (s.withTrnFifo v).errFlags = s.errFlags := rfl
@[simp] theorem State.withTrnFifo_suspended (v : List TrnEntry) : (s.withTrnFifo v).suspended = s.suspended := rfl
@[simp] theorem State.withTrnFifo_gie (v : List TrnEntry) : (s.withTrnFifo v).gie = s.gie := rfl
@[simp] theorem State.withTrnFifo_inHandler (v : List TrnEntry) : (s.withTrnFifo v).inHandler = s.inHandler := rfl
@[simp] theorem State.withTrnFifo_phase (v : List TrnEntry) : (s.withTrnFifo v).phase = s.phase := rfl
@[simp] theorem State.withTrnFifo_trace (v : List TrnEntry) : (s.withTrnFifo v).trace = s.trace := rfl
@[simp] theorem State.withTrnFifo_wire (v : List TrnEntry) : (s.withTrnFifo v).wire = s.wire := rfl
@[simp] theorem State.withTrnFifo_ram (v : List TrnEntry) : (s.withTrnFifo v).ram = s.ram := rfl
@[simp] theorem State.withTrnFifo_inputs (v : List TrnEntry) : (s.withTrnFifo v).inputs = s.inputs := rfl
@[simp] theorem State.withTrnFifo_params (v : List TrnEntry) : (s.withTrnFifo v).params = s.params := rfl

@[simp] theorem State.withErrFlags_ctx (v : BitVec 8) : (s.withErrFlags v).ctx = s.ctx := rfl
@[simp] theorem State.withErrFlags_dev (v : BitVec 8) : (s.withErrFlags v).dev = s.dev := rfl
@[simp] theorem State.withErrFlags_rpt (v : BitVec 8) : (s.withErrFlags v).rpt = s.rpt := rfl
@[simp] theorem State.withErrFlags_bd (v : BitVec 8) : (s.withErrFlags v).bd = s.bd := rfl
@[simp] theorem State.withErrFlags_pktdis (v : BitVec 8) : (s.withErrFlags v).pktdis = s.pktdis := rfl
@[simp] theorem State.withErrFlags_ip (v : BitVec 8) : (s.withErrFlags v).ip = s.ip := rfl
@[simp] theorem State.withErrFlags_ie (v : BitVec 8) : (s.withErrFlags v).ie = s.ie := rfl
@[simp] theorem State.withErrFlags_trnFifo (v : BitVec 8) : (s.withErrFlags v).trnFifo = s.trnFifo := rfl
@[simp] theorem State.withErrFlags_errFlags (v : BitVec 8) : (s.withErrFlags v).errFlags = v := rfl
@[simp] theorem State.withErrFlags_suspended (v : BitVec 8) : (s.withErrFlags v).suspended = s.suspended := rfl
@[simp] theorem State.withErrFlags_gie (v : BitVec 8) : (s.withErrFlags v).gie = s.gie := rfl
@[simp] theorem State.withErrFlags_inHandler (v : BitVec 8) : (s.withErrFlags v).inHandler = s.inHandler := rfl
@[simp] theorem State.withErrFlags_phase (v : BitVec 8) : (s.withErrFlags v).phase = s.phase := rfl
@[simp] theorem State.withErrFlags_trace (v : BitVec 8) : (s.withErrFlags v).trace = s.trace := rfl
@[simp] theorem State.withErrFlags_wire (v : BitVec 8) : (s.withErrFlags v).wire = s.wire := rfl
@[simp] theorem State.withErrFlags_ram (v : BitVec 8) : (s.withErrFlags v).ram = s.ram := rfl
@[simp] theorem State.withErrFlags_inputs (v : BitVec 8) : (s.withErrFlags v).inputs = s.inputs := rfl
@[simp] theorem State.withErrFlags_params (v : BitVec 8) : (s.withErrFlags v).params = s.params := rfl

@[simp] theorem State.withSuspended_ctx (v : Bool) : (s.withSuspended v).ctx = s.ctx := rfl
@[simp] theorem State.withSuspended_dev (v : Bool) : (s.withSuspended v).dev = s.dev := rfl
@[simp] theorem State.withSuspended_rpt (v : Bool) : (s.withSuspended v).rpt = s.rpt := rfl
@[simp] theorem State.withSuspended_bd (v : Bool) : (s.withSuspended v).bd = s.bd := rfl
@[simp] theorem State.withSuspended_pktdis (v : Bool) : (s.withSuspended v).pktdis = s.pktdis := rfl
@[simp] theorem State.withSuspended_ip (v : Bool) : (s.withSuspended v).ip = s.ip := rfl
@[simp] theorem State.withSuspended_ie (v : Bool) : (s.withSuspended v).ie = s.ie := rfl
@[simp] theorem State.withSuspended_trnFifo (v : Bool) : (s.withSuspended v).trnFifo = s.trnFifo := rfl
@[simp] theorem State.withSuspended_errFlags (v : Bool) : (s.withSuspended v).errFlags = s.errFlags := rfl
@[simp] theorem State.withSuspended_suspended (v : Bool) : (s.withSuspended v).suspended = v := rfl
@[simp] theorem State.withSuspended_gie (v : Bool) : (s.withSuspended v).gie = s.gie := rfl
@[simp] theorem State.withSuspended_inHandler (v : Bool) : (s.withSuspended v).inHandler = s.inHandler := rfl
@[simp] theorem State.withSuspended_phase (v : Bool) : (s.withSuspended v).phase = s.phase := rfl
@[simp] theorem State.withSuspended_trace (v : Bool) : (s.withSuspended v).trace = s.trace := rfl
@[simp] theorem State.withSuspended_wire (v : Bool) : (s.withSuspended v).wire = s.wire := rfl
@[simp] theorem State.withSuspended_ram (v : Bool) : (s.withSuspended v).ram = s.ram := rfl
@[simp] theorem State.withSuspended_inputs (v : Bool) : (s.withSuspended v).inputs = s.inputs := rfl
@[simp] theorem State.withSuspended_params (v : Bool) : (s.withSuspended v).params = s.params := rfl

@[simp] theorem State.withGie_ctx (v : Bool) : (s.withGie v).ctx = s.ctx := rfl
@[simp] theorem State.withGie_dev (v : Bool) : (s.withGie v).dev = s.dev := rfl
@[simp] theorem State.withGie_rpt (v : Bool) : (s.withGie v).rpt = s.rpt := rfl
@[simp] theorem State.withGie_bd (v : Bool) : (s.withGie v).bd = s.bd := rfl
@[simp] theorem State.withGie_pktdis (v : Bool) : (s.withGie v).pktdis = s.pktdis := rfl
@[simp] theorem State.withGie_ip (v : Bool) : (s.withGie v).ip = s.ip := rfl
@[simp] theorem State.withGie_ie (v : Bool) : (s.withGie v).ie = s.ie := rfl
@[simp] theorem State.withGie_trnFifo (v : Bool) : (s.withGie v).trnFifo = s.trnFifo := rfl
@[simp] theorem State.withGie_errFlags (v : Bool) : (s.withGie v).errFlags = s.errFlags := rfl
@[simp] theorem State.withGie_suspended (v : Bool) : (s.withGie v).suspended = s.suspended := rfl
@[simp] theorem State.withGie_gie (v : Bool) : (s.withGie v).gie = v := rfl
@[simp] theorem State.withGie_inHandler (v : Bool) : (s.withGie v).inHandler = s.inHandler := rfl
@[simp] theorem State.withGie_phase (v : Bool) : (s.withGie v).phase = s.phase := rfl
@[simp] theorem State.withGie_trace (v : Bool) : (s.withGie v).trace = s.trace := rfl
@[simp] theorem State.withGie_wire (v : Bool) : (s.withGie v).wire = s.wire := rfl
@[simp] theorem State.withGie_ram (v : Bool) : (s.withGie v).ram = s.ram := rfl
@[simp] theorem State.withGie_inputs (v : Bool) : (s.withGie v).inputs = s.inputs := rfl
@[simp] theorem State.withGie_params (v : Bool) : (s.withGie v).params = s.params := rfl

@[simp] theorem State.withInHandler_ctx (v : Bool) : (s.withInHandler v).ctx = s.ctx := rfl
@[simp] theorem State.withInHandler_dev (v : Bool) : (s.withInHandler v).dev = s.dev := rfl
@[simp] theorem State.withInHandler_rpt (v : Bool) : (s.withInHandler v).rpt = s.rpt := rfl
@[simp] theorem State.withInHandler_bd (v : Bool) : (s.withInHandler v).bd = s.bd := rfl
@[simp] theorem State.withInHandler_pktdis (v : Bool) : (s.withInHandler v).pktdis = s.pktdis := rfl
@[simp] theorem State.withInHandler_ip (v : Bool) : (s.withInHandler v).ip = s.ip := rfl
@[simp] theorem State.withInHandler_ie (v : Bool) : (s.withInHandler v).ie = s.ie := rfl
@[simp] theorem State.withInHandler_trnFifo (v : Bool) : (s.withInHandler v).trnFifo = s.trnFifo := rfl
@[simp] theorem State.withInHandler_errFlags (v : Bool) : (s.withInHandler v).errFlags = s.errFlags := rfl
@[simp] theorem State.withInHandler_suspended (v : Bool) : (s.withInHandler v).suspended = s.suspended := rfl
@[simp] theorem State.withInHandler_gie (v : Bool) : (s.withInHandler v).gie = s.gie := rfl
@[simp] theorem State.withInHandler_inHandler (v : Bool) : (s.withInHandler v).inHandler = v := rfl
@[simp] theorem State.withInHandler_phase (v : Bool) : (s.withInHandler v).phase = s.phase := rfl
@[simp] theorem State.withInHandler_trace (v : Bool) : (s.withInHandler v).trace = s.trace := rfl
@[simp] theorem State.withInHandler_wire (v : Bool) : (s.withInHandler v).wire = s.wire := rfl
@[simp] theorem State.withInHandler_ram (v : Bool) : (s.withInHandler v).ram = s.ram := rfl
@[simp] theorem State.withInHandler_inputs (v : Bool) : (s.withInHandler v).inputs = s.inputs := rfl
@[simp] theorem State.withInHandler_params (v : Bool) : (s.withInHandler v).params = s.params := rfl

@[simp] theorem State.withPhase_ctx (v : Phase) : (s.withPhase v).ctx = s.ctx := rfl
@[simp] theorem State.withPhase_dev (v : Phase) : (s.withPhase v).dev = s.dev := rfl
@[simp] theorem State.withPhase_rpt (v : Phase) : (s.withPhase v).rpt = s.rpt := rfl
@[simp] theorem State.withPhase_bd (v : Phase) : (s.withPhase v).bd = s.bd := rfl
@[simp] theorem State.withPhase_pktdis (v : Phase) : (s.withPhase v).pktdis = s.pktdis := rfl
@[simp] theorem State.withPhase_ip (v : Phase) : (s.withPhase v).ip = s.ip := rfl
@[simp] theorem State.withPhase_ie (v : Phase) : (s.withPhase v).ie = s.ie := rfl
@[simp] theorem State.withPhase_trnFifo (v : Phase) : (s.withPhase v).trnFifo = s.trnFifo := rfl
@[simp] theorem State.withPhase_errFlags (v : Phase) : (s.withPhase v).errFlags = s.errFlags := rfl
@[simp] theorem State.withPhase_suspended (v : Phase) : (s.withPhase v).suspended = s.suspended := rfl
@[simp] theorem State.withPhase_gie (v : Phase) : (s.withPhase v).gie = s.gie := rfl
@[simp] theorem State.withPhase_inHandler (v : Phase) : (s.withPhase v).inHandler = s.inHandler := rfl
@[simp] theorem State.withPhase_phase (v : Phase) : (s.withPhase v).phase = v := rfl
@[simp] theorem State.withPhase_trace (v : Phase) : (s.withPhase v).trace = s.trace := rfl
@[simp] theorem State.withPhase_wire (v : Phase) : (s.withPhase v).wire = s.wire := rfl
@[simp] theorem State.withPhase_ram (v : Phase) : (s.withPhase v).ram = s.ram := rfl
@[simp] theorem State.withPhase_inputs (v : Phase) : (s.withPhase v).inputs = s.inputs := rfl
@[simp] theorem State.withPhase_params (v : Phase) : (s.withPhase v).params = s.params := rfl

@[simp] theorem State.withTrace_ctx (v : List Byte) : (s.withTrace v).ctx = s.ctx := rfl
@[simp] theorem State.withTrace_dev (v : List Byte) : (s.withTrace v).dev = s.dev := rfl
@[simp] theorem State.withTrace_rpt (v : List Byte) : (s.withTrace v).rpt = s.rpt := rfl
@[simp] theorem State.withTrace_bd (v : List Byte) : (s.withTrace v).bd = s.bd := rfl
@[simp] theorem State.withTrace_pktdis (v : List Byte) : (s.withTrace v).pktdis = s.pktdis := rfl
@[simp] theorem State.withTrace_ip (v : List Byte) : (s.withTrace v).ip = s.ip := rfl
@[simp] theorem State.withTrace_ie (v : List Byte) : (s.withTrace v).ie = s.ie := rfl
@[simp] theorem State.withTrace_trnFifo (v : List Byte) : (s.withTrace v).trnFifo = s.trnFifo := rfl
@[simp] theorem State.withTrace_errFlags (v : List Byte) : (s.withTrace v).errFlags = s.errFlags := rfl
@[simp] theorem State.withTrace_suspended (v : List Byte) : (s.withTrace v).suspended = s.suspended := rfl
@[simp] theorem State.withTrace_gie (v : List Byte) : (s.withTrace v).gie = s.gie := rfl
@[simp] theorem State.withTrace_inHandler (v : List Byte) : (s.withTrace v).inHandler = s.inHandler := rfl
@[simp] theorem State.withTrace_phase (v : List Byte) : (s.withTrace v).phase = s.phase := rfl
@[simp] theorem State.withTrace_trace (v : List Byte) : (s.withTrace v).trace = v := rfl
@[simp] theorem State.withTrace_wire (v : List Byte) : (s.withTrace v).wire = s.wire := rfl
@[simp] theorem State.withTrace_ram (v : List Byte) : (s.withTrace v).ram = s.ram := rfl
@[simp] theorem State.withTrace_inputs (v : List Byte) : (s.withTrace v).inputs = s.inputs := rfl
@[simp] theorem State.withTrace_params (v : List Byte) : (s.withTrace v).params = s.params := rfl

@[simp] theorem State.withWire_ctx (v : List WireRecord) : (s.withWire v).ctx = s.ctx := rfl
@[simp] theorem State.withWire_dev (v : List WireRecord) : (s.withWire v).dev = s.dev := rfl
@[simp] theorem State.withWire_rpt (v : List WireRecord) : (s.withWire v).rpt = s.rpt := rfl
@[simp] theorem State.withWire_bd (v : List WireRecord) : (s.withWire v).bd = s.bd := rfl
@[simp] theorem State.withWire_pktdis (v : List WireRecord) : (s.withWire v).pktdis = s.pktdis := rfl
@[simp] theorem State.withWire_ip (v : List WireRecord) : (s.withWire v).ip = s.ip := rfl
@[simp] theorem State.withWire_ie (v : List WireRecord) : (s.withWire v).ie = s.ie := rfl
@[simp] theorem State.withWire_trnFifo (v : List WireRecord) : (s.withWire v).trnFifo = s.trnFifo := rfl
@[simp] theorem State.withWire_errFlags (v : List WireRecord) : (s.withWire v).errFlags = s.errFlags := rfl
@[simp] theorem State.withWire_suspended (v : List WireRecord) : (s.withWire v).suspended = s.suspended := rfl
@[simp] theorem State.withWire_gie (v : List WireRecord) : (s.withWire v).gie = s.gie := rfl
@[simp] theorem State.withWire_inHandler (v : List WireRecord) : (s.withWire v).inHandler = s.inHandler := rfl
@[simp] theorem State.withWire_phase (v : List WireRecord) : (s.withWire v).phase = s.phase := rfl
@[simp] theorem State.withWire_trace (v : List WireRecord) : (s.withWire v).trace = s.trace := rfl
@[simp] theorem State.withWire_wire (v : List WireRecord) : (s.withWire v).wire = v := rfl
@[simp] theorem State.withWire_ram (v : List WireRecord) : (s.withWire v).ram = s.ram := rfl
@[simp] theorem State.withWire_inputs (v : List WireRecord) : (s.withWire v).inputs = s.inputs := rfl
@[simp] theorem State.withWire_params (v : List WireRecord) : (s.withWire v).params = s.params := rfl

@[simp] theorem State.withRam_ctx (v : Memory) : (s.withRam v).ctx = s.ctx := rfl
@[simp] theorem State.withRam_dev (v : Memory) : (s.withRam v).dev = s.dev := rfl
@[simp] theorem State.withRam_rpt (v : Memory) : (s.withRam v).rpt = s.rpt := rfl
@[simp] theorem State.withRam_bd (v : Memory) : (s.withRam v).bd = s.bd := rfl
@[simp] theorem State.withRam_pktdis (v : Memory) : (s.withRam v).pktdis = s.pktdis := rfl
@[simp] theorem State.withRam_ip (v : Memory) : (s.withRam v).ip = s.ip := rfl
@[simp] theorem State.withRam_ie (v : Memory) : (s.withRam v).ie = s.ie := rfl
@[simp] theorem State.withRam_trnFifo (v : Memory) : (s.withRam v).trnFifo = s.trnFifo := rfl
@[simp] theorem State.withRam_errFlags (v : Memory) : (s.withRam v).errFlags = s.errFlags := rfl
@[simp] theorem State.withRam_suspended (v : Memory) : (s.withRam v).suspended = s.suspended := rfl
@[simp] theorem State.withRam_gie (v : Memory) : (s.withRam v).gie = s.gie := rfl
@[simp] theorem State.withRam_inHandler (v : Memory) : (s.withRam v).inHandler = s.inHandler := rfl
@[simp] theorem State.withRam_phase (v : Memory) : (s.withRam v).phase = s.phase := rfl
@[simp] theorem State.withRam_trace (v : Memory) : (s.withRam v).trace = s.trace := rfl
@[simp] theorem State.withRam_wire (v : Memory) : (s.withRam v).wire = s.wire := rfl
@[simp] theorem State.withRam_ram (v : Memory) : (s.withRam v).ram = v := rfl
@[simp] theorem State.withRam_inputs (v : Memory) : (s.withRam v).inputs = s.inputs := rfl
@[simp] theorem State.withRam_params (v : Memory) : (s.withRam v).params = s.params := rfl

@[simp] theorem State.withInputs_ctx (v : List Input) : (s.withInputs v).ctx = s.ctx := rfl
@[simp] theorem State.withInputs_dev (v : List Input) : (s.withInputs v).dev = s.dev := rfl
@[simp] theorem State.withInputs_rpt (v : List Input) : (s.withInputs v).rpt = s.rpt := rfl
@[simp] theorem State.withInputs_bd (v : List Input) : (s.withInputs v).bd = s.bd := rfl
@[simp] theorem State.withInputs_pktdis (v : List Input) : (s.withInputs v).pktdis = s.pktdis := rfl
@[simp] theorem State.withInputs_ip (v : List Input) : (s.withInputs v).ip = s.ip := rfl
@[simp] theorem State.withInputs_ie (v : List Input) : (s.withInputs v).ie = s.ie := rfl
@[simp] theorem State.withInputs_trnFifo (v : List Input) : (s.withInputs v).trnFifo = s.trnFifo := rfl
@[simp] theorem State.withInputs_errFlags (v : List Input) : (s.withInputs v).errFlags = s.errFlags := rfl
@[simp] theorem State.withInputs_suspended (v : List Input) : (s.withInputs v).suspended = s.suspended := rfl
@[simp] theorem State.withInputs_gie (v : List Input) : (s.withInputs v).gie = s.gie := rfl
@[simp] theorem State.withInputs_inHandler (v : List Input) : (s.withInputs v).inHandler = s.inHandler := rfl
@[simp] theorem State.withInputs_phase (v : List Input) : (s.withInputs v).phase = s.phase := rfl
@[simp] theorem State.withInputs_trace (v : List Input) : (s.withInputs v).trace = s.trace := rfl
@[simp] theorem State.withInputs_wire (v : List Input) : (s.withInputs v).wire = s.wire := rfl
@[simp] theorem State.withInputs_ram (v : List Input) : (s.withInputs v).ram = s.ram := rfl
@[simp] theorem State.withInputs_inputs (v : List Input) : (s.withInputs v).inputs = v := rfl
@[simp] theorem State.withInputs_params (v : List Input) : (s.withInputs v).params = s.params := rfl

@[simp] theorem State.withBdAt_ctx (b : BdIx) (d : BD) : (s.withBdAt b d).ctx = s.ctx := rfl
@[simp] theorem State.withBdAt_dev (b : BdIx) (d : BD) : (s.withBdAt b d).dev = s.dev := rfl
@[simp] theorem State.withBdAt_rpt (b : BdIx) (d : BD) : (s.withBdAt b d).rpt = s.rpt := rfl
@[simp] theorem State.withBdAt_bd (b : BdIx) (d : BD) : (s.withBdAt b d).bd = s.bd.set b d := rfl
@[simp] theorem State.withBdAt_pktdis (b : BdIx) (d : BD) : (s.withBdAt b d).pktdis = s.pktdis := rfl
@[simp] theorem State.withBdAt_ip (b : BdIx) (d : BD) : (s.withBdAt b d).ip = s.ip := rfl
@[simp] theorem State.withBdAt_ie (b : BdIx) (d : BD) : (s.withBdAt b d).ie = s.ie := rfl
@[simp] theorem State.withBdAt_trnFifo (b : BdIx) (d : BD) : (s.withBdAt b d).trnFifo = s.trnFifo := rfl
@[simp] theorem State.withBdAt_errFlags (b : BdIx) (d : BD) : (s.withBdAt b d).errFlags = s.errFlags := rfl
@[simp] theorem State.withBdAt_suspended (b : BdIx) (d : BD) : (s.withBdAt b d).suspended = s.suspended := rfl
@[simp] theorem State.withBdAt_gie (b : BdIx) (d : BD) : (s.withBdAt b d).gie = s.gie := rfl
@[simp] theorem State.withBdAt_inHandler (b : BdIx) (d : BD) : (s.withBdAt b d).inHandler = s.inHandler := rfl
@[simp] theorem State.withBdAt_phase (b : BdIx) (d : BD) : (s.withBdAt b d).phase = s.phase := rfl
@[simp] theorem State.withBdAt_trace (b : BdIx) (d : BD) : (s.withBdAt b d).trace = s.trace := rfl
@[simp] theorem State.withBdAt_wire (b : BdIx) (d : BD) : (s.withBdAt b d).wire = s.wire := rfl
@[simp] theorem State.withBdAt_ram (b : BdIx) (d : BD) : (s.withBdAt b d).ram = s.ram := rfl
@[simp] theorem State.withBdAt_inputs (b : BdIx) (d : BD) : (s.withBdAt b d).inputs = s.inputs := rfl
@[simp] theorem State.withBdAt_params (b : BdIx) (d : BD) : (s.withBdAt b d).params = s.params := rfl

end

@[simp] theorem BdFile.get_set_same (f : BdFile) (b : BdIx) (d : BD) : (f.set b d).get b = d := by cases b <;> rfl

theorem BdFile.get_set_other (f : BdFile) {b c : BdIx} (d : BD) (h : c ≠ b) : (f.set b d).get c = f.get c := by
  cases b <;> cases c <;> first | rfl | exact absurd rfl h

/-- Two files with the same four descriptors are equal. -/
theorem BdFile.ext_get {f g : BdFile} (h : ∀ b, f.get b = g.get b) : f = g := by
  cases f; cases g
  exact BdFile.mk.injEq .. ▸ ⟨h .ep0Out, h .ep0In, h .ep1Out, h .ep1In⟩

end Sys2Proof.Machine
end

