-- ==== Sys2Proof/Laws/Memory.lean ====
section
/-! SUPPORT. The laws of RAM: a read after a write, the canonical form, the bytes of an access. -/

namespace Sys2Proof.Machine

theorem Memory.read_erase (m : Memory) (a x : Nat) :
    (Memory.erase m a).read x = if x = a then Memory.unlisted else m.read x := by
  induction m with
  | nil => simp [Memory.erase, Memory.read]
  | cons c m ih =>
    obtain ⟨y, b⟩ := c
    simp only [Memory.erase, List.filter_cons] at ih ⊢
    by_cases hy : y = a
    · subst hy
      simp only [bne_self_eq_false, Bool.false_eq_true, if_false, ih, Memory.read]
      split
      · rfl
      · next hx => rw [if_neg (Ne.symm hx)]
    · simp only [bne_iff_ne, ne_eq, hy, not_false_eq_true, if_true, Memory.read, ih]
      grind

theorem Memory.read_insert (m : Memory) (a x : Nat) (b : Byte) :
    (Memory.insert m a b).read x = if x = a then b else m.read x := by
  induction m with
  | nil => simp only [Memory.insert, Memory.read]; grind
  | cons c m ih =>
    obtain ⟨y, d⟩ := c
    simp only [Memory.insert]
    split
    · simp only [Memory.read, ih]; grind
    · split <;> simp only [Memory.read] <;> grind

/-- Read after write. -/
theorem Memory.read_write (m : Memory) (a x : Nat) (b : Byte) :
    (m.write a b).read x = if x = a then b else m.read x := by
  unfold Memory.write
  split
  · next h => rw [Memory.read_erase, h]
  · exact Memory.read_insert m a x b

@[simp] theorem Memory.read_write_same (m : Memory) (a : Nat) (b : Byte) : (m.write a b).read a = b := by
  rw [Memory.read_write, if_pos rfl]

theorem Memory.read_write_other (m : Memory) {a x : Nat} (b : Byte) (h : x ≠ a) : (m.write a b).read x = m.read x := by
  rw [Memory.read_write, if_neg h]

theorem Memory.mem_insert {m : Memory} {a : Nat} {b : Byte} {c : Host.Cell} (h : c ∈ Memory.insert m a b) :
    c = (a, b) ∨ c ∈ m := by
  induction m with
  | nil => simpa [Memory.insert] using h
  | cons d m ih =>
    obtain ⟨y, e⟩ := d
    simp only [Memory.insert] at h
    split at h
    · rcases List.mem_cons.mp h with h | h
      · exact .inr (by simp [h])
      · exact (ih h).imp id (List.mem_cons_of_mem _)
    · split at h
      · exact (List.mem_cons.mp h).imp id (List.mem_cons_of_mem _)
      · exact List.mem_cons.mp h

theorem Memory.pairwise_insert {m : Memory} (a : Nat) (b : Byte) (h : m.Pairwise fun c d => c.1 < d.1) :
    (Memory.insert m a b).Pairwise fun c d => c.1 < d.1 := by
  induction m with
  | nil => simp [Memory.insert]
  | cons d m ih =>
    obtain ⟨y, e⟩ := d
    rw [List.pairwise_cons] at h
    simp only [Memory.insert]
    split
    · next hlt =>
      refine List.pairwise_cons.mpr ⟨fun c hc => ?_, ih h.2⟩
      rcases Memory.mem_insert hc with rfl | hc
      · exact hlt
      · exact h.1 c hc
    · split
      · next heq => exact List.pairwise_cons.mpr ⟨fun c hc => heq ▸ h.1 c hc, h.2⟩
      · refine List.pairwise_cons.mpr ⟨fun c hc => ?_, List.pairwise_cons.mpr h⟩
        rcases List.mem_cons.mp hc with rfl | hc
        · show a < y; omega
        · have := h.1 c hc
          show a < c.1
          simp only at this; omega

/-- Every write keeps the canonical form. -/
theorem Memory.wf_write {m : Memory} (h : m.wf) (a : Nat) (b : Byte) : (m.write a b).wf := by
  unfold Memory.write
  split
  · exact ⟨h.1.filter _, fun c hc => h.2 c (List.mem_of_mem_filter hc)⟩
  · next hb =>
    refine ⟨Memory.pairwise_insert a b h.1, fun c hc => ?_⟩
    rcases Memory.mem_insert hc with rfl | hc
    · exact hb
    · exact h.2 c hc

/-! ### One byte of the machine's RAM -/

@[simp] theorem State.putRamByte_params (s : State) (a : Nat) (v : Byte) : (s.putRamByte a v).params = s.params := by
  unfold State.putRamByte; split <;> rfl

/-- Storing one byte changes nothing but the descriptors and the RAM list. -/
theorem State.putRamByte_eq (s : State) (a : Nat) (v : Byte) :
    s.putRamByte a v = { s with bd := (s.putRamByte a v).bd, ram := (s.putRamByte a v).ram } := by
  unfold State.putRamByte; split <;> rfl

/-- Outside the BD table a store changes the RAM list alone. -/
theorem State.putRamByte_outside {s : State} {a : Nat} (h : inRegion (bdtRegion s.params) a = false) (v : Byte) :
    s.putRamByte a v = s.withRam (s.ram.write a v) := by
  simp [State.putRamByte, h]

theorem State.putRamByte_ram_wf {s : State} (h : s.ram.wf) (a : Nat) (v : Byte) : (s.putRamByte a v).ram.wf := by
  unfold State.putRamByte
  split
  · exact h
  · exact Memory.wf_write h _ _

/-! ### Bytes stored in order -/

@[simp] theorem State.pokeBytes_params (s : State) (a : Nat) (v : List Byte) : (s.pokeBytes a v).params = s.params := by
  induction v generalizing s a with
  | nil => rfl
  | cons b v ih => simp [State.pokeBytes, ih]

theorem State.pokeBytes_eq (s : State) (a : Nat) (v : List Byte) :
    s.pokeBytes a v = { s with bd := (s.pokeBytes a v).bd, ram := (s.pokeBytes a v).ram } := by
  induction v generalizing s a with
  | nil => rfl
  | cons b v ih =>
    simp only [State.pokeBytes]
    rw [ih, State.putRamByte_eq]

theorem State.pokeBytes_ram_wf {s : State} (h : s.ram.wf) (a : Nat) (v : List Byte) : (s.pokeBytes a v).ram.wf := by
  induction v generalizing s a with
  | nil => exact h
  | cons b v ih => exact ih (State.putRamByte_ram_wf h _ _) _

/-- A run of addresses that stays below `2 ^ PTR_W`. -/
theorem Params.wrap_eq {p : Params} {a : Nat} (h : a < 2 ^ p.ptrW) : p.wrap a = a := Nat.mod_eq_of_lt h

/-- Bytes stored outside the BD table, in a run that does not wrap: the descriptors stay, and RAM holds the bytes there. -/
theorem State.pokeBytes_outside {s : State} {a : Nat} {v : List Byte} (hw : a + v.length ≤ 2 ^ s.params.ptrW)
    (ho : ∀ k < v.length, inRegion (bdtRegion s.params) (a + k) = false) :
    (s.pokeBytes a v).bd = s.bd ∧
    ∀ x, (s.pokeBytes a v).ram.read x = if a ≤ x ∧ x < a + v.length then v.getD (x - a) 0 else s.ram.read x := by
  induction v generalizing s a with
  | nil => exact ⟨rfl, fun x => by rw [if_neg (by simp)]; rfl⟩
  | cons b v ih =>
    rw [List.length_cons] at hw ho
    have h0 : s.params.wrap a = a := Params.wrap_eq (by omega)
    have hp : s.putRamByte a b = s.withRam (s.ram.write a b) := State.putRamByte_outside (ho 0 (by omega)) b
    simp only [State.pokeBytes, h0, hp]
    obtain ⟨hb, hr⟩ := ih (s := s.withRam (s.ram.write a b)) (a := a + 1) (by simp; omega)
      (fun k hk => by
        have := ho (k + 1) (by omega)
        rwa [show a + (k + 1) = a + 1 + k by omega] at this)
    refine ⟨hb, fun x => ?_⟩
    rw [hr x, State.withRam_ram, Memory.read_write]
    by_cases hx : x = a
    · subst hx
      rw [if_neg (by omega), if_pos rfl, if_pos (by simp)]
      simp
    · rw [if_neg hx]
      by_cases hin : a + 1 ≤ x ∧ x < a + 1 + v.length
      · rw [if_pos hin, if_pos (by simp; omega)]
        obtain ⟨k, rfl⟩ : ∃ k, x = a + 1 + k := ⟨x - (a + 1), by omega⟩
        rw [show a + 1 + k - (a + 1) = k by omega, show a + 1 + k - a = k + 1 by omega]
        rfl
      · rw [if_neg hin, if_neg (by simp; omega)]

/-! ### Accesses with the region check -/

/-- A read answers the bytes exactly when every address is inside a region of its space. -/
theorem memRead_next_iff {s : State} {sp : Space} {a : Nat} {n : Nat} {v : List Byte} :
    memRead s sp a n = .next v ↔ (∀ x ∈ s.params.addrs a n, inSpace s.params sp x = true) ∧ v = s.peekBytes sp a n := by
  unfold memRead
  cases hf : (s.params.addrs a n).find? fun x => !inSpace s.params sp x with
  | some x =>
    have h1 := List.find?_some hf
    have h2 := List.mem_of_find?_eq_some hf
    simp only [reduceCtorEq, false_iff, not_and]
    intro h
    simp [h x h2] at h1
  | none =>
    rw [List.find?_eq_none] at hf
    simp only [Host.Outcome.next.injEq]
    constructor
    · intro h; exact ⟨fun x hx => by simpa using hf x hx, h.symm⟩
    · intro h; exact h.2.symm

/-- A write stores the bytes exactly when every address is inside a region of RAM. -/
theorem memWrite_next_iff {s : State} {a : Nat} {v : List Byte} {t : State} :
    memWrite s a v = .next t ↔
      (∀ x ∈ s.params.addrs a v.length, inSpace s.params .ram x = true) ∧ t = s.pokeBytes a v := by
  unfold memWrite
  cases hf : (s.params.addrs a v.length).find? fun x => !inSpace s.params .ram x with
  | some x =>
    have h1 := List.find?_some hf
    have h2 := List.mem_of_find?_eq_some hf
    simp only [reduceCtorEq, false_iff, not_and]
    intro h
    simp [h x h2] at h1
  | none =>
    rw [List.find?_eq_none] at hf
    simp only [Host.Outcome.next.injEq]
    constructor
    · intro h; exact ⟨fun x hx => by simpa using hf x hx, h.symm⟩
    · intro h; exact h.2.symm

/-- The addresses of an access that does not wrap. -/
theorem Params.addrs_eq {p : Params} {a n : Nat} (h : a + n ≤ 2 ^ p.ptrW) :
    p.addrs a n = (List.range n).map fun k => a + k := by
  unfold Params.addrs
  apply List.map_congr_left
  intro k hk
  rw [List.mem_range] at hk
  exact Params.wrap_eq (by omega)

@[simp] theorem Params.addrs_length (p : Params) (a n : Nat) : (p.addrs a n).length = n := by simp [Params.addrs]

@[simp] theorem State.peekBytes_length (s : State) (sp : Space) (a n : Nat) : (s.peekBytes sp a n).length = n := by
  simp [State.peekBytes]

/-- The bytes of an access that does not wrap. -/
theorem State.peekBytes_eq {s : State} {a n : Nat} (sp : Space) (h : a + n ≤ 2 ^ s.params.ptrW) :
    s.peekBytes sp a n = (List.range n).map fun k => s.byteAt sp (a + k) := by
  rw [State.peekBytes, Params.addrs_eq h, List.map_map]
  rfl

end Sys2Proof.Machine
end

