-- ==== Sys2Proof/Laws/Params.lean ====
section
/-! SUPPORT. What a well-formed parameter set says: the layout of RAM and ROM, and which runs of addresses an access may touch. -/

namespace Sys2Proof.Machine

theorem pairwiseDisjoint_iff (l : List Region) : pairwiseDisjoint l = true ↔ l.Pairwise fun r q => r.disjoint q = true := by
  induction l with
  | nil => simp [pairwiseDisjoint]
  | cons r l ih => simp [pairwiseDisjoint, ih, List.pairwise_cons]

theorem regionsOf_disjoint {p : Params} (h : p.wf = true) (sp : Space) :
    (regionsOf p sp).Pairwise fun r q => r.disjoint q = true := by
  simp only [Params.wf, Bool.and_eq_true] at h
  cases sp
  · exact (pairwiseDisjoint_iff _).mp h.1.1.1.1.1.1.1.1.1.1.1.1
  · exact (pairwiseDisjoint_iff _).mp h.1.1.1.1.1.1.1.1.1.1.1.2

theorem regionsOf_fits {p : Params} (h : p.wf = true) {sp : Space} {r : Region} (hr : r ∈ regionsOf p sp) :
    r.base + r.len ≤ 2 ^ p.ptrW := by
  simp only [Params.wf, Bool.and_eq_true, List.all_eq_true] at h
  cases sp
  · simpa [Region.fits] using h.1.1.1.1.1.1.1.1.1.1.2 r hr
  · simpa [Region.fits] using h.1.1.1.1.1.1.1.1.1.2 r hr

theorem Params.string_ok {p : Params} (h : p.wf = true) (i : BitVec 2) : (p.string i).ok = true := by
  simp only [Params.wf, Bool.and_eq_true] at h
  unfold Params.string
  split
  · exact h.1.1.1.1.1.1.1.1.2
  · split
    · exact h.1.1.1.1.1.1.1.2
    · split
      · exact h.1.1.1.1.1.1.2
      · exact h.1.1.1.1.1.2

theorem Params.string_len_le {p : Params} (h : p.wf = true) (i : BitVec 2) : (p.string i).len ≤ 254 := by
  have := Params.string_ok h i
  simp only [StringEntry.ok, Bool.and_eq_true, decide_eq_true_eq] at this
  exact this.2

theorem Params.rpt_length {p : Params} (h : p.wf = true) : p.rpt.length = 60 := by
  simp only [Params.wf, Bool.and_eq_true, decide_eq_true_eq] at h
  exact h.1.1.1.1.2

theorem Params.depth_pos {p : Params} (h : p.wf = true) : 1 ≤ p.trnFifoDepth := by
  simp only [Params.wf, Bool.and_eq_true, decide_eq_true_eq] at h
  exact h.1.1.1.2

/-- The RAM regions as inequalities (20_memory.md R67). -/
theorem Params.ram_layout {p : Params} (h : p.wf = true) :
    (p.bdtBase + 16 ≤ 2 ^ p.ptrW ∧ p.ep0OutBuf + 8 ≤ 2 ^ p.ptrW ∧ p.ep0InBuf + 8 ≤ 2 ^ p.ptrW ∧ p.ep1InBuf + 8 ≤ 2 ^ p.ptrW ∧
      p.addrConfig + 1 ≤ 2 ^ p.ptrW ∧ p.addrReport + 2 ≤ 2 ^ p.ptrW) ∧
    (p.bdtBase + 16 ≤ p.ep0OutBuf ∨ p.ep0OutBuf + 8 ≤ p.bdtBase) ∧
    (p.bdtBase + 16 ≤ p.ep0InBuf ∨ p.ep0InBuf + 8 ≤ p.bdtBase) ∧
    (p.bdtBase + 16 ≤ p.ep1InBuf ∨ p.ep1InBuf + 8 ≤ p.bdtBase) ∧
    (p.bdtBase + 16 ≤ p.addrConfig ∨ p.addrConfig + 1 ≤ p.bdtBase) ∧
    (p.bdtBase + 16 ≤ p.addrReport ∨ p.addrReport + 2 ≤ p.bdtBase) ∧
    (p.ep0OutBuf + 8 ≤ p.ep0InBuf ∨ p.ep0InBuf + 8 ≤ p.ep0OutBuf) ∧
    (p.ep0OutBuf + 8 ≤ p.ep1InBuf ∨ p.ep1InBuf + 8 ≤ p.ep0OutBuf) ∧
    (p.ep0OutBuf + 8 ≤ p.addrConfig ∨ p.addrConfig + 1 ≤ p.ep0OutBuf) ∧
    (p.ep0OutBuf + 8 ≤ p.addrReport ∨ p.addrReport + 2 ≤ p.ep0OutBuf) ∧
    (p.ep0InBuf + 8 ≤ p.ep1InBuf ∨ p.ep1InBuf + 8 ≤ p.ep0InBuf) ∧
    (p.ep0InBuf + 8 ≤ p.addrConfig ∨ p.addrConfig + 1 ≤ p.ep0InBuf) ∧
    (p.ep0InBuf + 8 ≤ p.addrReport ∨ p.addrReport + 2 ≤ p.ep0InBuf) ∧
    (p.ep1InBuf + 8 ≤ p.addrConfig ∨ p.addrConfig + 1 ≤ p.ep1InBuf) ∧
    (p.ep1InBuf + 8 ≤ p.addrReport ∨ p.addrReport + 2 ≤ p.ep1InBuf) ∧
    (p.addrConfig + 1 ≤ p.addrReport ∨ p.addrReport + 2 ≤ p.addrConfig) := by
  have hd := regionsOf_disjoint h .ram
  have hf := fun r hr => regionsOf_fits (sp := .ram) (r := r) h hr
  simp only [regionsOf, Params.ramRegions, List.pairwise_cons, List.mem_cons, List.not_mem_nil, or_false, forall_eq_or_imp,
    forall_eq, Region.disjoint, decide_eq_true_eq] at hd hf
  obtain ⟨⟨h1, h2, h3, h4, h5⟩, ⟨h6, h7, h8, h9⟩, ⟨h10, h11, h12⟩, ⟨h13, h14⟩, h15, -⟩ := hd
  exact ⟨hf, h1, h2, h3, h4, h5, h6, h7, h8, h9, h10, h11, h12, h13, h14, h15⟩

/-! ### Runs of addresses -/

theorem inSpace_of_inside {p : Params} {sp : Space} {a n : Nat} (h : insideRegion p sp a n) {k : Nat} (hk : k < n) :
    inSpace p sp (a + k) = true := by
  obtain ⟨r, hr, h1, h2⟩ := h
  cases sp <;>
  · simp only [regionsOf] at hr
    simp only [inSpace, List.any_eq_true]
    exact ⟨r, hr, by simp only [inRegion, decide_eq_true_eq]; omega⟩

theorem insideRegion.fits {p : Params} (hw : p.wf = true) {sp : Space} {a n : Nat} (h : insideRegion p sp a n) :
    a + n ≤ 2 ^ p.ptrW := by
  obtain ⟨r, hr, h1, h2⟩ := h
  have := regionsOf_fits hw hr
  omega

/-- A part of a run lies where the run lies. -/
theorem insideRegion.part {p : Params} {sp : Space} {a n b m : Nat} (h : insideRegion p sp a n) (h1 : a ≤ b)
    (h2 : b + m ≤ a + n) : insideRegion p sp b m := by
  obtain ⟨r, hr, h3, h4⟩ := h
  exact ⟨r, hr, by omega, by omega⟩

theorem insideRegion_ep0Out (p : Params) {n : Nat} (h : n ≤ 8) : insideRegion p .ram p.ep0OutBuf n :=
  ⟨⟨p.ep0OutBuf, 8⟩, by simp [regionsOf, Params.ramRegions], Nat.le_refl _, Nat.add_le_add_left h _⟩

theorem insideRegion_ep0In (p : Params) {n : Nat} (h : n ≤ 8) : insideRegion p .ram p.ep0InBuf n :=
  ⟨⟨p.ep0InBuf, 8⟩, by simp [regionsOf, Params.ramRegions], Nat.le_refl _, Nat.add_le_add_left h _⟩

theorem insideRegion_ep1In (p : Params) {n : Nat} (h : n ≤ 8) : insideRegion p .ram p.ep1InBuf n :=
  ⟨⟨p.ep1InBuf, 8⟩, by simp [regionsOf, Params.ramRegions], Nat.le_refl _, Nat.add_le_add_left h _⟩

theorem insideRegion_config (p : Params) {n : Nat} (h : n ≤ 1) : insideRegion p .ram p.addrConfig n :=
  ⟨⟨p.addrConfig, 1⟩, by simp [regionsOf, Params.ramRegions], Nat.le_refl _, Nat.add_le_add_left h _⟩

theorem insideRegion_report (p : Params) {n : Nat} (h : n ≤ 2) : insideRegion p .ram p.addrReport n :=
  ⟨⟨p.addrReport, 2⟩, by simp [regionsOf, Params.ramRegions], Nat.le_refl _, Nat.add_le_add_left h _⟩

theorem insideRegion_device (p : Params) {n : Nat} (h : n ≤ 18) : insideRegion p .rom p.romDevice n :=
  ⟨⟨p.romDevice, devDescLen⟩, by simp [regionsOf, Params.romRegions], Nat.le_refl _, Nat.add_le_add_left h _⟩

theorem insideRegion_romConfig (p : Params) {a n : Nat} (h1 : p.romConfig ≤ a) (h : a + n ≤ p.romConfig + 34) :
    insideRegion p .rom a n :=
  ⟨⟨p.romConfig, cfgDescLen⟩, by simp [regionsOf, Params.romRegions], h1, h⟩

theorem insideRegion_romReport (p : Params) {n : Nat} (h : n ≤ 60) : insideRegion p .rom p.romReport n :=
  ⟨⟨p.romReport, rptDescLen⟩, by simp [regionsOf, Params.romRegions], Nat.le_refl _, Nat.add_le_add_left h _⟩

theorem insideRegion_string (p : Params) (i : BitVec 2) {n : Nat} (h : n ≤ (p.string i).len) :
    insideRegion p .rom (p.string i).addr n := by
  refine ⟨⟨(p.string i).addr, (p.string i).len⟩, ?_, Nat.le_refl _, Nat.add_le_add_left h _⟩
  simp only [regionsOf, Params.romRegions, Params.string, List.mem_cons, List.not_mem_nil, or_false]
  split
  · simp
  · split
    · simp
    · split <;> simp

/-! ### The BD table as bytes -/

theorem inRegion_bdt {p : Params} {a : Nat} : inRegion (bdtRegion p) a = true ↔ p.bdtBase ≤ a ∧ a < p.bdtBase + 16 :=
  decide_eq_true_iff

/-- The BD table's bytes are the bytes of the four descriptors. -/
theorem inRegion_bdt_iff {p : Params} {a : Nat} : inRegion (bdtRegion p) a = true ↔ ∃ b, inBd p b a := by
  rw [inRegion_bdt]
  constructor
  · intro h
    by_cases h1 : a < p.bdtBase + 4
    · exact ⟨.ep0Out, by simp only [inBd, inRun, BdIx.number]; omega⟩
    · by_cases h2 : a < p.bdtBase + 8
      · exact ⟨.ep0In, by simp only [inBd, inRun, BdIx.number]; omega⟩
      · by_cases h3 : a < p.bdtBase + 12
        · exact ⟨.ep1Out, by simp only [inBd, inRun, BdIx.number]; omega⟩
        · exact ⟨.ep1In, by simp only [inBd, inRun, BdIx.number]; omega⟩
  · rintro ⟨b, h⟩
    cases b <;> simp only [inBd, inRun, BdIx.number] at h <;> omega

/-- The descriptor an address of the BD table belongs to. -/
theorem bdOfOffset_of_inBd {p : Params} {b : BdIx} {a : Nat} (h : inBd p b a) : bdOfOffset (a - p.bdtBase) = b := by
  cases b <;> simp only [inBd, inRun, BdIx.number] at h <;> simp only [bdOfOffset]
  · rw [if_pos (by omega)]
  · rw [if_neg (by omega), if_pos (by omega)]
  · rw [if_neg (by omega), if_neg (by omega), if_pos (by omega)]
  · rw [if_neg (by omega), if_neg (by omega), if_neg (by omega)]

/-- Outside the BD table a byte of RAM is the listed byte. -/
theorem State.ramByte_outside {s : State} {a : Nat} (h : inRegion (bdtRegion s.params) a = false) : s.ramByte a = s.ram.read a := by
  simp [State.ramByte, h]

/-- Outside the BD table two states with the same RAM list read alike. -/
theorem State.ramByte_congr {s t : State} {a : Nat} (h : inRegion (bdtRegion s.params) a = false) (hp : t.params = s.params)
    (hr : t.ram = s.ram) : t.ramByte a = s.ramByte a := by
  rw [State.ramByte_outside h, State.ramByte_outside (by rw [hp]; exact h), hr]

/-- Inside the BD table a byte of RAM is a byte of its descriptor. -/
theorem State.ramByte_inBd {s : State} {b : BdIx} {a : Nat} (h : inBd s.params b a) :
    s.ramByte a = (s.bdAt b).byte ((a - s.params.bdtBase) % 4) := by
  have hr : inRegion (bdtRegion s.params) a = true := inRegion_bdt_iff.mpr ⟨b, h⟩
  simp only [State.ramByte, hr, if_true, bdOfOffset_of_inBd h]

/-- The bytes of two states agree where their RAM lists and their descriptors agree. -/
theorem sameBytesExcept_of {s t : State} {changed : Nat → Prop} (hp : t.params = s.params)
    (hr : ∀ a, ¬ changed a → (∀ b, ¬ inBd s.params b a) → t.ram.read a = s.ram.read a)
    (hb : ∀ b a, ¬ changed a → inBd s.params b a → t.bdAt b = s.bdAt b) : sameBytesExcept s t changed := by
  intro a ha
  by_cases h : ∃ b, inBd s.params b a
  · obtain ⟨b, hab⟩ := h
    rw [State.ramByte_inBd hab, State.ramByte_inBd (s := t) (by rw [hp]; exact hab), hb b a ha hab, hp]
  · have hin : inRegion (bdtRegion s.params) a = false := by
      rw [Bool.eq_false_iff]; intro hc; exact h (inRegion_bdt_iff.mp hc)
    rw [State.ramByte_outside hin, State.ramByte_outside (s := t) (by rw [hp]; exact hin),
      hr a ha (fun b hab => h ⟨b, hab⟩)]

end Sys2Proof.Machine
end

