-- ==== Sys2Proof/Laws/Ops.lean ====
section
/-! SUPPORT. One lemma per shared operation, saying once everything it does: reads, writes and copies inside the regions, the arms, the
IN data arm, the epilogue, the end of an endpoint-0 event, TRANSMIT_REPORT. -/

namespace Sys2Proof.Machine

/-! ### Sequencing -/

@[simp] theorem andThen_next {α β : Type} (a : α) (f : α → Result β) : andThen (.next a) f = f a := rfl
@[simp] theorem andThen_fault {α β : Type} (e : Fault) (f : α → Result β) : andThen (.fault e) f = .fault e := rfl
@[simp] theorem andThen_refused {α β : Type} (e : Refusal) (f : α → Result β) : andThen (.refused e) f = .refused e := rfl

theorem andThen_eq_next {α β : Type} {r : Result α} {f : α → Result β} {b : β} :
    andThen r f = .next b ↔ ∃ a, r = .next a ∧ f a = .next b := by
  cases r <;> simp [andThen]

theorem andThen_eq_fault {α β : Type} {r : Result α} {f : α → Result β} {e : Fault} :
    andThen r f = .fault e ↔ r = .fault e ∨ ∃ a, r = .next a ∧ f a = .fault e := by
  cases r <;> simp [andThen]

theorem andThen_eq_refused {α β : Type} {r : Result α} {f : α → Result β} {e : Refusal} :
    andThen r f = .refused e ↔ r = .refused e ∨ ∃ a, r = .next a ∧ f a = .refused e := by
  cases r <;> simp [andThen]

/-! ### Runs clear of the BD table -/

/-- None of the `n` bytes at `a` belongs to a descriptor. -/
def clearOfBds (p : Params) (a n : Nat) : Prop := a + n ≤ p.bdtBase ∨ p.bdtBase + 16 ≤ a

theorem clearOfBds.not_inRegion {p : Params} {a n : Nat} (h : clearOfBds p a n) {k : Nat} (hk : k < n) :
    inRegion (bdtRegion p) (a + k) = false := by
  rw [Bool.eq_false_iff]
  intro hc
  rw [inRegion_bdt] at hc
  unfold clearOfBds at h
  omega

theorem clearOfBds.not_inBd {p : Params} {a n x : Nat} (h : clearOfBds p a n) (hx : inRun a n x) (b : BdIx) : ¬ inBd p b x := by
  intro hb
  have := inRegion_bdt.mp (inRegion_bdt_iff.mpr ⟨b, hb⟩)
  unfold clearOfBds at h
  unfold inRun at hx
  omega

theorem clearOfBds_ep0Out {p : Params} (hw : p.wf = true) {n : Nat} (hn : n ≤ 8) : clearOfBds p p.ep0OutBuf n := by
  have := Params.ram_layout hw; unfold clearOfBds; omega
theorem clearOfBds_ep0In {p : Params} (hw : p.wf = true) {n : Nat} (hn : n ≤ 8) : clearOfBds p p.ep0InBuf n := by
  have := Params.ram_layout hw; unfold clearOfBds; omega
theorem clearOfBds_ep1In {p : Params} (hw : p.wf = true) {n : Nat} (hn : n ≤ 8) : clearOfBds p p.ep1InBuf n := by
  have := Params.ram_layout hw; unfold clearOfBds; omega
theorem clearOfBds_config {p : Params} (hw : p.wf = true) {n : Nat} (hn : n ≤ 1) : clearOfBds p p.addrConfig n := by
  have := Params.ram_layout hw; unfold clearOfBds; omega
theorem clearOfBds_report {p : Params} (hw : p.wf = true) {n : Nat} (hn : n ≤ 2) : clearOfBds p p.addrReport n := by
  have := Params.ram_layout hw; unfold clearOfBds; omega

/-! ### Reads, writes, copies -/

/-- A read inside one region answers its bytes in order (00_scope.md R10). -/
theorem memRead_inside {s : State} {sp : Space} {a n : Nat} (hw : s.params.wf = true) (h : insideRegion s.params sp a n) :
    memRead s sp a n = .next ((List.range n).map fun k => s.byteAt sp (a + k)) := by
  have hf := h.fits hw
  rw [memRead_next_iff]
  refine ⟨?_, (State.peekBytes_eq sp hf).symm⟩
  rw [Params.addrs_eq hf]
  intro x hx
  obtain ⟨k, hk, rfl⟩ := List.mem_map.mp hx
  exact inSpace_of_inside h (List.mem_range.mp hk)

/-- A write inside one region of RAM other than the BD table stores its bytes and nothing else (00_scope.md R10). -/
theorem memWrite_inside {s : State} {a : Nat} {v : List Byte} (hw : s.params.wf = true)
    (h : insideRegion s.params .ram a v.length) (hc : clearOfBds s.params a v.length) :
    ∃ t, memWrite s a v = .next t ∧ t = { s with ram := t.ram } ∧ (∀ k, k < v.length → t.ramByte (a + k) = v.getD k 0) ∧
      sameBytesExcept s t (inRun a v.length) ∧ (s.ram.wf → t.ram.wf) := by
  have hf := h.fits hw
  obtain ⟨hb, hr⟩ := State.pokeBytes_outside (s := s) (a := a) (v := v) hf (fun k hk => hc.not_inRegion hk)
  refine ⟨s.pokeBytes a v, ?_, ?_, ?_, ?_, fun hm => State.pokeBytes_ram_wf hm a v⟩
  · rw [memWrite_next_iff]
    refine ⟨?_, rfl⟩
    rw [Params.addrs_eq hf]
    intro x hx
    obtain ⟨k, hk, rfl⟩ := List.mem_map.mp hx
    exact inSpace_of_inside h (List.mem_range.mp hk)
  · rw [State.pokeBytes_eq, hb]
  · intro k hk
    rw [State.ramByte_outside (by rw [State.pokeBytes_params]; exact hc.not_inRegion hk), hr, if_pos (by omega)]
    congr 1
    omega
  · refine sameBytesExcept_of (State.pokeBytes_params s a v) (fun x hx _ => ?_) (fun b x _ _ => ?_)
    · unfold inRun at hx
      rw [hr, if_neg hx]
    · simp only [State.bdAt, hb]

/-- A copy inside the regions (00_scope.md R10). -/
theorem copy_inside {s : State} {sp : Space} {src dst n : Nat} (hw : s.params.wf = true) (hs : insideRegion s.params sp src n)
    (hd : insideRegion s.params .ram dst n) (hc : clearOfBds s.params dst n) :
    ∃ t, copy s sp src dst n = .next t ∧ t = { s with ram := t.ram } ∧
      (∀ k, k < n → t.ramByte (dst + k) = s.byteAt sp (src + k)) ∧ sameBytesExcept s t (inRun dst n) ∧
      (s.ram.wf → t.ram.wf) := by
  have hl : ((List.range n).map fun k => s.byteAt sp (src + k)).length = n := by simp
  obtain ⟨t, h1, h2, h3, h4, h5⟩ := memWrite_inside (s := s) (a := dst)
    (v := (List.range n).map fun k => s.byteAt sp (src + k)) hw (by rw [hl]; exact hd) (by rw [hl]; exact hc)
  rw [hl] at h3 h4
  refine ⟨t, ?_, h2, fun k hk => ?_, h4, h5⟩
  · rw [copy, memRead_inside hw hs, andThen_next, h1]
  · rw [h3 k hk, List.getD_eq_getElem?_getD, List.getElem?_map, List.getElem?_range hk]
    rfl

/-- Every store keeps the canonical form of RAM. -/
theorem memWrite_ram_wf {s t : State} {a : Nat} {v : List Byte} (h : memWrite s a v = .next t) (hm : s.ram.wf) : t.ram.wf := by
  rw [memWrite_next_iff] at h
  rw [h.2]
  exact State.pokeBytes_ram_wf hm a v

/-- A store changes the RAM list and the descriptors alone. -/
theorem memWrite_eq {s t : State} {a : Nat} {v : List Byte} (h : memWrite s a v = .next t) :
    t = { s with bd := t.bd, ram := t.ram } := by
  rw [memWrite_next_iff] at h
  rw [h.2]
  exact State.pokeBytes_eq s a v

theorem copy_eq {s t : State} {sp : Space} {src dst n : Nat} (h : copy s sp src dst n = .next t) :
    t = { s with bd := t.bd, ram := t.ram } := by
  obtain ⟨v, -, hv⟩ := andThen_eq_next.mp h
  exact memWrite_eq hv

theorem copy_ram_wf {s t : State} {sp : Space} {src dst n : Nat} (h : copy s sp src dst n = .next t) (hm : s.ram.wf) :
    t.ram.wf := by
  obtain ⟨v, -, hv⟩ := andThen_eq_next.mp h
  exact memWrite_ram_wf hv hm

/-! ### The shared forms -/

theorem clearTrn_eq (s : State) : clearTrn s = { s with trnFifo := s.trnFifo.tail, ip := trnCleared s } := by
  unfold clearTrn trnCleared
  cases s.trnFifo.tail <;> rfl

theorem arm_eq (d : BD) (count : BitVec 8) (addr : Nat) (stall dtsen dts : Bool) :
    d.arm count addr stall dtsen dts = armed d count addr stall dtsen dts := rfl

/-- Bytes of RAM after a change that leaves RAM's list alone and touches the descriptors named only. -/
theorem sameBytesExcept_bds {s t : State} {changed : Nat → Prop} (hp : t.params = s.params) (hr : t.ram = s.ram)
    (hb : ∀ b, t.bdAt b = s.bdAt b ∨ ∀ a, inBd s.params b a → changed a) : sameBytesExcept s t changed :=
  sameBytesExcept_of hp (fun _ _ _ => by rw [hr]) fun b a ha hab => (hb b).resolve_right fun h => ha (h a hab)

theorem sameBytesExcept.trans {s t u : State} {c d e : Nat → Prop} (h1 : sameBytesExcept s t c) (h2 : sameBytesExcept t u d)
    (hc : ∀ a, c a → e a) (hd : ∀ a, d a → e a) : sameBytesExcept s u e := fun a ha => by
  rw [h2 a (fun h => ha (hd a h)), h1 a (fun h => ha (hc a h))]

/-- The IN data arm from a specified source inside a region (41_ep0_control_engine.md R165). -/
theorem armInData_at {s : State} {a : Nat} (hw : s.params.wf = true) (hd : s.ctx.data = .at a)
    (hi : insideRegion s.params s.ctx.mclass a (packetSize s.ctx.remaining)) :
    ∃ t, armInData s = .next t ∧
      t = { s with
            ctx := { s.ctx with data := .at (s.params.wrap (a + packetSize s.ctx.remaining)),
                                remaining := s.ctx.remaining - BitVec.ofNat 16 (packetSize s.ctx.remaining) }
            bd := { s.bd with ep0In := armed s.bd.ep0In (BitVec.ofNat 8 (packetSize s.ctx.remaining)) s.params.ep0InBuf false true
                                         s.ctx.nextToggle }
            ram := t.ram } ∧
      (∀ k, k < packetSize s.ctx.remaining → t.ramByte (s.params.ep0InBuf + k) = s.byteAt s.ctx.mclass (a + k)) ∧
      sameBytesExcept s t (fun x => inRun s.params.ep0InBuf (packetSize s.ctx.remaining) x ∨ inBd s.params .ep0In x) ∧
      (s.ram.wf → t.ram.wf) := by
  have hn : packetSize s.ctx.remaining ≤ 8 := Nat.min_le_right _ _
  obtain ⟨u, h1, h2, h3, h4, h5⟩ := copy_inside hw hi (insideRegion_ep0In s.params hn) (clearOfBds_ep0In hw hn)
  obtain ⟨m, rfl⟩ : ∃ m, u = { s with ram := m } := ⟨u.ram, h2⟩
  refine ⟨{ s with
            ctx := { s.ctx with data := .at (s.params.wrap (a + packetSize s.ctx.remaining)),
                                remaining := s.ctx.remaining - BitVec.ofNat 16 (packetSize s.ctx.remaining) }
            bd := { s.bd with ep0In := armed s.bd.ep0In (BitVec.ofNat 8 (packetSize s.ctx.remaining)) s.params.ep0InBuf false true
                                         s.ctx.nextToggle }
            ram := m }, ?_, rfl, ?_, ?_, h5⟩
  · simp only [armInData, copyFromSource, hd, h1, andThen_next]
    simp only [State.withCtx, State.withBdAt, State.withBd, State.bdAt, BdFile.get, BdFile.set, arm_eq, hd, Pointer.advance]
  · intro k hk
    rw [← h3 k hk]
    have hc := (clearOfBds_ep0In hw hn).not_inRegion hk
    exact State.ramByte_congr hc rfl rfl
  · refine sameBytesExcept.trans h4 (d := inBd s.params .ep0In) (sameBytesExcept_bds rfl rfl fun b => ?_)
      (fun _ h => .inl h) (fun _ h => .inr h)
    cases b
    · exact .inl rfl
    · exact .inr fun x hx => hx
    · exact .inl rfl
    · exact .inl rfl

/-- A pointer of PTR_W bits does not move by 0 (41_ep0_control_engine.md R165). -/
theorem Pointer.advance_zero {p : Params} {d : Pointer} (h : ∀ a, d = .at a → a < 2 ^ p.ptrW) : d.advance p 0 = d :=
  match d, h with
  | .unspecified, _ => rfl
  | .at a, h => by simp only [Pointer.advance, Nat.add_zero, Params.wrap_eq (h a rfl)]

theorem copy_zero (s : State) (sp : Space) (src dst : Nat) : copy s sp src dst 0 = .next s := rfl

/-- The IN data arm with nothing to send: no byte is copied and nothing is dereferenced (41_ep0_control_engine.md R165). -/
theorem armInData_zero {s : State} (hr : s.ctx.remaining = 0) (hp : ∀ a, s.ctx.data = .at a → a < 2 ^ s.params.ptrW) :
    armInData s = .next { s with
      bd := { s.bd with ep0In := armed s.bd.ep0In 0 s.params.ep0InBuf false true s.ctx.nextToggle } } := by
  have h0 : packetSize s.ctx.remaining = 0 := by rw [hr]; decide
  have hc : copyFromSource s 0 = .next s := by
    unfold copyFromSource
    cases s.ctx.data <;> rfl
  simp only [armInData, h0, hc, andThen_next, State.withCtx, State.withBdAt, State.withBd, State.bdAt, BdFile.get, BdFile.set,
    arm_eq, Pointer.advance_zero hp, BitVec.ofNat_eq_ofNat, BitVec.sub_zero]

/-- ARM_OUT_STATUS after the IN data arm, and the clear of the TRN condition: a packet is sent (41_ep0_control_engine.md R163). -/
theorem finishEp0_in {s : State} {a : Nat} (hw : s.params.wf = true) (hk : s.ctx.kind = .ctlIn) (hd : s.ctx.data = .at a)
    (hi : insideRegion s.params s.ctx.mclass a (packetSize s.ctx.remaining)) :
    ∃ t, finishEp0 false s = .next t ∧
      sendsPacket s t s.pktdis s.ctx.mclass a (packetSize s.ctx.remaining)
        (s.ctx.remaining.toNat - packetSize s.ctx.remaining) s.ctx.nextToggle ∧
      (s.ram.wf → t.ram.wf) := by
  obtain ⟨u, h1, h2, h3, h4, h5⟩ := armInData_at hw hd hi
  have hn : packetSize s.ctx.remaining ≤ 8 := Nat.min_le_right _ _
  have hsub : s.ctx.remaining - BitVec.ofNat 16 (packetSize s.ctx.remaining) =
      BitVec.ofNat 16 (s.ctx.remaining.toNat - packetSize s.ctx.remaining) := by
    have hle : packetSize s.ctx.remaining ≤ s.ctx.remaining.toNat := Nat.min_le_left _ _
    apply BitVec.eq_of_toNat_eq
    have := s.ctx.remaining.isLt
    simp only [BitVec.toNat_sub, BitVec.toNat_ofNat]
    omega
  rw [hsub] at h2
  have hfin : finishEp0 false s = .next (clearTrn (armOutStatus u)) := by
    simp only [finishEp0, epilogue, Bool.false_eq_true, if_false, hk, h1, andThen_next]
  rw [clearTrn_eq] at hfin
  obtain ⟨m, rfl⟩ : ∃ m, u = { s with
      ctx := { s.ctx with data := .at (s.params.wrap (a + packetSize s.ctx.remaining)),
                          remaining := BitVec.ofNat 16 (s.ctx.remaining.toNat - packetSize s.ctx.remaining) }
      bd := { s.bd with ep0In := armed s.bd.ep0In (BitVec.ofNat 8 (packetSize s.ctx.remaining)) s.params.ep0InBuf false true
                                   s.ctx.nextToggle }
      ram := m } := ⟨u.ram, h2⟩
  refine ⟨_, hfin, ⟨?_, ?_, ?_, rfl⟩, h5⟩
  · rw [← hk]
    rfl
  · intro k hk'
    rw [← h3 k hk']
    have hc := (clearOfBds_ep0In hw hn).not_inRegion hk'
    exact State.ramByte_congr hc rfl rfl
  · refine sameBytesExcept.trans h4 (d := inBd s.params .ep0Out) (sameBytesExcept_bds rfl rfl fun b => ?_)
      (fun x h => h.elim .inl fun h => .inr (.inl h)) (fun x h => .inr (.inr h))
    cases b
    · exact .inr fun x hx => hx
    · exact .inl rfl
    · exact .inl rfl
    · exact .inl rfl

/-- The end of an endpoint-0 event while no transfer is in flight (41_ep0_control_engine.md R163). -/
theorem finishEp0_none {s : State} (hk : s.ctx.kind = .none) : finishEp0 false s = .next (awaitsSetup s) := by
  simp only [finishEp0, epilogue, Bool.false_eq_true, if_false, hk, andThen_next, clearTrn_eq]
  rfl

/-- The end of an endpoint-0 event of an OUT-kind transfer (41_ep0_control_engine.md R163). -/
theorem finishEp0_out {s : State} (hk : s.ctx.kind = .ctlOut) : finishEp0 false s = .next (awaitsOut s) := by
  simp only [finishEp0, epilogue, Bool.false_eq_true, if_false, hk, andThen_next, clearTrn_eq]
  rfl

/-- The end of a SETUP event that stalled (41_ep0_control_engine.md R163). -/
theorem finishEp0_stalled (s : State) : finishEp0 true s = .next { s with trnFifo := s.trnFifo.tail, ip := trnCleared s } := by
  simp only [finishEp0, epilogue, if_true, andThen_next, clearTrn_eq]

/-- The end of an endpoint-0 event of an IN context with nothing left: an empty packet is armed (41_ep0_control_engine.md R163). -/
theorem finishEp0_empty {s : State} (hk : s.ctx.kind = .ctlIn) (hr : s.ctx.remaining = 0)
    (hp : ∀ a, s.ctx.data = .at a → a < 2 ^ s.params.ptrW) :
    finishEp0 false s = .next { s with
      bd := { s.bd with
              ep0Out := armed s.bd.ep0Out 8 s.params.ep0OutBuf false true true
              ep0In := armed s.bd.ep0In 0 s.params.ep0InBuf false true s.ctx.nextToggle }
      trnFifo := s.trnFifo.tail
      ip := trnCleared s } := by
  simp only [finishEp0, epilogue, Bool.false_eq_true, if_false, hk, armInData_zero hr hp, andThen_next, clearTrn_eq]
  rfl

/-! ### The report path -/

theorem State.ramByte_report {s : State} (hw : s.params.wf = true) :
    s.ramByte s.params.addrReport = s.report.1 ∧ s.ramByte (s.params.addrReport + 1) = s.report.2 := by
  have hl := Params.ram_layout hw
  have h0 := (clearOfBds_report hw (Nat.le_refl 2)).not_inRegion (k := 0) (by omega)
  have h1 := (clearOfBds_report hw (Nat.le_refl 2)).not_inRegion (k := 1) (by omega)
  refine ⟨State.ramByte_outside h0, ?_⟩
  rw [State.ramByte_outside h1, State.report, Params.wrap_eq (by omega)]

theorem State.ramByte_config {s : State} (hw : s.params.wf = true) : s.ramByte s.params.addrConfig = s.configuration :=
  State.ramByte_outside ((clearOfBds_config hw (Nat.le_refl 1)).not_inRegion (k := 0) (by omega))

/-- TRANSMIT_REPORT never stops (43_ep1_report_engine.md R223). -/
theorem transmitReport_next {s : State} (hw : s.params.wf = true) :
    ∃ t, transmitReport s = .next t ∧ transmits s t s.rpt.pending s.trnFifo s.ip ∧ (s.ram.wf → t.ram.wf) := by
  obtain ⟨u, h1, h2, h3, h4, h5⟩ := copy_inside (s := s) (sp := .ram) (src := s.params.addrReport) (dst := s.params.ep1InBuf) (n := 2)
    hw (insideRegion_report _ (Nat.le_refl 2)) (insideRegion_ep1In _ (by omega)) (clearOfBds_ep1In hw (by omega))
  obtain ⟨m, rfl⟩ : ∃ m, u = { s with ram := m } := ⟨u.ram, h2⟩
  have hrep := State.ramByte_report hw
  have hcl := clearOfBds_ep1In hw (n := 2) (by omega)
  have hc0 := hcl.not_inRegion (k := 0) (by omega)
  have hc1 := hcl.not_inRegion (k := 1) (by omega)
  refine ⟨{ s with
        rpt := { pending := s.rpt.pending, nextToggle := !s.rpt.nextToggle }
        bd := { s.bd with ep1In := armed s.bd.ep1In 2 s.params.ep1InBuf false true s.rpt.nextToggle }
        ram := m }, ?_, ⟨?_, ?_, ?_, rfl⟩, h5⟩
  · simp only [transmitReport, reportLen, h1, andThen_next]
    simp only [State.withRpt, State.withBdAt, State.withBd, State.bdAt, BdFile.get, BdFile.set, arm_eq, flipToggle, Bool.xor_true]
  · have := h3 0 (by omega)
    rw [← hrep.1, ← show _ = s.ramByte s.params.addrReport from this]
    exact State.ramByte_congr hc0 rfl rfl
  · have := h3 1 (by omega)
    rw [← hrep.2, ← show _ = s.ramByte (s.params.addrReport + 1) from this]
    exact State.ramByte_congr hc1 rfl rfl
  · refine sameBytesExcept.trans h4 (d := inBd s.params .ep1In) (sameBytesExcept_bds rfl rfl fun b => ?_)
      (fun _ h => .inl h) (fun _ h => .inr h)
    cases b
    · exact .inl rfl
    · exact .inl rfl
    · exact .inl rfl
    · exact .inr fun x hx => hx

end Sys2Proof.Machine
end

