-- ==== Sys2Proof/Laws/Setup.lean ====
section
/-! SUPPORT. The SETUP event by the form of its request: one lemma per form, saying the whole next state. -/

namespace Sys2Proof.Machine

/-- The state a request's rule starts from (41_ep0_control_engine.md R160). -/
def aborted (s : State) : State := { s with ctx := { s.ctx with kind := .none, nextToggle := true } }

theorem setupEvent_eq (rule : State → State × Bool) (s : State) :
    setupEvent rule s = finishEp0 (rule (aborted s)).2 { (rule (aborted s)).1 with pktdis := false } := rfl

/-- A request that begins an IN context over `len` bytes at `a` (42_ep0_requests.md R203). -/
theorem setupEvent_beginIn {rule : State → State × Bool} {s : State} {sp : Space} {a : Nat} {len : BitVec 16}
    (hw : s.params.wf = true) (hr : rule (aborted s) = (beginIn sp (.at a) len (aborted s), false))
    (hi : insideRegion s.params sp a (min len.toNat 8)) :
    ∃ t, setupEvent rule s = .next t ∧ beginsIn s t sp a len.toNat ∧ (s.ram.wf → t.ram.wf) := by
  rw [setupEvent_eq, hr]
  obtain ⟨t, h1, ⟨h2, h3, h4, h5⟩, h6⟩ := finishEp0_in (s := { beginIn sp (.at a) len (aborted s) with pktdis := false }) (a := a)
    hw rfl rfl hi
  exact ⟨t, h1, ⟨h2, h3, h4, h5⟩, h6⟩

/-- A request that answers nothing from no source (42_ep0_requests.md R194). -/
theorem setupEvent_nothing {rule : State → State × Bool} {s : State}
    (hr : rule (aborted s) = (beginIn .rom .unspecified 0 (aborted s), false)) :
    setupEvent rule s = .next (answersNothing s) := by
  rw [setupEvent_eq, hr]
  exact finishEp0_empty rfl rfl (fun _ h => by cases h)

/-- A request that begins a zero-length OUT context and stores `dev` and `ram` (42_ep0_requests.md R203). -/
theorem setupEvent_beginOut {rule : State → State × Bool} {s : State} {dev : Dev} {ram : Memory}
    (hr : rule (aborted s) = ({ beginOutZero (aborted s) with dev := dev, ram := ram }, false)) :
    setupEvent rule s = .next { beginsOut s with dev := dev, ram := ram } := by
  rw [setupEvent_eq, hr]
  exact finishEp0_out rfl

/-- A request that stalls (60_exceptions.md R301). -/
theorem setupEvent_stall (reason : StallReason) (s : State) : setupEvent (protocolStall reason) s = .next (stalls s) := by
  rw [setupEvent_eq]
  simp only [protocolStall, finishEp0_stalled]
  unfold stalls
  by_cases h : s.params.traceStall = true
  · rw [if_pos (show (armStall (aborted s)).params.traceStall = true from h), if_pos h]
    rfl
  · rw [if_neg (show ¬ (armStall (aborted s)).params.traceStall = true from h), if_neg h]
    rfl

/-! ### The requests -/

theorem clampLength_toNat {n : Nat} (l : BitVec 16) : (clampLength n l).toNat = min n l.toNat := by
  have := l.isLt
  simp only [clampLength, BitVec.toNat_ofNat]
  omega

/-- A descriptor the repository holds is delivered clamped to `wLength` (42_ep0_requests.md R191 to R195). -/
theorem getDescriptor_found {s : State} {type index : Byte} {l : BitVec 16} {a len : Nat} (hw : s.params.wf = true)
    (hl : lookup s.params type index = some (.at a, len)) (hi : insideRegion s.params .rom a (min len 8)) :
    ∃ t, setupEvent (getDescriptor type index l) s = .next t ∧ beginsIn s t .rom a (min len l.toNat) ∧ (s.ram.wf → t.ram.wf) := by
  have hr : getDescriptor type index l (aborted s) = (beginIn .rom (.at a) (clampLength len l) (aborted s), false) := by
    simp only [getDescriptor, show (aborted s).params = s.params from rfl, hl]
  obtain ⟨t, h1, h2, h3⟩ := setupEvent_beginIn hw hr
    (hi.part (Nat.le_refl a) (by rw [clampLength_toNat]; omega))
  rw [clampLength_toNat] at h2
  exact ⟨t, h1, h2, h3⟩

theorem getDescriptor_missing {s : State} {type index : Byte} {l : BitVec 16} (hl : lookup s.params type index = none) :
    setupEvent (getDescriptor type index l) s = .next (stalls s) := by
  have hr : getDescriptor type index l (aborted s) = protocolStall .unknownDescriptorType (aborted s) := by
    simp only [getDescriptor, show (aborted s).params = s.params from rfl, hl]
  rw [← setupEvent_stall .unknownDescriptorType s, setupEvent_eq, setupEvent_eq, hr]

theorem execGetDescriptorDevice_next {s : State} (hw : s.params.wf = true) (index : Byte) (l : BitVec 16) :
    ∃ t, execGetDescriptorDevice index l s = .next t ∧ beginsIn s t .rom s.params.romDevice (min 18 l.toNat) ∧
      (s.ram.wf → t.ram.wf) :=
  getDescriptor_found hw rfl (insideRegion_device _ (by omega))

theorem execGetDescriptorConfiguration_next {s : State} (hw : s.params.wf = true) (index : Byte) (l : BitVec 16) :
    ∃ t, execGetDescriptorConfiguration index l s = .next t ∧ beginsIn s t .rom s.params.romConfig (min 34 l.toNat) ∧
      (s.ram.wf → t.ram.wf) :=
  getDescriptor_found hw rfl (insideRegion_romConfig _ (Nat.le_refl _) (by omega))

theorem execGetDescriptorReport_next {s : State} (hw : s.params.wf = true) (index : Byte) (l : BitVec 16) :
    ∃ t, execGetDescriptorReport index l s = .next t ∧ beginsIn s t .rom s.params.romReport (min 60 l.toNat) ∧
      (s.ram.wf → t.ram.wf) :=
  getDescriptor_found hw rfl (insideRegion_romReport _ (by omega))

theorem lookup_string (p : Params) (i : BitVec 2) :
    lookup p 0x03 (i.setWidth 8) = some (.at (p.string i).addr, (p.string i).len) := by
  have h1 : (i.setWidth 8).toNat < 4 := by
    rw [BitVec.toNat_setWidth]; have := i.isLt; omega
  have h2 : (i.setWidth 8 : Byte).extractLsb' 0 2 = i := by
    revert i; decide
  simp only [lookup, h2, if_pos h1]
  rfl

theorem execGetDescriptorString_next {s : State} (hw : s.params.wf = true) (i : BitVec 2) (l : BitVec 16) :
    ∃ t, execGetDescriptorString i l s = .next t ∧
      beginsIn s t .rom (s.params.string i).addr (min (s.params.string i).len l.toNat) ∧ (s.ram.wf → t.ram.wf) :=
  getDescriptor_found hw (lookup_string _ i) (insideRegion_string _ i (by omega))

theorem execGetDescriptorStringOutOfRange_next {s : State} {index : Byte} (hi : 4 ≤ index.toNat) (l : BitVec 16) :
    execGetDescriptorStringOutOfRange index l s = .next (answersNothing s) := by
  refine setupEvent_nothing ?_
  have hl : lookup (aborted s).params 0x03 index = some (.unspecified, 0) := by
    simp only [lookup, if_neg (show ¬ index.toNat < 4 by omega)]
    rfl
  simp only [getDescriptor, hl, clampLength, Nat.zero_min]
  rfl

theorem lookup_unknown {p : Params} {type index : Byte} (h1 : type ≠ 0x01) (h2 : type ≠ 0x02) (h3 : type ≠ 0x22) (h4 : type ≠ 0x03) :
    lookup p type index =
      if type = 0x21 ∧ p.hidDescGettable = true then some (.at (p.wrap (p.romConfig + 18)), 9) else none := by
  simp only [lookup, if_neg h1, if_neg h2, if_neg h3, if_neg h4]

theorem execGetDescriptorUnknown_stalls {s : State} {type : Byte} (h1 : type ≠ 0x01) (h2 : type ≠ 0x02) (h3 : type ≠ 0x22)
    (h4 : type ≠ 0x03) (h5 : ¬ (type = 0x21 ∧ s.params.hidDescGettable = true)) (index : Byte) (l : BitVec 16) :
    execGetDescriptorUnknown type index l s = .next (stalls s) :=
  getDescriptor_missing (by rw [lookup_unknown h1 h2 h3 h4, if_neg h5])

theorem execGetDescriptorUnknown_hid {s : State} (hw : s.params.wf = true) (h : s.params.hidDescGettable = true) (index : Byte)
    (l : BitVec 16) :
    ∃ t, execGetDescriptorUnknown 0x21 index l s = .next t ∧
      beginsIn s t .rom (s.params.romConfig + 18) (min 9 l.toNat) ∧ (s.ram.wf → t.ram.wf) := by
  have hf : s.params.romConfig + 34 ≤ 2 ^ s.params.ptrW :=
    (insideRegion_romConfig s.params (a := s.params.romConfig) (n := 34) (Nat.le_refl _) (Nat.le_refl _)).fits hw
  refine getDescriptor_found hw ?_ (insideRegion_romConfig _ (by omega) (by omega))
  rw [lookup_unknown (by decide) (by decide) (by decide) (by decide), if_pos ⟨rfl, h⟩, Params.wrap_eq (by omega)]

theorem execSetAddress_next (v : BitVec 16) (s : State) :
    execSetAddress v s = .next { beginsOut s with dev := { s.dev with pendingAddr := newAddr v } } :=
  setupEvent_beginOut (ram := s.ram) rfl

theorem execSetConfiguration_next (v : BitVec 16) (s : State) :
    execSetConfiguration v s = .next { beginsOut s with ram := s.ram.write s.params.addrConfig (newConfig v) } :=
  setupEvent_beginOut (dev := s.dev) rfl

theorem execSetIdle_next (s : State) : execSetIdle s = .next (beginsOut s) :=
  setupEvent_beginOut (dev := s.dev) (ram := s.ram) rfl

theorem execGetConfiguration_next {s : State} (hw : s.params.wf = true) :
    ∃ t, execGetConfiguration s = .next t ∧ beginsIn s t .ram s.params.addrConfig 1 ∧ (s.ram.wf → t.ram.wf) :=
  setupEvent_beginIn (len := 1) hw rfl (insideRegion_config _ (by decide))

theorem execGetReport_next {s : State} (hw : s.params.wf = true) :
    ∃ t, execGetReport s = .next t ∧ beginsIn s t .ram s.params.addrReport 2 ∧ (s.ram.wf → t.ram.wf) :=
  setupEvent_beginIn (len := 2) hw rfl (insideRegion_report _ (by decide))

theorem execUnsupportedStandard_next (s : State) : execUnsupportedStandard s = .next (stalls s) := setupEvent_stall _ s

theorem execUnsupportedClass_next (s : State) : execUnsupportedClass s = .next (stalls s) := setupEvent_stall _ s

/-! ### The SETUP fetch -/

/-- TRN_EP0_SETUP runs the request that stands in EP0_OUT_BUF (41_ep0_control_engine.md R160). -/
theorem execTrnEp0Setup_eq {s : State} (hw : s.params.wf = true) : execTrnEp0Setup s = runRequest (decodeSp s.setupWord) s := by
  rw [execTrnEp0Setup, memRead_inside hw (insideRegion_ep0Out _ (Nat.le_refl 8)), andThen_next]
  rfl

end Sys2Proof.Machine
end

