-- ==== Sys2Proof/Laws/Events.lean ====
section
/-! SUPPORT. What every event can do, said once: the outcome of a SETUP event whatever its request, and of the other endpoint-0 events
and the report path. -/

namespace Sys2Proof.Machine

/-- The four ways a SETUP event ends (41_ep0_control_engine.md R160, R170). -/
def setupOutcome (s t : State) : Prop :=
  (∃ sp a n, n < 2 ^ 16 ∧ a < 2 ^ s.params.ptrW ∧ insideRegion s.params sp a n ∧ beginsIn s t sp a n) ∨
  t = answersNothing s ∨
  (∃ dev ram, t = { beginsOut s with dev := dev, ram := ram } ∧
    ((dev = s.dev ∧ ram = s.ram) ∨ (∃ v, dev = { s.dev with pendingAddr := v } ∧ ram = s.ram) ∨
      (∃ v, dev = s.dev ∧ ram = s.ram.write s.params.addrConfig v))) ∨
  t = stalls s

/-- A request ends in one of the four ways, or is refused as NONSTD_TYPE_POLICY says. -/
def requestOutcome (r : Result State) (s : State) : Prop :=
  ∃ t, r = .next t ∧ setupOutcome s t ∧ (s.ram.wf → t.ram.wf)

theorem requestOutcome_in {s : State} {r : Result State} {sp : Space} {a n : Nat} (hn : n < 2 ^ 16) (ha : a < 2 ^ s.params.ptrW)
    (hi : insideRegion s.params sp a n) (h : ∃ t, r = .next t ∧ beginsIn s t sp a n ∧ (s.ram.wf → t.ram.wf)) :
    requestOutcome r s := by
  obtain ⟨t, h1, h2, h3⟩ := h
  exact ⟨t, h1, .inl ⟨sp, a, n, hn, ha, hi, h2⟩, h3⟩

theorem requestOutcome_stalls {s : State} {r : Result State} (h : r = .next (stalls s)) : requestOutcome r s :=
  ⟨_, h, .inr (.inr (.inr rfl)), id⟩

theorem insideRegion.lt {p : Params} (hw : p.wf = true) {sp : Space} {a n : Nat} (h : insideRegion p sp a n) (hn : 0 < n) :
    a < 2 ^ p.ptrW := by
  have := h.fits hw; omega

theorem execGetDescriptorUnknown_outcome {s : State} (hw : s.params.wf = true) (type index : Byte) (l : BitVec 16) :
    requestOutcome (execGetDescriptorUnknown type index l s) s := by
  have hd := insideRegion_device s.params (Nat.le_refl 18)
  have hc := insideRegion_romConfig s.params (a := s.params.romConfig) (n := 34) (Nat.le_refl _) (Nat.le_refl _)
  have hr := insideRegion_romReport s.params (Nat.le_refl 60)
  by_cases h1 : type = 0x01
  · subst h1
    exact requestOutcome_in (by omega) (hd.lt hw (by omega)) (hd.part (Nat.le_refl _) (by omega))
      (execGetDescriptorDevice_next hw index l)
  by_cases h2 : type = 0x02
  · subst h2
    exact requestOutcome_in (by omega) (hc.lt hw (by omega)) (hc.part (Nat.le_refl _) (by omega))
      (execGetDescriptorConfiguration_next hw index l)
  by_cases h3 : type = 0x22
  · subst h3
    exact requestOutcome_in (by omega) (hr.lt hw (by omega)) (hr.part (Nat.le_refl _) (by omega))
      (execGetDescriptorReport_next hw index l)
  by_cases h4 : type = 0x03
  · subst h4
    by_cases hi : index.toNat < 4
    · have hs := insideRegion_string s.params (index.extractLsb' 0 2) (Nat.le_refl _)
      have hl : lookup s.params 0x03 index =
          some (.at (s.params.string (index.extractLsb' 0 2)).addr, (s.params.string (index.extractLsb' 0 2)).len) := by
        simp only [lookup, if_pos hi]
        rfl
      exact requestOutcome_in (by have := Params.string_len_le hw (index.extractLsb' 0 2); omega)
        (hs.lt hw (by simp [StringEntry.len])) (hs.part (Nat.le_refl _) (by omega))
        (getDescriptor_found hw hl (hs.part (Nat.le_refl _) (by omega)))
    · exact ⟨_, execGetDescriptorStringOutOfRange_next (by omega) l, .inr (.inl rfl), id⟩
  by_cases h5 : type = 0x21 ∧ s.params.hidDescGettable = true
  · obtain ⟨rfl, hg⟩ := h5
    have hh := insideRegion_romConfig s.params (a := s.params.romConfig + 18) (n := 9) (by omega) (by omega)
    exact requestOutcome_in (by omega) (hh.lt hw (by omega)) (hh.part (Nat.le_refl _) (by omega))
      (execGetDescriptorUnknown_hid hw hg index l)
  · exact requestOutcome_stalls (execGetDescriptorUnknown_stalls h1 h2 h3 h4 h5 index l)

/-- Every request but one of a nonstandard type ends in one of the four ways. -/
theorem dispatchRequest_outcome {s : State} (hw : s.params.wf = true) (nonstd : NonstdMeaning) {i : Instr} (hf : i.format = .sp)
    (hn : i.mnemonic ≠ .nonstdRequestType) : requestOutcome (dispatchRequest nonstd i s) s := by
  cases i <;> first | exact absurd hf (show ¬ Format.ev = Format.sp by decide) | exact absurd rfl hn | skip
  · exact execGetDescriptorUnknown_outcome hw 0x01 _ _
  · exact execGetDescriptorUnknown_outcome hw 0x02 _ _
  · exact execGetDescriptorUnknown_outcome hw 0x22 _ _
  · exact execGetDescriptorUnknown_outcome hw 0x03 _ _
  · exact execGetDescriptorUnknown_outcome hw 0x03 _ _
  · exact execGetDescriptorUnknown_outcome hw _ _ _
  · exact ⟨_, execSetAddress_next _ s, .inr (.inr (.inl ⟨_, _, rfl, .inr (.inl ⟨_, rfl, rfl⟩)⟩)), id⟩
  · exact ⟨_, execSetConfiguration_next _ s, .inr (.inr (.inl ⟨_, _, rfl, .inr (.inr ⟨_, rfl, rfl⟩)⟩)),
      fun h => Memory.wf_write h _ _⟩
  · have hc := insideRegion_config s.params (Nat.le_refl 1)
    exact requestOutcome_in (by omega) (hc.lt hw (by omega)) hc (execGetConfiguration_next hw)
  · have hc := insideRegion_report s.params (Nat.le_refl 2)
    exact requestOutcome_in (by omega) (hc.lt hw (by omega)) hc (execGetReport_next hw)
  · exact ⟨_, execSetIdle_next s, .inr (.inr (.inl ⟨_, _, rfl, .inl ⟨rfl, rfl⟩⟩)), id⟩
  · exact requestOutcome_stalls (execUnsupportedStandard_next s)
  · exact requestOutcome_stalls (execUnsupportedClass_next s)

/-- The decoder of a typed SETUP word gives a request, and never one of a nonstandard type. -/
theorem decodeTyped_format (attr : ReqAttr) (c : BitVec 1) (b : Byte) (v x l : BitVec 16) :
    (decodeTyped attr c b v x l).format = .sp ∧ (decodeTyped attr c b v x l).mnemonic ≠ .nonstdRequestType := by
  unfold decodeTyped decodeGetDescriptor
  split_ifs <;> exact ⟨rfl, by simp [Instr.mnemonic]⟩

theorem execNonstdRequestType_outcome {s : State} (hw : s.params.wf = true) (attr : ReqAttr) (b : Byte) (v x l : BitVec 16) :
    (s.params.nonstdTypePolicy = .refuse ∧ execNonstdRequestType attr b v x l s = .refused .nonstandardRequestType) ∨
    (s.params.nonstdTypePolicy ≠ .refuse ∧ requestOutcome (execNonstdRequestType attr b v x l s) s) := by
  unfold execNonstdRequestType
  cases h : s.params.nonstdTypePolicy
  · exact .inl ⟨rfl, rfl⟩
  · have := decodeTyped_format attr 0 b v x l
    exact .inr ⟨by simp, dispatchRequest_outcome hw refuseNonstd this.1 this.2⟩
  · exact .inr ⟨by simp, requestOutcome_stalls (setupEvent_stall _ s)⟩

/-- What a SETUP event of any request does: one of the four ways, or the refusal of a nonstandard type. -/
theorem runRequest_outcome {s : State} (hw : s.params.wf = true) {i : Instr} (hf : i.format = .sp) :
    (i.mnemonic = .nonstdRequestType ∧ s.params.nonstdTypePolicy = .refuse ∧
      runRequest i s = .refused .nonstandardRequestType) ∨ requestOutcome (runRequest i s) s := by
  by_cases hn : i.mnemonic = .nonstdRequestType
  · obtain ⟨attr, c, b, v, x, l, rfl⟩ : ∃ attr c b v x l, i = .nonstdRequestType attr c b v x l := by
      cases i <;> simp [Instr.mnemonic] at hn ⊢
    rcases execNonstdRequestType_outcome hw _ _ _ _ _ with ⟨h1, h2⟩ | ⟨-, h⟩
    · exact .inl ⟨rfl, h1, h2⟩
    · exact .inr h
  · exact .inr (dispatchRequest_outcome hw _ hf hn)

/-- A request executes as its own arm of exec. -/
theorem exec_eq_runRequest {i : Instr} (hf : i.format = .sp) (s : State) : exec i s = runRequest i s := by
  cases i <;> first | exact absurd hf (show ¬ Format.ev = Format.sp by decide) | rfl

theorem decodeSp_format (w : Spw) : (decodeSp w).format = .sp := by
  unfold decodeSp
  split
  · rfl
  · exact (decodeTyped_format _ _ _ _ _ _).1

/-- The outcome of every SETUP event (41_ep0_control_engine.md R160). -/
theorem execSetup_outcome {s : State} (hw : s.params.wf = true) {i : Instr} (hi : i.mnemonic.isSetup = true) :
    (s.params.nonstdTypePolicy = .refuse ∧ exec i s = .refused .nonstandardRequestType) ∨ requestOutcome (exec i s) s := by
  by_cases hf : i.format = .sp
  · rw [exec_eq_runRequest hf]
    exact (runRequest_outcome hw hf).imp (fun h => h.2) id
  · obtain ⟨z, rfl⟩ : ∃ z, i = .trnEp0Setup z := by
      cases i <;> simp [Instr.format, Instr.mnemonic, Mnemonic.isSetup, Mnemonic.format] at hi hf ⊢
    show (_ ∧ execTrnEp0Setup s = _) ∨ requestOutcome (execTrnEp0Setup s) s
    rw [execTrnEp0Setup_eq hw]
    exact (runRequest_outcome hw (decodeSp_format _)).imp (fun h => h.2) id

/-- The dispatch of a request of a standard or class type does not read what runs the others. -/
theorem dispatchRequest_typed (n m : NonstdMeaning) {i : Instr} (h : i.mnemonic ≠ .nonstdRequestType) (s : State) :
    dispatchRequest n i s = dispatchRequest m i s := by
  cases i <;> first | exact absurd rfl h | rfl

/-- AS_STANDARD runs a nonstandard type as the standard request (42_ep0_requests.md R204). -/
theorem exec_underPolicy {i : Instr} (hf : i.format = .sp) (s : State) :
    exec (i.underPolicy s.params.nonstdTypePolicy) s = exec i s ∧ (i.underPolicy s.params.nonstdTypePolicy).format = .sp := by
  cases i <;> first | exact absurd hf (show ¬ Format.ev = Format.sp by decide) | exact ⟨rfl, rfl⟩ | skip
  next attr c b v x l =>
  simp only [Instr.underPolicy]
  split
  · next h =>
    have hd := decodeTyped_format attr 0 b v x l
    refine ⟨?_, hd.1⟩
    rw [exec_eq_runRequest hd.1]
    show _ = execNonstdRequestType attr b v x l s
    unfold execNonstdRequestType
    rw [h]
    exact dispatchRequest_typed _ _ hd.2 s
  · exact ⟨rfl, rfl⟩

/-- A SETUP event executes as the request it runs (41_ep0_control_engine.md R160). -/
theorem exec_requestOf {i : Instr} {s : State} (hw : s.params.wf = true) (hi : i.mnemonic.isSetup = true) :
    exec (s.requestOf i) s = exec i s ∧ (s.requestOf i).format = .sp := by
  unfold State.requestOf
  by_cases hm : i.mnemonic = .trnEp0Setup
  · rw [if_pos hm]
    have h := exec_underPolicy (decodeSp_format s.setupWord) s
    refine ⟨h.1.trans ?_, h.2⟩
    obtain ⟨z, rfl⟩ : ∃ z, i = .trnEp0Setup z := by cases i <;> simp [Instr.mnemonic] at hm ⊢
    exact (exec_eq_runRequest (decodeSp_format _) s).trans (execTrnEp0Setup_eq hw).symm
  · rw [if_neg hm]
    exact exec_underPolicy (by simpa [Mnemonic.isSetup, hm, Instr.format] using hi) s

/-- The request a SETUP event runs is of a nonstandard type only where the policy is not AS_STANDARD (42_ep0_requests.md R204). -/
theorem requestOf_typed (s : State) (i : Instr) :
    (s.requestOf i).mnemonic ≠ .nonstdRequestType ∨ s.params.nonstdTypePolicy ≠ .asStandard := by
  unfold State.requestOf
  generalize (if i.mnemonic = .trnEp0Setup then decodeSp s.setupWord else i) = j
  by_cases h : s.params.nonstdTypePolicy = .asStandard
  · refine .inl ?_
    cases j <;> first | (simp only [Instr.underPolicy, if_pos h]; exact (decodeTyped_format _ _ _ _ _ _).2) | (intro e; cases e)
  · exact .inr h

/-! ### The other endpoint-0 events -/

/-- An IN completion sends the next packet (41_ep0_control_engine.md R162, R165). -/
theorem execTrnEp0In_in {s : State} {a : Nat} (hw : s.params.wf = true) (hk : s.ctx.kind = .ctlIn) (hd : s.ctx.data = .at a)
    (hi : insideRegion s.params s.ctx.mclass a (packetSize s.ctx.remaining)) :
    ∃ t, execTrnEp0In s = .next t ∧
      sendsPacket s t s.pktdis s.ctx.mclass a (packetSize s.ctx.remaining)
        (s.ctx.remaining.toNat - packetSize s.ctx.remaining) (!s.ctx.nextToggle) ∧ (s.ram.wf → t.ram.wf) := by
  have he : execTrnEp0In s = finishEp0 false { s with ctx := { s.ctx with nextToggle := !s.ctx.nextToggle } } := by
    simp only [execTrnEp0In, hk, flipToggle, Bool.xor_true, State.withCtx]
  rw [he]
  obtain ⟨t, h1, ⟨h2, h3, h4, h5⟩, h6⟩ := finishEp0_in
    (s := { s with ctx := { s.ctx with nextToggle := !s.ctx.nextToggle } }) hw hk hd hi
  exact ⟨t, h1, ⟨h2, h3, h4, h5⟩, h6⟩

/-- An IN completion with nothing left arms an empty packet (41_ep0_control_engine.md R162, R163). -/
theorem execTrnEp0In_empty {s : State} (hk : s.ctx.kind = .ctlIn) (hr : s.ctx.remaining = 0)
    (hp : ∀ a, s.ctx.data = .at a → a < 2 ^ s.params.ptrW) :
    execTrnEp0In s = .next { s with
      ctx := { s.ctx with nextToggle := !s.ctx.nextToggle }
      bd := { s.bd with
              ep0Out := armed s.bd.ep0Out 8 s.params.ep0OutBuf false true true
              ep0In := armed s.bd.ep0In 0 s.params.ep0InBuf false true (!s.ctx.nextToggle) }
      trnFifo := s.trnFifo.tail
      ip := trnCleared s } := by
  have he : execTrnEp0In s = finishEp0 false { s with ctx := { s.ctx with nextToggle := !s.ctx.nextToggle } } := by
    simp only [execTrnEp0In, hk, flipToggle, Bool.xor_true, State.withCtx]
  rw [he]
  exact finishEp0_empty (s := { s with ctx := { s.ctx with nextToggle := !s.ctx.nextToggle } }) hk hr hp

/-- The Status stage of an OUT-kind transfer (41_ep0_control_engine.md R162). -/
theorem execTrnEp0In_out {s : State} (hk : s.ctx.kind = .ctlOut) :
    execTrnEp0In s = .next { awaitsSetup s with
      ctx := { s.ctx with kind := .none }
      dev := if s.dev.pendingAddr = 0 then s.dev else { uaddr := s.dev.pendingAddr, pendingAddr := 0 } } := by
  have he : execTrnEp0In s = finishEp0 false (commitAddress { s with ctx := { s.ctx with kind := .none } }) := by
    simp only [execTrnEp0In, hk, State.withCtx]
  rw [he]
  unfold commitAddress
  by_cases h : s.dev.pendingAddr = 0
  · rw [if_neg (by simp [addressPending, h]), if_pos h]
    exact finishEp0_none rfl
  · rw [if_pos (by simpa [addressPending] using h), if_neg h]
    exact finishEp0_none rfl

theorem execTrnEp0In_none {s : State} (hk : s.ctx.kind = .none) : execTrnEp0In s = .next (awaitsSetup s) := by
  simp only [execTrnEp0In, hk]
  exact finishEp0_none hk

/-- The Status stage of an IN transfer (41_ep0_control_engine.md R161). -/
theorem execTrnEp0Out_in {s : State} (hk : s.ctx.kind = .ctlIn) :
    execTrnEp0Out s = .next { awaitsSetup s with ctx := { s.ctx with kind := .none } } := by
  have he : execTrnEp0Out s = finishEp0 false { s with ctx := { s.ctx with kind := .none } } := by
    simp only [execTrnEp0Out, hk, State.withCtx]
  rw [he]
  exact finishEp0_none rfl

theorem execTrnEp0Out_none {s : State} (hk : s.ctx.kind = .none) : execTrnEp0Out s = .next (awaitsSetup s) := by
  simp only [execTrnEp0Out, hk]
  exact finishEp0_none hk

/-- An empty OUT packet of an OUT-kind transfer flips the toggle (41_ep0_control_engine.md R161). -/
theorem execTrnEp0Out_empty {s : State} (hk : s.ctx.kind = .ctlOut) (hd : s.ctx.data = .unspecified)
    (hn : s.bd.ep0Out.count = 0) :
    execTrnEp0Out s = .next (awaitsOut { s with ctx := { s.ctx with nextToggle := !s.ctx.nextToggle } }) := by
  have he : execTrnEp0Out s = finishEp0 false { s with ctx := { s.ctx with nextToggle := !s.ctx.nextToggle } } := by
    have h0 : (s.bdAt .ep0Out).count.toNat = 0 := by rw [State.bdAt, BdFile.get, hn]; rfl
    simp only [execTrnEp0Out, hk, copyToSink, hd, h0, if_true, andThen_next, flipToggle, Bool.xor_true, State.withCtx,
      Pointer.advance]
  rw [he]
  exact finishEp0_out hk

/-- OUT data without a sink stops the model (60_exceptions.md R305). -/
theorem execTrnEp0Out_fault {s : State} (hk : s.ctx.kind = .ctlOut) (hd : s.ctx.data = .unspecified)
    (hn : s.bd.ep0Out.count ≠ 0) : execTrnEp0Out s = .fault (.unspecifiedSink s.bd.ep0Out.count.toNat) := by
  have h0 : ¬ s.bd.ep0Out.count.toNat = 0 := fun h => hn (BitVec.eq_of_toNat_eq h)
  simp only [execTrnEp0Out, hk, copyToSink, hd, State.bdAt, BdFile.get, h0, if_false, andThen_fault]

/-! ### The report path -/

theorem execReportWrite_next {s : State} (hw : s.params.wf = true) (b0 b1 : Byte) :
    ∃ t, execReportWrite b0 b1 s = .next t ∧ t = { s with ram := t.ram } ∧ t.report = (b0, b1) ∧
      sameBytesExcept s t (inRun s.params.addrReport 2) ∧ (s.ram.wf → t.ram.wf) := by
  obtain ⟨t, h1, h2, h3, h4, h5⟩ := memWrite_inside (s := s) (a := s.params.addrReport) (v := [b0, b1]) hw
    (insideRegion_report _ (Nat.le_refl 2)) (clearOfBds_report hw (Nat.le_refl 2))
  have hp : t.params = s.params := by rw [h2]
  have hr := State.ramByte_report (s := t) (by rw [hp]; exact hw)
  refine ⟨t, h1, h2, ?_, h4, h5⟩
  rw [← Prod.mk.eta (p := t.report), ← hr.1, ← hr.2, hp]
  exact Prod.ext (h3 0 (by simp)) (h3 1 (by simp))

theorem execReportChanged_free {s : State} (hw : s.params.wf = true) (ho : s.bd.ep1In.own = .device) :
    ∃ t, execReportChanged s = .next t ∧ transmits s t s.rpt.pending s.trnFifo s.ip ∧ (s.ram.wf → t.ram.wf) := by
  obtain ⟨u, h1, ⟨h2, h3, h4, h5⟩, h6⟩ := transmitReport_next (s := s.withGie false) hw
  have he : execReportChanged s = .next (u.withGie s.gie) := by
    have hb : reportChangedBody (s.withGie false) = .next u := by
      rw [← h1]
      simp only [reportChangedBody, State.bdAt, BdFile.get, State.withGie_bd, ho]
    simp only [execReportChanged, criticalSection, hb, andThen_next]
  refine ⟨_, he, ⟨h2, h3, h4, ?_⟩, h6⟩
  rw [h5]
  rfl

theorem execReportChanged_busy {s : State} (ho : s.bd.ep1In.own = .sie) :
    execReportChanged s = .next { s with rpt := { s.rpt with pending := true } } := by
  simp only [execReportChanged, criticalSection, reportChangedBody, State.bdAt, BdFile.get, State.withGie_bd, ho, andThen_next]
  rfl

theorem execTrnEp1_pending {s : State} (hw : s.params.wf = true) (hp : s.rpt.pending = true) :
    ∃ t, execTrnEp1 s = .next t ∧ transmits s t false s.trnFifo.tail (trnCleared s) ∧ (s.ram.wf → t.ram.wf) := by
  obtain ⟨u, h1, ⟨h2, h3, h4, h5⟩, h6⟩ := transmitReport_next (s := s) hw
  obtain ⟨m, rfl⟩ : ∃ m, u = { s with
        rpt := { pending := s.rpt.pending, nextToggle := !s.rpt.nextToggle }
        bd := { s.bd with ep1In := armed s.bd.ep1In 2 s.params.ep1InBuf false true s.rpt.nextToggle }
        ram := m } := ⟨u.ram, h5⟩
  have he : execTrnEp1 s = .next { s with
        rpt := { pending := false, nextToggle := !s.rpt.nextToggle }
        bd := { s.bd with ep1In := armed s.bd.ep1In 2 s.params.ep1InBuf false true s.rpt.nextToggle }
        trnFifo := s.trnFifo.tail
        ip := trnCleared s
        ram := m } := by
    simp only [execTrnEp1, hp, if_true, h1, andThen_next, clearTrn_eq]
    rfl
  exact ⟨_, he, ⟨h2, h3, h4, rfl⟩, h6⟩

theorem execTrnEp1_idle {s : State} (hp : s.rpt.pending = false) :
    execTrnEp1 s = .next { s with trnFifo := s.trnFifo.tail, ip := trnCleared s } := by
  simp only [execTrnEp1, hp, Bool.false_eq_true, if_false, clearTrn_eq]

theorem execBusReset_eq (s : State) : execBusReset s = .next { s with
    dev := { uaddr := 0, pendingAddr := 0 }
    rpt := { pending := false, nextToggle := busResetRptToggle s.params s.rpt.nextToggle }
    ctx := { s.ctx with nextToggle := busResetCtxToggle s.params s.ctx.nextToggle }
    bd := { s.bd with ep0Out := armed s.bd.ep0Out 8 s.params.ep0OutBuf false false false }
    trace := s.trace ++ [s.params.traceResetChar]
    ip := { s.ip with reset := false }
    ram := s.ram.write s.params.addrConfig 0 } := rfl

end Sys2Proof.Machine
end

