-- ==== Sys2Proof/Laws/Step.lean ====
section
/-! SUPPORT. What an event leaves alone whatever the parameters, and the ways a step of the machine can go. -/

namespace Sys2Proof.Machine

/-! ### The frame of every event -/

/-- What no event but IDLE and ACTIVITY writes. -/
structure framed (s t : State) : Prop where
  gie : t.gie = s.gie
  inHandler : t.inHandler = s.inHandler
  wire : t.wire = s.wire
  inputs : t.inputs = s.inputs
  params : t.params = s.params
  suspended : t.suspended = s.suspended
  ie : t.ie = s.ie
  phase : t.phase = s.phase

theorem framed.refl (s : State) : framed s s := ⟨rfl, rfl, rfl, rfl, rfl, rfl, rfl, rfl⟩

theorem framed.trans {s t u : State} (h : framed s t) (g : framed t u) : framed s u :=
  ⟨g.gie.trans h.gie, g.inHandler.trans h.inHandler, g.wire.trans h.wire, g.inputs.trans h.inputs, g.params.trans h.params,
   g.suspended.trans h.suspended, g.ie.trans h.ie, g.phase.trans h.phase⟩

/-- What the parts of an event that run before the TRN condition is cleared leave alone. -/
structure quiet (s t : State) : Prop extends framed s t where
  ip : t.ip = s.ip
  trnFifo : t.trnFifo = s.trnFifo
  ramWf : s.ram.wf → t.ram.wf

theorem quiet.refl (s : State) : quiet s s := ⟨framed.refl s, rfl, rfl, id⟩

theorem quiet.trans {s t u : State} (h : quiet s t) (g : quiet t u) : quiet s u :=
  ⟨h.toframed.trans g.toframed, g.ip.trans h.ip, g.trnFifo.trans h.trnFifo, fun w => g.ramWf (h.ramWf w)⟩

theorem quiet_memWrite {s t : State} {a : Nat} {v : List Byte} (h : memWrite s a v = .next t) : quiet s t := by
  have he := memWrite_eq h
  refine ⟨⟨?_, ?_, ?_, ?_, ?_, ?_, ?_, ?_⟩, ?_, ?_, memWrite_ram_wf h⟩ <;> rw [he]

theorem quiet_copy {s t : State} {sp : Space} {src dst n : Nat} (h : copy s sp src dst n = .next t) : quiet s t := by
  obtain ⟨v, -, hv⟩ := andThen_eq_next.mp h
  exact quiet_memWrite hv

theorem quiet_armInData {s t : State} (h : armInData s = .next t) : quiet s t := by
  obtain ⟨u, h1, h2⟩ := andThen_eq_next.mp h
  have hu : quiet s u := by
    unfold copyFromSource at h1
    split at h1
    · exact quiet_copy h1
    · split at h1
      · cases h1; exact quiet.refl s
      · cases h1
  cases h2
  exact hu.trans ⟨⟨rfl, rfl, rfl, rfl, rfl, rfl, rfl, rfl⟩, rfl, rfl, id⟩

theorem quiet_epilogue {s t : State} {stalled : Bool} (h : epilogue stalled s = .next t) : quiet s t := by
  unfold epilogue at h
  split at h
  · cases h; exact quiet.refl s
  · split at h
    · obtain ⟨u, h1, h2⟩ := andThen_eq_next.mp h
      cases h2
      exact (quiet_armInData h1).trans ⟨⟨rfl, rfl, rfl, rfl, rfl, rfl, rfl, rfl⟩, rfl, rfl, id⟩
    · cases h; exact ⟨⟨rfl, rfl, rfl, rfl, rfl, rfl, rfl, rfl⟩, rfl, rfl, id⟩
    · cases h; exact ⟨⟨rfl, rfl, rfl, rfl, rfl, rfl, rfl, rfl⟩, rfl, rfl, id⟩

/-- An event that clears the TRN condition at its end and leaves the rest of the interrupt state alone. -/
def endsTrn (s t : State) : Prop := ∃ u, quiet s u ∧ t = clearTrn u

theorem endsTrn.framed {s t : State} (h : endsTrn s t) : framed s t := by
  obtain ⟨u, h, rfl⟩ := h
  exact h.toframed.trans ⟨rfl, rfl, rfl, rfl, rfl, rfl, rfl, rfl⟩

theorem endsTrn_finishEp0 {s u t : State} {stalled : Bool} (hq : quiet s u) (h : finishEp0 stalled u = .next t) : endsTrn s t := by
  obtain ⟨v, h1, h2⟩ := andThen_eq_next.mp h
  cases h2
  exact ⟨v, hq.trans (quiet_epilogue h1), rfl⟩

/-- A request's rule leaves the interrupt state alone. -/
def quietRule (rule : State → State × Bool) : Prop := ∀ s, quiet s (rule s).1

theorem quietRule_protocolStall (reason : StallReason) : quietRule (protocolStall reason) := by
  intro s
  simp only [protocolStall]
  split <;> exact ⟨⟨rfl, rfl, rfl, rfl, rfl, rfl, rfl, rfl⟩, rfl, rfl, id⟩

theorem quietRule_getDescriptor (type index : Byte) (l : BitVec 16) : quietRule (getDescriptor type index l) := by
  intro s
  unfold getDescriptor
  split
  · exact ⟨⟨rfl, rfl, rfl, rfl, rfl, rfl, rfl, rfl⟩, rfl, rfl, id⟩
  · exact quietRule_protocolStall _ s

theorem endsTrn_setupEvent {rule : State → State × Bool} (hr : quietRule rule) {s t : State}
    (h : setupEvent rule s = .next t) : endsTrn s t := by
  have h0 : quiet s (aborted s) := ⟨⟨rfl, rfl, rfl, rfl, rfl, rfl, rfl, rfl⟩, rfl, rfl, id⟩
  have h1 := hr (aborted s)
  have h2 : quiet (rule (aborted s)).1 { (rule (aborted s)).1 with pktdis := false } :=
    ⟨⟨rfl, rfl, rfl, rfl, rfl, rfl, rfl, rfl⟩, rfl, rfl, id⟩
  exact endsTrn_finishEp0 ((h0.trans h1).trans h2) h

theorem endsTrn_dispatchRequest {nonstd : NonstdMeaning}
    (hn : ∀ a b v x l s t, nonstd a b v x l s = .next t → endsTrn s t) {i : Instr} {s t : State}
    (h : dispatchRequest nonstd i s = .next t) : endsTrn s t := by
  have hq : ∀ f : State → State, (∀ s, quiet s (f s)) → quietRule (accept f) := fun f hf s => hf s
  cases i <;> first | exact absurd (show (Host.Outcome.refused Refusal.notARequest : Result State) = .next t from h) (fun h => by cases h) | skip
  · exact hn _ _ _ _ _ _ _ h
  · exact endsTrn_setupEvent (quietRule_getDescriptor _ _ _) h
  · exact endsTrn_setupEvent (quietRule_getDescriptor _ _ _) h
  · exact endsTrn_setupEvent (quietRule_getDescriptor _ _ _) h
  · exact endsTrn_setupEvent (quietRule_getDescriptor _ _ _) h
  · exact endsTrn_setupEvent (quietRule_getDescriptor _ _ _) h
  · exact endsTrn_setupEvent (quietRule_getDescriptor _ _ _) h
  · next attr wValue wIndex wLength =>
    exact endsTrn_setupEvent (rule := accept (fun u => (beginOutZero u).withDev { u.dev with pendingAddr := newAddr wValue }))
      (hq _ fun s => ⟨⟨rfl, rfl, rfl, rfl, rfl, rfl, rfl, rfl⟩, rfl, rfl, id⟩) h
  · next attr wValue wIndex wLength =>
    exact endsTrn_setupEvent (rule := accept (fun u => (beginOutZero u).withConfiguration (newConfig wValue)))
      (hq _ fun s => ⟨⟨rfl, rfl, rfl, rfl, rfl, rfl, rfl, rfl⟩, rfl, rfl, fun w => Memory.wf_write w _ _⟩) h
  · refine endsTrn_setupEvent ?_ h
    exact hq _ fun s => ⟨⟨rfl, rfl, rfl, rfl, rfl, rfl, rfl, rfl⟩, rfl, rfl, id⟩
  · refine endsTrn_setupEvent ?_ h
    exact hq _ fun s => ⟨⟨rfl, rfl, rfl, rfl, rfl, rfl, rfl, rfl⟩, rfl, rfl, id⟩
  · exact endsTrn_setupEvent (rule := accept beginOutZero)
      (hq _ fun s => ⟨⟨rfl, rfl, rfl, rfl, rfl, rfl, rfl, rfl⟩, rfl, rfl, id⟩) h
  · exact endsTrn_setupEvent (quietRule_protocolStall _) h
  · exact endsTrn_setupEvent (quietRule_protocolStall _) h

theorem endsTrn_nonstd (a : ReqAttr) (b : Byte) (v x l : BitVec 16) (s t : State)
    (h : execNonstdRequestType a b v x l s = .next t) : endsTrn s t := by
  unfold execNonstdRequestType at h
  split at h
  · cases h
  · exact endsTrn_dispatchRequest (fun _ _ _ _ _ _ _ h => by cases h) h
  · exact endsTrn_setupEvent (quietRule_protocolStall _) h

theorem endsTrn_runRequest {i : Instr} {s t : State} (h : runRequest i s = .next t) : endsTrn s t :=
  endsTrn_dispatchRequest endsTrn_nonstd h

theorem endsTrn_execTrnEp0Setup {s t : State} (h : execTrnEp0Setup s = .next t) : endsTrn s t := by
  obtain ⟨v, -, h⟩ := andThen_eq_next.mp h
  exact endsTrn_runRequest h

theorem endsTrn_execTrnEp0In {s t : State} (h : execTrnEp0In s = .next t) : endsTrn s t := by
  have hc : ∀ s, quiet s (commitAddress s) := fun s => by
    unfold commitAddress
    split <;> exact ⟨⟨rfl, rfl, rfl, rfl, rfl, rfl, rfl, rfl⟩, rfl, rfl, id⟩
  have hx : ∀ c, quiet s (s.withCtx c) := fun c => ⟨⟨rfl, rfl, rfl, rfl, rfl, rfl, rfl, rfl⟩, rfl, rfl, id⟩
  unfold execTrnEp0In at h
  split at h
  · exact endsTrn_finishEp0 (hx _) h
  · exact endsTrn_finishEp0 ((hx _).trans (hc _)) h
  · exact endsTrn_finishEp0 (quiet.refl s) h

theorem endsTrn_execTrnEp0Out {s t : State} (h : execTrnEp0Out s = .next t) : endsTrn s t := by
  have hx : ∀ s c, quiet s (s.withCtx c) := fun s c => ⟨⟨rfl, rfl, rfl, rfl, rfl, rfl, rfl, rfl⟩, rfl, rfl, id⟩
  unfold execTrnEp0Out at h
  split at h
  · exact endsTrn_finishEp0 (hx _ _) h
  · obtain ⟨u, h1, h2⟩ := andThen_eq_next.mp h
    have hu : quiet s u := by
      unfold copyToSink at h1
      split at h1
      · exact quiet_copy h1
      · split at h1
        · cases h1; exact quiet.refl s
        · cases h1
    exact endsTrn_finishEp0 (hu.trans (hx _ _)) h2
  · exact endsTrn_finishEp0 (quiet.refl s) h

theorem quiet_transmitReport {s t : State} (h : transmitReport s = .next t) : quiet s t := by
  obtain ⟨u, h1, h2⟩ := andThen_eq_next.mp h
  cases h2
  exact (quiet_copy h1).trans ⟨⟨rfl, rfl, rfl, rfl, rfl, rfl, rfl, rfl⟩, rfl, rfl, id⟩

theorem endsTrn_execTrnEp1 {s t : State} (h : execTrnEp1 s = .next t) : endsTrn s t := by
  unfold execTrnEp1 at h
  split at h
  · obtain ⟨u, h1, h2⟩ := andThen_eq_next.mp h
    cases h2
    refine ⟨_, (quiet_transmitReport h1).trans ?_, rfl⟩
    exact ⟨⟨rfl, rfl, rfl, rfl, rfl, rfl, rfl, rfl⟩, rfl, rfl, id⟩
  · cases h
    exact ⟨s, quiet.refl s, rfl⟩

theorem quiet_execReportChanged {s t : State} (h : execReportChanged s = .next t) : quiet s t := by
  obtain ⟨u, h1, h2⟩ := andThen_eq_next.mp h
  cases h2
  unfold reportChangedBody at h1
  split at h1
  · have := quiet_transmitReport h1
    exact ⟨⟨rfl, this.inHandler, this.wire, this.inputs, this.params, this.suspended, this.ie, this.phase⟩, this.ip, this.trnFifo,
      this.ramWf⟩
  · cases h1
    exact ⟨⟨rfl, rfl, rfl, rfl, rfl, rfl, rfl, rfl⟩, rfl, rfl, id⟩

/-- The events that end by clearing the TRN condition. -/
def Instr.isTrn (i : Instr) : Bool :=
  match i.mnemonic with
  | .busReset | .busError | .idle | .activity | .otherCause | .reportWrite | .reportChanged => false
  | .trnEp0Setup | .trnEp0Out | .trnEp0In | .trnEp1 | .trnOtherEp | .nonstdRequestType | .getDescriptorDevice
  | .getDescriptorConfiguration | .getDescriptorReport | .getDescriptorString | .getDescriptorStringOutOfRange
  | .getDescriptorUnknown | .setAddress | .setConfiguration | .getConfiguration | .getReport | .setIdle | .unsupportedStandard
  | .unsupportedClass => true

/-- Every transaction-complete event does its work and then clears the TRN condition (40_bus_event_dispatcher.md R133). -/
theorem endsTrn_exec {i : Instr} (hi : Instr.isTrn i = true) {s t : State} (h : exec i s = .next t) : endsTrn s t := by
  cases i <;> first | exact absurd hi (show ¬ false = true by decide) | skip
  · exact endsTrn_execTrnEp0Setup h
  · exact endsTrn_execTrnEp0Out h
  · exact endsTrn_execTrnEp0In h
  · exact endsTrn_execTrnEp1 h
  · cases h; exact ⟨s, quiet.refl s, rfl⟩
  all_goals
    rw [exec_eq_runRequest rfl] at h
    exact endsTrn_runRequest h

/-- Every event but IDLE and ACTIVITY leaves the interrupt discipline, the outside's lists and the parameters alone. -/
theorem exec_framed {i : Instr} {s t : State} (h1 : i.mnemonic ≠ .idle) (h2 : i.mnemonic ≠ .activity) (h : exec i s = .next t) :
    framed s t := by
  by_cases hi : Instr.isTrn i = true
  · exact (endsTrn_exec hi h).framed
  · cases i <;> first | exact absurd rfl hi | exact absurd rfl h1 | exact absurd rfl h2 | skip
    · cases h; exact ⟨rfl, rfl, rfl, rfl, rfl, rfl, rfl, rfl⟩
    · cases h; exact ⟨rfl, rfl, rfl, rfl, rfl, rfl, rfl, rfl⟩
    · cases h; exact ⟨rfl, rfl, rfl, rfl, rfl, rfl, rfl, rfl⟩
    · exact (quiet_memWrite h).toframed
    · exact (quiet_execReportChanged h).toframed

/-- Every event keeps RAM in its canonical form. -/
theorem exec_ram_wf {i : Instr} {s t : State} (h : exec i s = .next t) (hw : s.ram.wf) : t.ram.wf := by
  by_cases hi : Instr.isTrn i = true
  · obtain ⟨u, hu, rfl⟩ := endsTrn_exec hi h
    exact hu.ramWf hw
  · cases i <;> first | exact absurd rfl hi | skip
    · cases h; exact show (s.ram.write s.params.addrConfig 0).wf from Memory.wf_write hw _ _
    · cases h; exact hw
    · cases h; exact hw
    · cases h; exact hw
    · cases h; exact hw
    · exact (quiet_memWrite h).ramWf hw
    · exact (quiet_execReportChanged h).ramWf hw

/-! ### The ways a step can go -/

/-- The instruction of a cause of the handler (30_encoding.md R92, R93). -/
def causeOfInstr (i : Instr) : Option Cause :=
  match i.mnemonic with
  | .busReset => some .reset
  | .trnEp0Setup | .trnEp0Out | .trnEp0In | .trnEp1 | .trnOtherEp => some .trn
  | .busError => some .error
  | .idle => some .idle
  | .activity => some .actv
  | .otherCause => some .other
  | .reportWrite | .reportChanged | .nonstdRequestType | .getDescriptorDevice | .getDescriptorConfiguration
  | .getDescriptorReport | .getDescriptorString | .getDescriptorStringOutOfRange | .getDescriptorUnknown | .setAddress
  | .setConfiguration | .getConfiguration | .getReport | .setIdle | .unsupportedStandard | .unsupportedClass => none

theorem evCause_evw (c e : BitVec 4) (d : BitVec 1) (p : BitVec 4) (z : BitVec 3) : evCause (evw c e d p z) = c := by
  ext i hi
  simp only [evCause, evw, BitVec.getElem_extractLsb', BitVec.getLsbD_append]
  have h1 : ¬ 12 + i < 3 := by omega
  have h2 : ¬ 12 + i - 3 < 4 := by omega
  have h3 : ¬ 12 + i - 3 - 4 < 1 := by omega
  have h4 : ¬ 12 + i - 3 - 4 - 1 < 4 := by omega
  rw [if_neg (by omega), if_neg (by omega), if_neg (by omega), if_neg (by omega), show 12 + i - 3 - 4 - 1 - 4 = i by omega]
  exact BitVec.getLsbD_eq_getElem hi

theorem evCause_evwLow (c : BitVec 4) (l : BitVec 12) : evCause (evwLow c l) = c := by
  ext i hi
  simp only [evCause, evwLow, BitVec.getElem_extractLsb', BitVec.getLsbD_append]
  rw [if_neg (by omega), show 12 + i - 12 = i by omega]
  exact BitVec.getLsbD_eq_getElem hi

/-- The word formed for a cause carries its code (30_encoding.md R94). -/
theorem formEvw_cause {s : State} {c : Cause} {w : Evw} (h : formEvw s c = some w) : evCause w = c.code := by
  unfold formEvw at h
  split at h
  · split at h
    · cases h
    · cases h; exact evCause_evw _ _ _ _ _
  · cases h; exact evCause_evwLow _ _

/-- A word with a handler's cause decodes to an instruction of that cause. -/
theorem decodeEv_of_cause {w : Evw} {c : Cause} (h : evCause w = c.code) (b0 b1 : Byte) :
    ∃ i, decodeEv w b0 b1 = .ok i ∧ causeOfInstr i = some c := by
  unfold decodeEv
  rw [h]
  cases c
  · exact ⟨_, rfl, rfl⟩
  · refine ⟨_, rfl, ?_⟩
    unfold decodeTrn
    split_ifs <;> rfl
  · exact ⟨_, rfl, rfl⟩
  · exact ⟨_, rfl, rfl⟩
  · exact ⟨_, rfl, rfl⟩
  · exact ⟨_, rfl, rfl⟩

/-- The end of a handler's event: after the drain the handler returns (60_exceptions.md R313). -/
def afterEvent (c : Cause) (t : State) : State :=
  match c with
  | .other => leaveHandler t
  | .reset => t
  | .trn => t
  | .error => t
  | .idle => t
  | .actv => t

/-- One event of the handler, from the place it has reached. -/
theorem runEvent_eq {ex : Instr → State → Result State} {c : Cause} {w : Evw} (hw : evCause w = c.code) (s : State) :
    ∃ i, causeOfInstr i = some c ∧
      runEvent ex c w s = andThen (ex i (s.withPhase (phaseAfter c))) fun t => .next (afterEvent c t) := by
  obtain ⟨i, h1, h2⟩ := decodeEv_of_cause hw 0 0
  refine ⟨i, h2, ?_⟩
  simp only [runEvent, h1]
  cases c <;> rfl

/-- The next event of an invocation: the model stops for an empty queue, or the event of the selected cause runs. -/
theorem handlerStep_cases (ex : Instr → State → Result State) (s : State) :
    (select s s.phase = .trn ∧ s.trnFifo = [] ∧ handlerStep ex s = .fault .transactionQueueEmpty) ∨
    ∃ i, causeOfInstr i = some (select s s.phase) ∧
      handlerStep ex s = andThen (ex i (s.withPhase (phaseAfter (select s s.phase)))) fun t =>
        .next (afterEvent (select s s.phase) t) := by
  unfold handlerStep
  cases hf : formEvw s (select s s.phase) with
  | some w => exact .inr (runEvent_eq (formEvw_cause hf) s)
  | none =>
    refine .inl ?_
    unfold formEvw at hf
    split at hf
    · next hc =>
      split at hf
      · next hq => exact ⟨hc, hq, rfl⟩
      · cases hf
    · cases hf

/-- Two words with the same meaning have the same cause. -/
theorem evCause_of_evwMeaning {v w : Evw} (h : evwMeaning v = evwMeaning w) : evCause v = evCause w := by
  have key : ∀ u : Evw, evCause (evwMeaning u) = evCause u := fun u => by
    unfold evwMeaning
    split_ifs <;>
    · ext i hi
      simp only [evCause, BitVec.getElem_extractLsb', BitVec.getLsbD_and]
      have : i = 0 ∨ i = 1 ∨ i = 2 ∨ i = 3 := by omega
      rcases this with rfl | rfl | rfl | rfl <;> simp
  rw [← key v, ← key w, h]

/-- The base state of a handler's event: the running invocation, or a new one, with the inputs left after it. -/
structure handlerBase (s s0 : State) : Prop where
  running : s0.inHandler = true
  place : (s.inHandler = true ∧ asleep s = false ∧ s0 = s) ∨
    (s.inHandler = false ∧ interruptTaken s = true ∧ s0 = enterHandler s) ∨
    (s.inHandler = false ∧ interruptTaken s = true ∧ ∃ rest, s0 = (enterHandler s).withInputs rest)

/-- Every way a step can go (45_environment_agents.md R271, logs 7, 8, 9). -/
theorem step_cases (s : State) :
    (step s = .next s ∧ s.inputs = []) ∨
    (∃ a rest, s.inputs = .sie a :: rest ∧ (s.inHandler = true → asleep s = true) ∧ step s = sieStep a (s.withInputs rest)) ∨
    (∃ i w b0 b1 rest, s.inputs = .event w b0 b1 :: rest ∧ decodeEv w b0 b1 = .ok i ∧ i.mnemonic.isForeground = true ∧
      s.inHandler = false ∧ s.suspended = false ∧ interruptTaken s = false ∧ step s = exec i (s.withInputs rest)) ∨
    (∃ s0, handlerBase s s0 ∧
      ((select s0 s0.phase = .trn ∧ s0.trnFifo = [] ∧ step s = .fault .transactionQueueEmpty) ∨
      ∃ i, causeOfInstr i = some (select s0 s0.phase) ∧
        step s = andThen (exec i (s0.withPhase (phaseAfter (select s0 s0.phase)))) fun t =>
          .next (afterEvent (select s0 s0.phase) t))) ∨
    (∃ w b0 b1 rest, s.inputs = .event w b0 b1 :: rest ∧
      ((step s = .refused (.reservedCause (evCause w)) ∧ ∃ e, decodeEv w b0 b1 = .error e) ∨
        step s = .refused .foregroundNotEnabled ∨ step s = .refused .handlerEventNotEnabled)) := by
  unfold step stepWith
  by_cases hrun : (s.inHandler && !asleep s) = true
  · rw [if_pos hrun]
    simp only [Bool.and_eq_true, Bool.not_eq_true'] at hrun
    exact .inr (.inr (.inr (.inl ⟨s, ⟨hrun.1, .inl ⟨hrun.1, hrun.2, rfl⟩⟩, handlerStep_cases exec s⟩)))
  · rw [if_neg hrun]
    have hsl : s.inHandler = true → asleep s = true := by
      intro h; simpa [h] using hrun
    split
    · next a rest hin => exact .inr (.inl ⟨a, rest, hin, hsl, rfl⟩)
    · next hin =>
      split
      · next hi =>
        simp only [Bool.and_eq_true, Bool.not_eq_true'] at hi
        exact .inr (.inr (.inr (.inl ⟨enterHandler s, ⟨rfl, .inr (.inl ⟨hi.1, hi.2, rfl⟩)⟩, handlerStep_cases exec _⟩)))
      · exact .inl ⟨rfl, hin⟩
    · next w b0 b1 rest hin =>
      split
      · next hh =>
        refine .inr (.inr (.inr (.inr ⟨w, b0, b1, rest, hin, ?_⟩)))
        split
        · next e he => exact .inl ⟨rfl, e, he⟩
        · split
          · exact .inr (.inl rfl)
          · exact .inr (.inr rfl)
      · next hh =>
        rw [Bool.not_eq_true] at hh
        unfold offeredEvent
        split
        · next e he => exact .inr (.inr (.inr (.inr ⟨w, b0, b1, rest, hin, .inl ⟨rfl, e, he⟩⟩)))
        · next i hi =>
          split
          · next hfg =>
            split
            · exact .inr (.inr (.inr (.inr ⟨w, b0, b1, rest, hin, .inr (.inl rfl)⟩)))
            · next hsu =>
              split
              · next hint =>
                exact .inr (.inr (.inr (.inl ⟨enterHandler s, ⟨rfl, .inr (.inl ⟨hh, hint, rfl⟩)⟩, handlerStep_cases exec _⟩)))
              · next hint =>
                exact .inr (.inr (.inl ⟨i, w, b0, b1, rest, hin, hi, hfg, hh, by simpa using hsu, by simpa using hint, rfl⟩))
          · split
            · next hint =>
              split
              · next hf =>
                refine .inr (.inr (.inr (.inl ⟨(enterHandler s).withInputs rest, ⟨rfl, .inr (.inr ⟨hh, hint, rest, rfl⟩)⟩, .inl ?_⟩)))
                unfold formEvw at hf
                split at hf
                · next hc =>
                  split at hf
                  · next hq => exact ⟨hc, hq, rfl⟩
                  · cases hf
                · cases hf
              · next v hf =>
                split
                · next hm =>
                  refine .inr (.inr (.inr (.inl ⟨(enterHandler s).withInputs rest, ⟨rfl, .inr (.inr ⟨hh, hint, rest, rfl⟩)⟩, .inr ?_⟩)))
                  exact runEvent_eq ((evCause_of_evwMeaning hm).trans (formEvw_cause hf)) _
                · exact .inr (.inr (.inr (.inr ⟨w, b0, b1, rest, hin, .inr (.inr rfl)⟩)))
            · exact .inr (.inr (.inr (.inr ⟨w, b0, b1, rest, hin, .inr (.inr rfl)⟩)))

end Sys2Proof.Machine
end

