-- ==== Sys2Proof/Laws/Encoding.lean ====
section
/-! SUPPORT. The fields of a word put together from its fields, the word put together from its own fields, and the bytes of a word
(30_encoding.md R91, R96, R97). -/

namespace Sys2Proof

/-- The low part of a word put together from two. -/
theorem extract_low {m n : Nat} (x : BitVec m) (y : BitVec n) {k l : Nat} (h : k + l ≤ n) :
    (x ++ y).extractLsb' k l = y.extractLsb' k l := by
  ext i hi
  simp only [BitVec.getElem_extractLsb', BitVec.getLsbD_append]
  rw [if_pos (by omega)]

/-- The high part of a word put together from two. -/
theorem extract_high {m n : Nat} (x : BitVec m) (y : BitVec n) {k l : Nat} (h : n ≤ k) :
    (x ++ y).extractLsb' k l = x.extractLsb' (k - n) l := by
  ext i hi
  simp only [BitVec.getElem_extractLsb', BitVec.getLsbD_append]
  rw [if_neg (by omega), show k + i - n = k - n + i by omega]

/-- The whole of a word. -/
theorem extract_all {n : Nat} (x : BitVec n) : x.extractLsb' 0 n = x := by
  ext i hi
  simp only [BitVec.getElem_extractLsb', Nat.zero_add, BitVec.getLsbD_eq_getElem hi]

/-- A part of a part. -/
theorem extract_extract {n : Nat} (x : BitVec n) {a b k l : Nat} (h : k + l ≤ b) :
    (x.extractLsb' a b).extractLsb' k l = x.extractLsb' (a + k) l := by
  ext i hi
  simp only [BitVec.getElem_extractLsb', BitVec.getLsbD_extractLsb']
  rw [decide_eq_true (by omega), Bool.true_and, Nat.add_assoc]

/-- Two adjoining parts of a word are one part. -/
theorem append_extract {w : Nat} (x : BitVec w) {k m n : Nat} :
    x.extractLsb' (k + n) m ++ x.extractLsb' k n = x.extractLsb' k (m + n) := by
  ext i hi
  simp only [BitVec.getElem_append, BitVec.getElem_extractLsb']
  split
  · rfl
  · next h => rw [show k + n + (i - n) = k + i by omega]

/-! ### The event word -/

theorem evw_fields (c e : BitVec 4) (d : BitVec 1) (p : BitVec 4) (z : BitVec 3) :
    evCause (evw c e d p z) = c ∧ evEndp (evw c e d p z) = e ∧ evDir (evw c e d p z) = d ∧ evPid (evw c e d p z) = p ∧
    evZero (evw c e d p z) = z := by
  refine ⟨?_, ?_, ?_, ?_, ?_⟩ <;> simp only [evCause, evEndp, evDir, evPid, evZero, evw]
  · rw [extract_high _ _ (by omega), extract_high _ _ (by omega), extract_high _ _ (by omega), extract_high _ _ (by omega)]
    exact extract_all c
  · rw [extract_high _ _ (by omega), extract_high _ _ (by omega), extract_high _ _ (by omega), extract_low _ _ (by omega)]
    exact extract_all e
  · rw [extract_high _ _ (by omega), extract_high _ _ (by omega), extract_low _ _ (by omega)]
    exact extract_all d
  · rw [extract_high _ _ (by omega), extract_low _ _ (by omega)]
    exact extract_all p
  · rw [extract_low _ _ (by omega)]
    exact extract_all z

theorem evwLow_fields (c : BitVec 4) (l : BitVec 12) : evCause (evwLow c l) = c ∧ evLow (evwLow c l) = l := by
  constructor <;> simp only [evCause, evLow, evwLow]
  · rw [extract_high _ _ (by omega)]
    exact extract_all c
  · rw [extract_low _ _ (by omega)]
    exact extract_all l

/-- An event word is its five fields. -/
theorem evw_of_fields (w : Evw) : evw (evCause w) (evEndp w) (evDir w) (evPid w) (evZero w) = w := by
  simp only [evw, evCause, evEndp, evDir, evPid, evZero]
  rw [append_extract w (k := 8) (m := 4) (n := 4), append_extract w (k := 7) (m := 8) (n := 1),
    append_extract w (k := 3) (m := 9) (n := 4), append_extract w (k := 0) (m := 13) (n := 3)]
  exact extract_all w

theorem evwLow_of_fields (w : Evw) : evwLow (evCause w) (evLow w) = w := by
  simp only [evwLow, evCause, evLow]
  rw [append_extract w (k := 0) (m := 4) (n := 12)]
  exact extract_all w

/-! ### The SETUP word -/

theorem spw_fields (a : ReqAttr) (n c : BitVec 1) (b : Byte) (v x l : BitVec 16) :
    spAttr (spw a n c b v x l) = a ∧ spNonstd (spw a n c b v x l) = n ∧ spClass (spw a n c b v x l) = c ∧
    spRequest (spw a n c b v x l) = b ∧ spValue (spw a n c b v x l) = v ∧ spIndex (spw a n c b v x l) = x ∧
    spLength (spw a n c b v x l) = l := by
  obtain ⟨dir, rec⟩ := a
  refine ⟨?_, ?_, ?_, ?_, ?_, ?_, ?_⟩ <;>
    simp only [spAttr, spNonstd, spClass, spRequest, spValue, spIndex, spLength, spw, ReqAttr.mk.injEq]
  · constructor
    · rw [extract_high _ _ (by omega), extract_high _ _ (by omega), extract_high _ _ (by omega), extract_low _ _ (by omega)]
      exact extract_all dir
    · rw [extract_low _ _ (by omega)]
      exact extract_all rec
  · rw [extract_high _ _ (by omega), extract_high _ _ (by omega), extract_low _ _ (by omega)]
    exact extract_all n
  · rw [extract_high _ _ (by omega), extract_low _ _ (by omega)]
    exact extract_all c
  · rw [extract_high _ _ (by omega), extract_high _ _ (by omega), extract_high _ _ (by omega), extract_high _ _ (by omega),
      extract_low _ _ (by omega)]
    exact extract_all b
  · rw [extract_high _ _ (by omega), extract_high _ _ (by omega), extract_high _ _ (by omega), extract_high _ _ (by omega),
      extract_high _ _ (by omega), extract_low _ _ (by omega)]
    exact extract_all v
  · rw [extract_high _ _ (by omega), extract_high _ _ (by omega), extract_high _ _ (by omega), extract_high _ _ (by omega),
      extract_high _ _ (by omega), extract_high _ _ (by omega), extract_low _ _ (by omega)]
    exact extract_all x
  · rw [extract_high _ _ (by omega), extract_high _ _ (by omega), extract_high _ _ (by omega), extract_high _ _ (by omega),
      extract_high _ _ (by omega), extract_high _ _ (by omega), extract_high _ _ (by omega)]
    exact extract_all l

/-- A SETUP word is its fields. -/
theorem spw_of_fields (w : Spw) :
    spw (spAttr w) (spNonstd w) (spClass w) (spRequest w) (spValue w) (spIndex w) (spLength w) = w := by
  simp only [spw, spAttr, spNonstd, spClass, spRequest, spValue, spIndex, spLength]
  rw [append_extract w (k := 32) (m := 16) (n := 16), append_extract w (k := 16) (m := 32) (n := 16),
    append_extract w (k := 8) (m := 48) (n := 8), append_extract w (k := 7) (m := 56) (n := 1),
    append_extract w (k := 6) (m := 57) (n := 1), append_extract w (k := 5) (m := 58) (n := 1),
    append_extract w (k := 0) (m := 59) (n := 5)]
  exact extract_all w

/-- `wValue` is `desc_type` above `desc_index` (30_encoding.md R98). -/
theorem wValue_of_fields (v : BitVec 16) : descType v ++ descIndex v = v := by
  simp only [descType, descIndex]
  rw [append_extract v (k := 0) (m := 8) (n := 8)]
  exact extract_all v

theorem wValue_fields (t i : Byte) : descType (t ++ i) = t ∧ descIndex (t ++ i) = i := by
  constructor
  · exact (extract_high t i (by omega)).trans (extract_all t)
  · exact (extract_low t i (by omega)).trans (extract_all i)

/-- `wValue` of a string in range (30_encoding.md R103). -/
theorem wValue_of_string_fields (v : BitVec 16) : descType v ++ v.extractLsb' 2 6 ++ v.extractLsb' 0 2 = v := by
  simp only [descType]
  rw [append_extract v (k := 2) (m := 8) (n := 6), append_extract v (k := 0) (m := 14) (n := 2)]
  exact extract_all v

theorem wValue_string_fields (t : Byte) (h : BitVec 6) (i : BitVec 2) :
    descType (t ++ h ++ i) = t ∧ (t ++ h ++ i).extractLsb' 2 6 = h ∧ (t ++ h ++ i).extractLsb' 0 2 = i := by
  refine ⟨?_, ?_, ?_⟩
  · simp only [descType]
    rw [extract_high _ _ (by omega), extract_high _ _ (by omega)]
    exact extract_all t
  · rw [extract_high _ _ (by omega), extract_low _ _ (by omega)]
    exact extract_all h
  · rw [extract_low _ _ (by omega)]
    exact extract_all i

/-- A string index is in range exactly when its six high bits are 0 (30_encoding.md R103). -/
theorem index_in_range (v : BitVec 16) : v.extractLsb' 2 6 = 0 ↔ (descIndex v).toNat < 4 := by
  have h1 : descIndex v = v.extractLsb' 2 6 ++ v.extractLsb' 0 2 := (append_extract v (k := 0) (m := 6) (n := 2)).symm
  have h2 : (descIndex v).toNat = 4 * (v.extractLsb' 2 6).toNat + (v.extractLsb' 0 2).toNat := by
    rw [h1, BitVec.toNat_append, Nat.shiftLeft_eq, Nat.mul_comm, ← Nat.two_pow_add_eq_or_of_lt (v.extractLsb' 0 2).isLt]
  have h3 := (v.extractLsb' 0 2).isLt
  constructor
  · intro h
    rw [h2, h]
    simpa using h3
  · intro h
    apply BitVec.eq_of_toNat_eq
    show _ = 0
    omega

/-! ### Bytes -/

theorem evWord_of_bytes (w : Evw) : w.extractLsb' 8 8 ++ w.extractLsb' 0 8 = w := by
  rw [append_extract w (k := 0) (m := 8) (n := 8)]
  exact extract_all w

theorem evBytes_of_bytes (lo hi : Byte) : evBytes (hi ++ lo) = [lo, hi] := by
  simp only [evBytes]
  rw [extract_low _ _ (by omega), extract_high _ _ (by omega)]
  exact congrArg₂ (fun a b => [a, b]) (extract_all lo) (extract_all hi)

theorem spWord_of_bytes (w : Spw) :
    spwOfBytes (w.extractLsb' 0 8) (w.extractLsb' 8 8) (w.extractLsb' 16 8) (w.extractLsb' 24 8) (w.extractLsb' 32 8)
      (w.extractLsb' 40 8) (w.extractLsb' 48 8) (w.extractLsb' 56 8) = w := by
  simp only [spwOfBytes]
  rw [append_extract w (k := 48) (m := 8) (n := 8), append_extract w (k := 40) (m := 16) (n := 8),
    append_extract w (k := 32) (m := 24) (n := 8), append_extract w (k := 24) (m := 32) (n := 8),
    append_extract w (k := 16) (m := 40) (n := 8), append_extract w (k := 8) (m := 48) (n := 8),
    append_extract w (k := 0) (m := 56) (n := 8)]
  exact extract_all w

theorem spBytes_of_bytes (b0 b1 b2 b3 b4 b5 b6 b7 : Byte) :
    spBytes (spwOfBytes b0 b1 b2 b3 b4 b5 b6 b7) = [b0, b1, b2, b3, b4, b5, b6, b7] := by
  simp only [spBytes, spwOfBytes, List.cons.injEq, and_true]
  refine ⟨?_, ?_, ?_, ?_, ?_, ?_, ?_, ?_⟩
  · rw [extract_low _ _ (by omega)]; exact extract_all b0
  · rw [extract_high _ _ (by omega), extract_low _ _ (by omega)]; exact extract_all b1
  · rw [extract_high _ _ (by omega), extract_high _ _ (by omega), extract_low _ _ (by omega)]; exact extract_all b2
  · rw [extract_high _ _ (by omega), extract_high _ _ (by omega), extract_high _ _ (by omega), extract_low _ _ (by omega)]
    exact extract_all b3
  · rw [extract_high _ _ (by omega), extract_high _ _ (by omega), extract_high _ _ (by omega), extract_high _ _ (by omega),
      extract_low _ _ (by omega)]
    exact extract_all b4
  · rw [extract_high _ _ (by omega), extract_high _ _ (by omega), extract_high _ _ (by omega), extract_high _ _ (by omega),
      extract_high _ _ (by omega), extract_low _ _ (by omega)]
    exact extract_all b5
  · rw [extract_high _ _ (by omega), extract_high _ _ (by omega), extract_high _ _ (by omega), extract_high _ _ (by omega),
      extract_high _ _ (by omega), extract_high _ _ (by omega), extract_low _ _ (by omega)]
    exact extract_all b6
  · rw [extract_high _ _ (by omega), extract_high _ _ (by omega), extract_high _ _ (by omega), extract_high _ _ (by omega),
      extract_high _ _ (by omega), extract_high _ _ (by omega), extract_high _ _ (by omega)]
    exact extract_all b7

/-! ### Decoding the bytes of a word -/

theorem decode_sp (w : Spw) (rest : List Byte) : decode .sp (spBytes w ++ rest) = .ok (decodeSp w, rest) := by
  simp only [spBytes, List.cons_append, List.nil_append, decode, spWord_of_bytes]

theorem decode_ev {w : Evw} (h : evCause w ≠ 0x8) (rest : List Byte) :
    decode .ev (evBytes w ++ rest) = (decodeEv w 0 0).map fun i => (i, rest) := by
  simp only [evBytes, List.cons_append, List.nil_append, decode, evWord_of_bytes, if_neg h]

theorem decode_ev_operands {w : Evw} (h : evCause w = 0x8) (b0 b1 : Byte) (rest : List Byte) :
    decode .ev (evBytes w ++ [b0, b1] ++ rest) = (decodeEv w b0 b1).map fun i => (i, rest) := by
  simp only [evBytes, List.cons_append, List.nil_append, decode, evWord_of_bytes, if_pos h]

/-- Decoding an event word of a cause other than TRN. -/
theorem decodeEv_evwLow (c : BitVec 4) (l : BitVec 12) (b0 b1 : Byte) :
    decodeEv (evwLow c l) b0 b1 =
      if c = 0x0 then .ok (.busReset l)
      else if c = 0x1 then .ok (decodeTrn (evwLow c l))
      else if c = 0x2 then .ok (.busError l)
      else if c = 0x3 then .ok (.idle l)
      else if c = 0x4 then .ok (.activity l)
      else if c = 0x5 then .ok (.otherCause l)
      else if c = 0x8 then .ok (.reportWrite l b0 b1)
      else if c = 0x9 then .ok (.reportChanged l)
      else .error (.reservedCause c) := by
  obtain ⟨h1, h2⟩ := evwLow_fields c l
  simp only [decodeEv, h1, h2]

/-- Decoding an event word of CAUSE = TRN. -/
theorem decodeEv_evw (e : BitVec 4) (d : BitVec 1) (p : BitVec 4) (z : BitVec 3) (b0 b1 : Byte) :
    decodeEv (evw 1 e d p z) b0 b1 = .ok
      (if e = 0 then
        if d = 0 then
          if p = pidSetup then .trnEp0Setup z else .trnEp0Out p z
        else .trnEp0In p z
      else if e = 1 then .trnEp1 d p z
      else .trnOtherEp e d p z) := by
  obtain ⟨h1, h2, h3, h4, h5⟩ := evw_fields 1 e d p z
  simp only [decodeEv, decodeTrn, h1, h2, h3, h4, h5, if_pos, if_neg (show ¬ (1 : BitVec 4) = 0x0 by decide)]

/-- Decoding a SETUP word put together from its fields. -/
theorem decodeSp_spw (a : ReqAttr) (n c : BitVec 1) (b : Byte) (v x l : BitVec 16) :
    decodeSp (spw a n c b v x l) = if n = 1 then .nonstdRequestType a c b v x l else decodeTyped a c b v x l := by
  obtain ⟨h1, h2, h3, h4, h5, h6, h7⟩ := spw_fields a n c b v x l
  simp only [decodeSp, h1, h2, h3, h4, h5, h6, h7]

/-- An instruction with a SETUP word has the format SP, and the word's bytes. -/
theorem encode_of_spWord {i : Instr} {w : Spw} (h : i.spWord = some w) : i.format = .sp ∧ encode i = spBytes w := by
  cases i <;> simp only [Instr.spWord, Option.some.injEq, reduceCtorEq] at h <;> subst h <;> exact ⟨rfl, rfl⟩

/-- An instruction with an event word has the format EV, and the word's bytes with its operand bytes. -/
theorem encode_of_evWord {i : Instr} {w : Evw} (h : i.evWord = some w) :
    i.format = .ev ∧ encode i = evBytes w ++ i.operandBytes := by
  cases i <;> simp only [Instr.evWord, Option.some.injEq, reduceCtorEq] at h <;> subst h <;> exact ⟨rfl, rfl⟩

/-- Every instruction has a word of its format. -/
theorem word_of_format (i : Instr) :
    (i.format = .sp ∧ ∃ w, i.spWord = some w) ∨ (i.format = .ev ∧ ∃ w, i.evWord = some w) := by
  cases i <;> first | exact .inl ⟨rfl, _, rfl⟩ | exact .inr ⟨rfl, _, rfl⟩

end Sys2Proof
end

