-- ==== Sys2Proof/Laws/Shape.lean ====
section
/-! SUPPORT. The inversion of exec: every way an event can go on, said once, over well-formed parameters and the invariant of the
transfer (10_state.md R26). Claims about all events are read off it. -/

namespace Sys2Proof.Machine

/-- What a next state of an event is, over the invariant of the transfer: one constructor per way an event can end. -/
inductive Shape (i : Instr) (s t : State) : Prop
  | setup (h : i.mnemonic.isSetup = true) (o : setupOutcome s t)
  | inPacket (h : i.mnemonic = .trnEp0In) (a : Nat) (hd : s.ctx.data = .at a) (hr : 0 < s.ctx.remaining.toNat)
      (hk : s.ctx.kind = .ctlIn)
      (o : sendsPacket s t s.pktdis s.ctx.mclass a (packetSize s.ctx.remaining)
        (s.ctx.remaining.toNat - packetSize s.ctx.remaining) (!s.ctx.nextToggle))
  | inEmpty (h : i.mnemonic = .trnEp0In) (hr : s.ctx.remaining = 0) (hk : s.ctx.kind = .ctlIn) (o : t = { s with
        ctx := { s.ctx with nextToggle := !s.ctx.nextToggle }
        bd := { s.bd with
                ep0Out := armed s.bd.ep0Out 8 s.params.ep0OutBuf false true true
                ep0In := armed s.bd.ep0In 0 s.params.ep0InBuf false true (!s.ctx.nextToggle) }
        trnFifo := s.trnFifo.tail
        ip := trnCleared s })
  | inOut (h : i.mnemonic = .trnEp0In) (hk : s.ctx.kind = .ctlOut) (o : t = { awaitsSetup s with
      ctx := { s.ctx with kind := .none }
      dev := if s.dev.pendingAddr = 0 then s.dev else { uaddr := s.dev.pendingAddr, pendingAddr := 0 } })
  | none (h : i.mnemonic = .trnEp0In ∨ i.mnemonic = .trnEp0Out) (hk : s.ctx.kind = .none) (o : t = awaitsSetup s)
  | outIn (h : i.mnemonic = .trnEp0Out) (o : t = { awaitsSetup s with ctx := { s.ctx with kind := .none } })
  | outOut (h : i.mnemonic = .trnEp0Out) (hk : s.ctx.kind = .ctlOut) (hn : s.bd.ep0Out.count = 0)
      (o : t = awaitsOut { s with ctx := { s.ctx with nextToggle := !s.ctx.nextToggle } })
  | ep1Pend (h : i.mnemonic = .trnEp1) (o : transmits s t false s.trnFifo.tail (trnCleared s))
  | ep1Idle (h : i.mnemonic = .trnEp1 ∨ i.mnemonic = .trnOtherEp) (o : t = { s with trnFifo := s.trnFifo.tail, ip := trnCleared s })
  | busReset (h : i.mnemonic = .busReset) (o : execBusReset s = .next t)
  | busError (h : i.mnemonic = .busError) (o : t = { s with errFlags := 0, ip := { s.ip with error := false } })
  | idle (h : i.mnemonic = .idle)
      (o : t = { s with suspended := true, ie := suspendIe, ip := { s.ip with idle := false }, phase := .wake })
  | activity (h : i.mnemonic = .activity)
      (o : t = { s with suspended := false, ie := fullIe, ip := { s.ip with actv := false } })
  | other (h : i.mnemonic = .otherCause) (o : t = { s with ip := { s.ip with other := false } })
  | write (h : i.mnemonic = .reportWrite) (b0 b1 : Byte) (o : t = { s with ram := t.ram }) (hb : t.report = (b0, b1))
      (f : sameBytesExcept s t (inRun s.params.addrReport 2))
  | changedFree (h : i.mnemonic = .reportChanged) (o : transmits s t s.rpt.pending s.trnFifo s.ip)
  | changedBusy (h : i.mnemonic = .reportChanged) (o : t = { s with rpt := { s.rpt with pending := true } })

/-- Every event that goes on ends in one of these ways. -/
theorem exec_shape {i : Instr} {s t : State} (hw : s.params.wf = true) (hok : s.transferOk) (h : exec i s = .next t) : Shape i s t := by
  by_cases hs : i.mnemonic.isSetup = true
  · rcases execSetup_outcome hw hs with ⟨-, h'⟩ | ⟨u, h1, h2, -⟩
    · rw [h'] at h; cases h
    · rw [h1] at h; cases h; exact .setup hs h2
  · cases i <;> first | exact absurd rfl hs | skip
    · exact .busReset rfl h
    · change execTrnEp0Out s = _ at h
      cases hk : s.ctx.kind
      · rw [execTrnEp0Out_none hk] at h; cases h; exact .none (.inr rfl) hk rfl
      · rw [execTrnEp0Out_in hk] at h; cases h; exact .outIn rfl rfl
      · obtain ⟨h1, h2⟩ := hok.2.1 hk
        by_cases hn : s.bd.ep0Out.count = 0
        · rw [execTrnEp0Out_empty hk h2 hn] at h; cases h; exact .outOut rfl hk hn rfl
        · rw [execTrnEp0Out_fault hk h2 hn] at h; cases h
    · change execTrnEp0In s = _ at h
      cases hk : s.ctx.kind
      · rw [execTrnEp0In_none hk] at h; cases h; exact .none (.inl rfl) hk rfl
      · by_cases hr : s.ctx.remaining = 0
        · rw [execTrnEp0In_empty hk hr hok.2.2] at h; cases h; exact .inEmpty rfl hr hk rfl
        · have hp : 0 < s.ctx.remaining.toNat := by
            rcases Nat.eq_zero_or_pos s.ctx.remaining.toNat with h0 | h0
            · exact absurd (BitVec.eq_of_toNat_eq h0) hr
            · exact h0
          obtain ⟨a, hd, hin⟩ := hok.1 hk hp
          obtain ⟨u, h1, h2, -⟩ := execTrnEp0In_in (s := s) (a := a) hw hk hd (hin.part (Nat.le_refl _) (by unfold packetSize; omega))
          rw [h1] at h; cases h
          exact .inPacket rfl a hd hp hk h2
      · rw [execTrnEp0In_out hk] at h; cases h; exact .inOut rfl hk rfl
    · change execTrnEp1 s = _ at h
      cases hp : s.rpt.pending
      · rw [execTrnEp1_idle hp] at h; cases h; exact .ep1Idle (.inl rfl) rfl
      · obtain ⟨u, h1, h2, -⟩ := execTrnEp1_pending hw hp
        rw [h1] at h; cases h; exact .ep1Pend rfl h2
    · cases h; exact .ep1Idle (.inr rfl) (clearTrn_eq s)
    · cases h; exact .busError rfl rfl
    · cases h; exact .idle rfl rfl
    · cases h; exact .activity rfl rfl
    · cases h; exact .other rfl rfl
    · next low b0 b1 =>
      obtain ⟨u, h1, h2, h3, h4, -⟩ := execReportWrite_next hw b0 b1
      rw [show exec (.reportWrite low b0 b1) s = .next u from h1] at h; cases h
      exact .write rfl b0 b1 h2 h3 h4
    · next low =>
      cases ho : s.bd.ep1In.own
      · obtain ⟨u, h1, h2, -⟩ := execReportChanged_free hw ho
        rw [show exec (.reportChanged low) s = .next u from h1] at h; cases h
        exact .changedFree rfl h2
      · rw [show exec (.reportChanged low) s = _ from execReportChanged_busy ho] at h; cases h
        exact .changedBusy rfl rfl

end Sys2Proof.Machine
end

