-- ==== Sys2Proof/Laws/Sie.lean ====
section
/-! SUPPORT. What a step of the SIE can do: its frame, the guard of a token step, the bytes it stores. -/

namespace Sys2Proof.Machine

/-- What the SIE never writes (45_environment_agents.md R270). -/
structure sieFramed (s t : State) : Prop where
  ctx : t.ctx = s.ctx
  dev : t.dev = s.dev
  rpt : t.rpt = s.rpt
  ie : t.ie = s.ie
  suspended : t.suspended = s.suspended
  gie : t.gie = s.gie
  inHandler : t.inHandler = s.inHandler
  phase : t.phase = s.phase
  trace : t.trace = s.trace
  inputs : t.inputs = s.inputs
  params : t.params = s.params
  ramWf : s.ram.wf → t.ram.wf

theorem sieFramed.refl (s : State) : sieFramed s s := ⟨rfl, rfl, rfl, rfl, rfl, rfl, rfl, rfl, rfl, rfl, rfl, id⟩

/-- A token step leaves the state alone or takes its effect under its guard (45_environment_agents.md R273, R283). -/
theorem tokenStep_next {addr : BitVec 7} {ready : State → Bool} {effect : State → State} {s t : State}
    (h : tokenStep addr ready effect s = .next t) :
    t = s ∨ (s.suspended = false ∧ addr = s.dev.uaddr ∧ ready s = true ∧ t = effect s) := by
  unfold tokenStep at h
  split at h
  · cases h
  · next hs =>
    split at h
    · cases h; exact .inl rfl
    · next ha =>
      split at h
      · next hr =>
        cases h
        exact .inr ⟨by simpa using hs, by simpa using ha, hr, rfl⟩
      · cases h

/-- A token step that is enabled takes its effect. -/
theorem tokenStep_taken {ready : State → Bool} {effect : State → State} {s : State} (hs : s.suspended = false)
    (hr : ready s = true) : tokenStep s.dev.uaddr ready effect s = .next (effect s) := by
  simp [tokenStep, hs, hr]

/-- A token step whose guard is false is not enabled. -/
theorem tokenStep_refused {ready : State → Bool} {effect : State → State} {s : State} (hs : s.suspended = false)
    (hr : ready s = false) : tokenStep s.dev.uaddr ready effect s = .refused .sieGuardFalse := by
  simp [tokenStep, hs, hr]

/-- A token step never faults. -/
theorem tokenStep_fault {addr : BitVec 7} {ready : State → Bool} {effect : State → State} {s : State} {e : Fault} :
    tokenStep addr ready effect s ≠ .fault e := by
  unfold tokenStep
  split_ifs <;> simp

theorem tokenStep_refusal {addr : BitVec 7} {ready : State → Bool} {effect : State → State} {s : State} {e : Refusal}
    (h : tokenStep addr ready effect s = .refused e) : e = .sieGuardFalse := by
  unfold tokenStep at h
  split_ifs at h <;> simp_all

theorem sieFramed_pokeBytes (s : State) (a : Nat) (v : List Byte) : sieFramed s (s.pokeBytes a v) := by
  have he := State.pokeBytes_eq s a v
  refine ⟨?_, ?_, ?_, ?_, ?_, ?_, ?_, ?_, ?_, ?_, ?_, fun h => State.pokeBytes_ram_wf h a v⟩ <;> rw [he]

theorem sieFramed_setupToken (packet : Spw) (s : State) : sieFramed s (setupToken packet s) := by
  have key : ∀ u, sieFramed s u →
      sieFramed s (wireWrite (.setup packet) (pushTrn .ep0Out ((handBack .ep0Out pidSetup false 8 u).withPktdis true))) :=
    fun u h => ⟨h.ctx, h.dev, h.rpt, h.ie, h.suspended, h.gie, h.inHandler, h.phase, h.trace, h.inputs, h.params, h.ramWf⟩
  exact key _ (sieFramed_pokeBytes s s.params.ep0OutBuf (spBytes packet))

theorem sieFramed_outData (toggle : Bool) (bytes : List Byte) (s : State) : sieFramed s (outData toggle bytes s) := by
  unfold outData
  split
  · have h := sieFramed_pokeBytes s s.params.ep0OutBuf bytes
    exact ⟨h.ctx, h.dev, h.rpt, h.ie, h.suspended, h.gie, h.inHandler, h.phase, h.trace, h.inputs, h.params, h.ramWf⟩
  · exact sieFramed.refl s

theorem sieFramed_inDone (b : BdIx) (s : State) : sieFramed s (inDone b s) :=
  ⟨rfl, rfl, rfl, rfl, rfl, rfl, rfl, rfl, rfl, rfl, rfl, id⟩

theorem sieFramed_hostBusReset (s : State) : sieFramed s (hostBusReset s) := by
  unfold hostBusReset
  dsimp only
  split <;> exact ⟨rfl, rfl, rfl, rfl, rfl, rfl, rfl, rfl, rfl, rfl, rfl, id⟩

/-- The frame of every step of the SIE. -/
theorem sieStep_framed {a : SieStep} {s t : State} (h : sieStep a s = .next t) : sieFramed s t := by
  have hf : ∀ ip wire, sieFramed s { s with ip := ip, wire := wire } := fun _ _ =>
    ⟨rfl, rfl, rfl, rfl, rfl, rfl, rfl, rfl, rfl, rfl, rfl, id⟩
  cases a <;> simp only [sieStep] at h
  · cases h; exact sieFramed_hostBusReset s
  · rcases tokenStep_next h with rfl | ⟨-, -, -, rfl⟩
    · exact sieFramed.refl _
    · exact sieFramed_setupToken _ s
  · rcases tokenStep_next h with rfl | ⟨-, -, -, rfl⟩
    · exact sieFramed.refl _
    · exact sieFramed_outData _ _ s
  · rcases tokenStep_next h with rfl | ⟨-, -, -, rfl⟩
    · exact sieFramed.refl _
    · exact sieFramed_inDone _ s
  · rcases tokenStep_next h with rfl | ⟨-, -, -, rfl⟩
    · exact sieFramed.refl _
    · exact hf s.ip _
  · rcases tokenStep_next h with rfl | ⟨-, -, -, rfl⟩
    · exact sieFramed.refl _
    · exact hf _ _
  · split at h
    · cases h
    · cases h; exact ⟨rfl, rfl, rfl, rfl, rfl, rfl, rfl, rfl, rfl, rfl, rfl, id⟩
  · split at h
    · cases h
    · cases h; exact hf _ s.wire
  · split at h
    · cases h; exact hf _ s.wire
    · cases h
  · cases h; exact hf _ s.wire

/-- No step of the SIE faults, and a refusal is a guard that is false (60_exceptions.md R307). -/
theorem sieStep_stops {a : SieStep} {s : State} :
    (∀ e, sieStep a s ≠ .fault e) ∧ ∀ e, sieStep a s = .refused e → e = .sieGuardFalse := by
  constructor
  · intro e h
    cases a <;> simp only [sieStep] at h <;>
      first | exact tokenStep_fault h | (split_ifs at h) | cases h
  · intro e h
    cases a <;> simp only [sieStep] at h <;>
      first | exact tokenStep_refusal h | (split_ifs at h; cases h; rfl) | cases h

/-! ### The bytes the SIE stores -/

/-- Bytes stored into EP0_OUT_BUF change those bytes alone (45_environment_agents.md R277, R278). -/
theorem pokeBytes_ep0Out {s : State} (hw : s.params.wf = true) {v : List Byte} (hv : v.length ≤ 8) :
    (s.pokeBytes s.params.ep0OutBuf v) = { s with ram := (s.pokeBytes s.params.ep0OutBuf v).ram } ∧
    (∀ k, k < v.length → (s.pokeBytes s.params.ep0OutBuf v).ramByte (s.params.ep0OutBuf + k) = v.getD k 0) ∧
    sameBytesExcept s (s.pokeBytes s.params.ep0OutBuf v) (inRun s.params.ep0OutBuf v.length) := by
  obtain ⟨t, h1, h2, h3, h4, -⟩ := memWrite_inside (s := s) (a := s.params.ep0OutBuf) (v := v) hw (insideRegion_ep0Out _ hv)
    (clearOfBds_ep0Out hw hv)
  have ht := (memWrite_next_iff.mp h1).2
  subst ht
  exact ⟨h2, h3, h4⟩

/-- The bytes of an IN packet, from the endpoint's buffer (45_environment_agents.md R279). -/
theorem packetBytes_eq {s : State} (hw : s.params.wf = true) {b : BdIx} (hc : (s.bdAt b).count.toNat ≤ 8)
    (hb : b = .ep0In ∨ b = .ep1In) :
    packetBytes b s = (List.range (s.bdAt b).count.toNat).map fun k => s.ramByte (s.bufferOf b + k) := by
  have hl := Params.ram_layout hw
  unfold packetBytes
  rcases hb with rfl | rfl
  · exact State.peekBytes_eq .ram (by simp only [State.bufferOf]; omega)
  · exact State.peekBytes_eq .ram (by simp only [State.bufferOf]; omega)

end Sys2Proof.Machine
end

