-- ==== Sys2Proof/Laws/Keeps.lean ====
section
/-! SUPPORT. An invariant of a step from one of its parts; when an event stops; what the endpoint-0 events leave alone with no premise
on the transfer. -/

namespace Sys2Proof.Machine

/-- What every step of the SIE and every event keeps, and the model's own fields do not touch, every step keeps. -/
theorem step_keeps {P : State → Prop}
    (hsie : ∀ a s t, P s → sieStep a s = .next t → P t)
    (hexec : ∀ i s t, P s → exec i s = .next t → P t)
    (hown : ∀ s ph ih inp, P s → P { s with phase := ph, inHandler := ih, inputs := inp })
    {s t : State} (hP : P s) (h : step s = .next t) : P t := by
  rcases step_cases s with ⟨h1, -⟩ | ⟨a, rest, -, -, h1⟩ | ⟨i, w, b0, b1, rest, -, -, -, -, -, -, h1⟩ |
    ⟨s0, hb, ⟨-, -, h1⟩ | ⟨i, -, h1⟩⟩ | ⟨w, b0, b1, rest, -, ⟨h1, -⟩ | h1 | h1⟩
  · rw [h1] at h; cases h; exact hP
  · rw [h1] at h; exact hsie a _ t (hown s s.phase s.inHandler rest hP) h
  · rw [h1] at h; exact hexec i _ t (hown s s.phase s.inHandler rest hP) h
  · rw [h1] at h; cases h
  · rw [h1] at h
    obtain ⟨u, h2, h3⟩ := andThen_eq_next.mp h
    have hP0 : ∀ ph, P (s0.withPhase ph) := by
      intro ph
      rcases hb.place with ⟨-, -, rfl⟩ | ⟨-, -, rfl⟩ | ⟨-, -, rest, rfl⟩
      · exact hown s0 ph s0.inHandler s0.inputs hP
      · exact hown s ph true s.inputs hP
      · exact hown s ph true rest hP
    have hu := hexec i _ u (hP0 _) h2
    cases h3
    generalize select s0 s0.phase = c
    cases c
    case other => exact hown u .reset false u.inputs hu
    all_goals exact hu
  · rw [h1] at h; cases h
  · rw [h1] at h; cases h
  · rw [h1] at h; cases h

/-- No event changes the parameters (00_scope.md R6). -/
theorem exec_params {i : Instr} {s t : State} (h : exec i s = .next t) : t.params = s.params := by
  by_cases h1 : i.mnemonic = .idle
  · cases i <;> first | (cases h; rfl) | (simp [Instr.mnemonic] at h1)
  by_cases h2 : i.mnemonic = .activity
  · cases i <;> first | (cases h; rfl) | (simp [Instr.mnemonic] at h2)
  exact (exec_framed h1 h2 h).params

/-- Over the invariant of the transfer an event goes on, or is refused by NONSTD_TYPE_POLICY, or meets data without a sink
(60_exceptions.md R308). -/
theorem exec_goes_on_or {i : Instr} {s : State} (hw : s.params.wf = true) (hok : s.transferOk) :
    (∃ t, exec i s = .next t) ∨ (s.params.nonstdTypePolicy = .refuse ∧ exec i s = .refused .nonstandardRequestType) ∨
    (s.ctx.kind = .ctlOut ∧ s.bd.ep0Out.count ≠ 0 ∧ exec i s = .fault (.unspecifiedSink s.bd.ep0Out.count.toNat)) := by
  by_cases hs : i.mnemonic.isSetup = true
  · rcases execSetup_outcome hw hs with ⟨h0, h'⟩ | ⟨u, h1, h2, -⟩
    · exact .inr (.inl ⟨h0, h'⟩)
    · exact .inl ⟨u, h1⟩
  · cases i <;> first | exact absurd rfl hs | skip
    · exact .inl ⟨_, rfl⟩
    · show (∃ t, execTrnEp0Out s = _) ∨ (_ ∧ execTrnEp0Out s = _) ∨ (_ ∧ _ ∧ execTrnEp0Out s = _)
      cases hk : s.ctx.kind
      · exact .inl ⟨_, execTrnEp0Out_none hk⟩
      · exact .inl ⟨_, execTrnEp0Out_in hk⟩
      · obtain ⟨h1, h2⟩ := hok.2.1 hk
        by_cases hn : s.bd.ep0Out.count = 0
        · exact .inl ⟨_, execTrnEp0Out_empty hk h2 hn⟩
        · exact .inr (.inr ⟨rfl, hn, execTrnEp0Out_fault hk h2 hn⟩)
    · refine .inl ?_
      show ∃ t, execTrnEp0In s = _
      cases hk : s.ctx.kind
      · exact ⟨_, execTrnEp0In_none hk⟩
      · by_cases hr : s.ctx.remaining = 0
        · exact ⟨_, execTrnEp0In_empty hk hr hok.2.2⟩
        · have hp : 0 < s.ctx.remaining.toNat := by
            rcases Nat.eq_zero_or_pos s.ctx.remaining.toNat with h0 | h0
            · exact absurd (BitVec.eq_of_toNat_eq h0) hr
            · exact h0
          obtain ⟨a, hd, hin⟩ := hok.1 hk hp
          obtain ⟨u, h1, -⟩ := execTrnEp0In_in (s := s) (a := a) hw hk hd (hin.part (Nat.le_refl _) (by unfold packetSize; omega))
          exact ⟨u, h1⟩
      · exact ⟨_, execTrnEp0In_out hk⟩
    · refine .inl ?_
      show ∃ t, execTrnEp1 s = _
      cases hp : s.rpt.pending
      · exact ⟨_, execTrnEp1_idle hp⟩
      · obtain ⟨u, h1, -⟩ := execTrnEp1_pending hw hp; exact ⟨u, h1⟩
    · exact .inl ⟨_, rfl⟩
    · exact .inl ⟨_, rfl⟩
    · exact .inl ⟨_, rfl⟩
    · exact .inl ⟨_, rfl⟩
    · exact .inl ⟨_, rfl⟩
    · next low b0 b1 => obtain ⟨u, h1, -⟩ := execReportWrite_next hw b0 b1; exact .inl ⟨u, h1⟩
    · refine .inl ?_
      show ∃ t, execReportChanged s = _
      cases ho : s.bd.ep1In.own
      · obtain ⟨u, h1, -⟩ := execReportChanged_free hw ho; exact ⟨u, h1⟩
      · exact ⟨_, execReportChanged_busy ho⟩

/-- What the parts of an event before the TRN condition is cleared leave alone, beside `quiet`. -/
structure calm (s t : State) : Prop where
  trace : t.trace = s.trace
  dev : t.dev = s.dev
  errFlags : t.errFlags = s.errFlags
  pktdis : t.pktdis = s.pktdis
  ip : t.ip = s.ip
  trnFifo : t.trnFifo = s.trnFifo

theorem calm.trans {s t u : State} (h : calm s t) (g : calm t u) : calm s u :=
  ⟨g.1.trans h.1, g.2.trans h.2, g.3.trans h.3, g.4.trans h.4, g.5.trans h.5, g.6.trans h.6⟩

theorem calm.refl (s : State) : calm s s := ⟨rfl, rfl, rfl, rfl, rfl, rfl⟩

theorem calm_memWrite {s t : State} {a : Nat} {v : List Byte} (h : memWrite s a v = .next t) : calm s t := by
  rw [memWrite_eq h]; exact ⟨rfl, rfl, rfl, rfl, rfl, rfl⟩

theorem calm_copy {s t : State} {sp : Space} {src dst n : Nat} (h : copy s sp src dst n = .next t) : calm s t := by
  rw [copy_eq h]; exact ⟨rfl, rfl, rfl, rfl, rfl, rfl⟩

theorem calm_armInData {s t : State} (h : armInData s = .next t) : calm s t := by
  obtain ⟨u, h1, h2⟩ := andThen_eq_next.mp h
  have hu : calm s u := by
    unfold copyFromSource at h1
    split at h1
    · exact calm_copy h1
    · split at h1
      · cases h1; exact calm.refl s
      · cases h1
  cases h2
  exact hu.trans ⟨rfl, rfl, rfl, rfl, rfl, rfl⟩

theorem calm_epilogue {s t : State} {b : Bool} (h : epilogue b s = .next t) : calm s t := by
  unfold epilogue at h
  split at h
  · cases h; exact calm.refl s
  · split at h
    · obtain ⟨u, h1, h2⟩ := andThen_eq_next.mp h
      cases h2
      exact (calm_armInData h1).trans ⟨rfl, rfl, rfl, rfl, rfl, rfl⟩
    · cases h; exact ⟨rfl, rfl, rfl, rfl, rfl, rfl⟩
    · cases h; exact ⟨rfl, rfl, rfl, rfl, rfl, rfl⟩

/-- A transaction-complete event that leaves these registers alone and clears the TRN condition (40_bus_event_dispatcher.md R133). -/
structure ended (s t : State) : Prop where
  trace : t.trace = s.trace
  dev : t.dev = s.dev
  errFlags : t.errFlags = s.errFlags
  pktdis : t.pktdis = s.pktdis
  eq : t.ip = trnCleared s ∧ t.trnFifo = s.trnFifo.tail

theorem ended_clearTrn {s u : State} (h : calm s u) : ended s (clearTrn u) := by
  rw [clearTrn_eq]
  refine ⟨h.1, h.2, h.3, h.4, ?_, ?_⟩
  · show trnCleared u = trnCleared s; unfold trnCleared; rw [h.ip, h.trnFifo]
  · show u.trnFifo.tail = _; rw [h.trnFifo]

theorem ended_finishEp0 {s u t : State} {b : Bool} (h : calm s u) (h' : finishEp0 b u = .next t) : ended s t := by
  obtain ⟨v, h1, h2⟩ := andThen_eq_next.mp h'
  cases h2
  exact ended_clearTrn (h.trans (calm_epilogue h1))

theorem ended_execTrnEp0Out {s t : State} (h : execTrnEp0Out s = .next t) : ended s t := by
  unfold execTrnEp0Out at h
  split at h
  · refine ended_finishEp0 (s := s) ?_ h
    exact ⟨rfl, rfl, rfl, rfl, rfl, rfl⟩
  · obtain ⟨u, h1, h2⟩ := andThen_eq_next.mp h
    have hu : calm s u := by
      unfold copyToSink at h1
      split at h1
      · exact calm_copy h1
      · split at h1
        · cases h1; exact calm.refl s
        · cases h1
    refine ended_finishEp0 (s := s) ?_ h2
    exact hu.trans ⟨rfl, rfl, rfl, rfl, rfl, rfl⟩
  · exact ended_finishEp0 (calm.refl s) h

theorem ended_execTrnEp0In {s t : State} (h : execTrnEp0In s = .next t) :
    ended { s with dev := t.dev } t ∧
      (t.dev = s.dev ∨
        (s.ctx.kind = .ctlOut ∧ s.dev.pendingAddr ≠ 0 ∧ t.dev = { uaddr := s.dev.pendingAddr, pendingAddr := 0 })) := by
  unfold execTrnEp0In at h
  split at h
  · have := ended_finishEp0 (s := s) (by exact ⟨rfl, rfl, rfl, rfl, rfl, rfl⟩) h
    rw [this.dev]; exact ⟨this, .inl rfl⟩
  · next hk =>
    by_cases hp : s.dev.pendingAddr = 0
    · have e : commitAddress (s.withCtx { s.ctx with kind := .none }) = s.withCtx { s.ctx with kind := .none } := by
        unfold commitAddress addressPending; rw [if_neg]; simpa [State.withCtx] using hp
      rw [e] at h
      have := ended_finishEp0 (s := s) (by exact ⟨rfl, rfl, rfl, rfl, rfl, rfl⟩) h
      rw [this.dev]; exact ⟨this, .inl rfl⟩
    · have e : commitAddress (s.withCtx { s.ctx with kind := .none }) =
          { s with ctx := { s.ctx with kind := .none }, dev := { uaddr := s.dev.pendingAddr, pendingAddr := 0 } } := by
        unfold commitAddress addressPending; rw [if_pos]; rfl; simpa [State.withCtx] using hp
      rw [e] at h
      have := ended_finishEp0 (s := { s with dev := { uaddr := s.dev.pendingAddr, pendingAddr := 0 } })
        (by exact ⟨rfl, rfl, rfl, rfl, rfl, rfl⟩) h
      have hd := this.dev
      rw [hd]; exact ⟨this, .inr ⟨hk, hp, rfl⟩⟩
  · have := ended_finishEp0 (s := s) (calm.refl s) h
    rw [this.dev]; exact ⟨this, .inl rfl⟩

/-- The epilogue keeps the kind of the transfer (41_ep0_control_engine.md R163). -/
theorem kind_finishEp0 {b : Bool} {u t : State} (h : finishEp0 b u = .next t) : t.ctx.kind = u.ctx.kind := by
  obtain ⟨v, h1, h2⟩ := andThen_eq_next.mp h
  cases h2
  show v.ctx.kind = _
  unfold epilogue at h1
  split at h1
  · cases h1; rfl
  · split at h1
    · obtain ⟨w, h3, h4⟩ := andThen_eq_next.mp h1
      cases h4
      obtain ⟨x, h5, h6⟩ := andThen_eq_next.mp h3
      cases h6
      show x.ctx.kind = _
      unfold copyFromSource at h5
      split at h5
      · rw [copy_eq h5]
      · split at h5
        · cases h5; rfl
        · cases h5
    · cases h1; rfl
    · cases h1; rfl

/-- The kind a SETUP event ends with is its request's. -/
theorem kind_setupEvent {r : State → State × Bool} {s t : State} (h : setupEvent r s = .next t) :
    t.ctx.kind = (r (aborted s)).1.ctx.kind := by
  rw [setupEvent_eq] at h; exact (kind_finishEp0 h).trans rfl

end Sys2Proof.Machine
end

