-- ==== Sys2Proof/Laws/PerInstr.lean ====
section
/-! SUPPORT. Per instruction: how many bytes an instruction occupies (30_encoding.md R91, R94, R96). -/

namespace Sys2Proof.Laws.EncodedLength

/-- A request has the eight bytes of its packet, REPORT_WRITE its word and two operand bytes, every other event its word. -/
def Statement (i : Instr) : Prop :=
  (encode i).length = if i.format = .sp then 8 else if i.mnemonic = .reportWrite then 4 else 2

theorem busReset : ∀ a, Statement (.busReset a) := fun _ => rfl
theorem trnEp0Setup : ∀ a, Statement (.trnEp0Setup a) := fun _ => rfl
theorem trnEp0Out : ∀ a b, Statement (.trnEp0Out a b) := fun _ _ => rfl
theorem trnEp0In : ∀ a b, Statement (.trnEp0In a b) := fun _ _ => rfl
theorem trnEp1 : ∀ a b c, Statement (.trnEp1 a b c) := fun _ _ _ => rfl
theorem trnOtherEp : ∀ a b c d, Statement (.trnOtherEp a b c d) := fun _ _ _ _ => rfl
theorem busError : ∀ a, Statement (.busError a) := fun _ => rfl
theorem idle : ∀ a, Statement (.idle a) := fun _ => rfl
theorem activity : ∀ a, Statement (.activity a) := fun _ => rfl
theorem otherCause : ∀ a, Statement (.otherCause a) := fun _ => rfl
theorem reportWrite : ∀ a b c, Statement (.reportWrite a b c) := fun _ _ _ => rfl
theorem reportChanged : ∀ a, Statement (.reportChanged a) := fun _ => rfl
theorem nonstdRequestType : ∀ a b c d e f, Statement (.nonstdRequestType a b c d e f) := fun _ _ _ _ _ _ => rfl
theorem getDescriptorDevice : ∀ a b c d, Statement (.getDescriptorDevice a b c d) := fun _ _ _ _ => rfl
theorem getDescriptorConfiguration : ∀ a b c d, Statement (.getDescriptorConfiguration a b c d) := fun _ _ _ _ => rfl
theorem getDescriptorReport : ∀ a b c d, Statement (.getDescriptorReport a b c d) := fun _ _ _ _ => rfl
theorem getDescriptorString : ∀ a b c d, Statement (.getDescriptorString a b c d) := fun _ _ _ _ => rfl
theorem getDescriptorStringOutOfRange : ∀ a b c d, Statement (.getDescriptorStringOutOfRange a b c d) := fun _ _ _ _ => rfl
theorem getDescriptorUnknown : ∀ a b c d e, Statement (.getDescriptorUnknown a b c d e) := fun _ _ _ _ _ => rfl
theorem setAddress : ∀ a b c d, Statement (.setAddress a b c d) := fun _ _ _ _ => rfl
theorem setConfiguration : ∀ a b c d, Statement (.setConfiguration a b c d) := fun _ _ _ _ => rfl
theorem getConfiguration : ∀ a b c d, Statement (.getConfiguration a b c d) := fun _ _ _ _ => rfl
theorem getReport : ∀ a b c d, Statement (.getReport a b c d) := fun _ _ _ _ => rfl
theorem setIdle : ∀ a b c d, Statement (.setIdle a b c d) := fun _ _ _ _ => rfl
theorem unsupportedStandard : ∀ a b c d e, Statement (.unsupportedStandard a b c d e) := fun _ _ _ _ _ => rfl
theorem unsupportedClass : ∀ a b c d e, Statement (.unsupportedClass a b c d e) := fun _ _ _ _ _ => rfl

end Sys2Proof.Laws.EncodedLength
end

