-- ==== Sys2Proof/Machine/Script.lean ====
section
/-! DEFINITION. The event script of 30_encoding.md R108 and its pseudo-lines (R109), as lists of inputs: each bus line stands for one
step of the SIE followed by the event the handler takes. -/

namespace Sys2Proof.Machine

/-- A script line (30_encoding.md R108). -/
inductive ScriptLine where
  | reset
  | setup (packet : Spw)
  | out (toggle : Bool) (bytes : List Byte)
  | in_
  | ep1In
  /-- A token the SIE answers with NAK. -/
  | tokenNak (b : BdIx)
  /-- A token the SIE answers with STALL. -/
  | tokenStall (b : BdIx)
  | error (e : Byte)
  | idle
  | activity
  | other
  | write (b0 b1 : Byte)
  | changed
  deriving DecidableEq, Repr

/-- What a line presents, every token correctly addressed to `uaddr` (30_encoding.md R108, 45_environment_agents.md R273). ACTIVITY ends
the running invocation's wait, so the handler needs no event of its own; OTHER is drained at the next invocation (log 24). -/
def ScriptLine.inputs (uaddr : BitVec 7) : ScriptLine → List Input
  | .reset => [.sie .hostBusReset, .event 0x0000 0 0]
  | .setup packet => [.sie (.setupToken uaddr packet), .event 0x1068 0 0]
  | .out t bytes => [.sie (.outData uaddr t bytes), .event 0x1008 0 0]
  | .in_ => [.sie (.inDone uaddr .ep0In), .event 0x1080 0 0]
  | .ep1In => [.sie (.inDone uaddr .ep1In), .event 0x1180 0 0]
  | .tokenNak b => [.sie (.nak uaddr b)]
  | .tokenStall b => [.sie (.stallHandshake uaddr b)]
  | .error e => [.sie (.busErrorDetected e), .event 0x2000 0 0]
  | .idle => [.sie .idleDetected, .event 0x3000 0 0]
  | .activity => [.sie .activityDetected]
  | .other => [.sie .otherDetected]
  | .write b0 b1 => [.event 0x8000 b0 b1]
  | .changed => [.event 0x9000 0 0]

/-- The pseudo-line GET_DESCRIPTOR type index len (30_encoding.md R109). -/
def ScriptLine.getDescriptor (type index : Byte) (len : BitVec 16) : ScriptLine :=
  .setup (spwOfBytes 0x80 0x06 index type 0x00 0x00 (lowByte len) (highByte len))
/-- GET_REPORT_DESCRIPTOR len (R109). -/
def ScriptLine.getReportDescriptor (len : BitVec 16) : ScriptLine :=
  .setup (spwOfBytes 0x81 0x06 0x00 0x22 0x00 0x00 (lowByte len) (highByte len))
/-- SET_ADDRESS a (R109). -/
def ScriptLine.setAddress (a : Byte) : ScriptLine := .setup (spwOfBytes 0x00 0x05 a 0x00 0x00 0x00 0x00 0x00)
/-- SET_CONFIGURATION c (R109). -/
def ScriptLine.setConfiguration (c : Byte) : ScriptLine := .setup (spwOfBytes 0x00 0x09 c 0x00 0x00 0x00 0x00 0x00)
/-- GET_CONFIGURATION (R109). -/
def ScriptLine.getConfiguration : ScriptLine := .setup (spwOfBytes 0x80 0x08 0x00 0x00 0x00 0x00 0x01 0x00)
/-- GET_REPORT (R109). -/
def ScriptLine.getReport : ScriptLine := .setup (spwOfBytes 0xA1 0x01 0x00 0x01 0x00 0x00 0x02 0x00)
/-- SET_IDLE (R109). -/
def ScriptLine.setIdle : ScriptLine := .setup (spwOfBytes 0x21 0x0A 0x00 0x00 0x00 0x00 0x00 0x00)
/-- STATUS_OUT: an empty DATA1 packet (R109). -/
def ScriptLine.statusOut : ScriptLine := .out true []
/-- STATUS_IN (R109). -/
def ScriptLine.statusIn : ScriptLine := .in_

end Sys2Proof.Machine
end

