-- ==== Sys2Proof/Tests/Slice0.lean ====
section
/-! SUPPORT. Tests: ill-formed terms, one word per constructor written out from 30_encoding.md and the packets of 95_test_vectors.md, small
tests of single events and SIE steps with the values of 95_test_vectors.md (the vector is named at each), and for every statement with
hypotheses concrete states and operands that meet them. -/

namespace Sys2Proof.Tests
open Sys2Proof.Machine

/-! ### Helpers -/

/-- A field of the next state, `none` where the machine stops. -/
def look {α : Type} (r : Result State) (f : State → α) : Option α :=
  match r with
  | .next t => some (f t)
  | .fault _ => none
  | .refused _ => none

/-- The fault a result stops with. -/
def faultOf {α : Type} (r : Result α) : Option Fault :=
  match r with
  | .next _ => none
  | .fault e => some e
  | .refused _ => none

/-- The refusal a result stops with. -/
def refusalOf {α : Type} (r : Result α) : Option Refusal :=
  match r with
  | .next _ => none
  | .fault _ => none
  | .refused e => some e

/-- `ST1` of 95_test_vectors.md. -/
def st1 : State := { State.reset with trace := [0x52], wire := [.reset] }

/-- Owner, status byte and count of a descriptor, as 95_test_vectors.md writes it. -/
structure BdView where
  own : Owner
  status : Byte
  count : Byte
  deriving DecidableEq, Repr

/-- A descriptor as 95_test_vectors.md writes it. -/
def bdView (b : BdIx) (t : State) : BdView := ⟨(t.bdAt b).own, (t.bdAt b).statusByte, (t.bdAt b).count⟩

/-- A state with other parameters. -/
def withParams (s : State) (p : Params) : State := { s with params := p }

/-- `n` bytes of RAM. -/
def bytesAt (a n : Nat) (t : State) : List Byte := t.peekBytes .ram a n

/-- The context after the first packet of the configuration descriptor (95_test_vectors.md E1). -/
def midIn : Ctx := { kind := .ctlIn, mclass := .rom, data := .at 0x1030, remaining := 18, nextToggle := false }

/-- A zero-length OUT context (42_ep0_requests.md R203). -/
def outZero : Ctx := { kind := .ctlOut, mclass := .ram, data := .unspecified, remaining := 0, nextToggle := true }

/-- A state in the middle of an IN transfer. -/
def inState : State := { st1 with ctx := midIn }

/-- A state in an OUT transfer. -/
def outState : State := { st1 with ctx := outZero }

/-- EP1_IN armed with a report, DATA1 (95_test_vectors.md S1). -/
def ep1Armed : State := { st1 with bd := { st1.bd with ep1In := { st1.bd.ep1In with own := .sie, dtsen := true, dts := true, count := 2 } } }

/-- The handler asleep in IDLE's wait (95_test_vectors.md B6). -/
def sleeping : State := { st1 with inHandler := true, phase := .wake, suspended := true, ie := suspendIe }

/-! ### Ill-formed terms are refused -/

theorem test_wf_trnEp0Out_setup_pid : (Instr.trnEp0Out 0xD 0).wf = false ∧ (Instr.trnEp0Out 0x9 0).wf = true := by decide
theorem test_wf_trnOtherEp_endpoint : (Instr.trnOtherEp 0 0 0 0).wf = false ∧ (Instr.trnOtherEp 1 0 0 0).wf = false ∧
    (Instr.trnOtherEp 2 0 0 0).wf = true := by decide
theorem test_wf_string_out_of_range : (Instr.getDescriptorStringOutOfRange ⟨1, 0⟩ 3 0 0).wf = false ∧
    (Instr.getDescriptorStringOutOfRange ⟨1, 0⟩ 4 0 0).wf = true := by decide
theorem test_wf_unknown_type : [(0x01 : Byte), 0x02, 0x22, 0x03].all (fun t => !(Instr.getDescriptorUnknown ⟨1, 0⟩ t 0 0 0).wf) = true ∧
    (Instr.getDescriptorUnknown ⟨1, 0⟩ 0xFF 0 0 0).wf = true := by decide
theorem test_wf_unsupportedStandard : [(0x05 : Byte), 0x06, 0x08, 0x09].all
      (fun r => !(Instr.unsupportedStandard ⟨0, 0⟩ r 0 0 0).wf) = true ∧
    (Instr.unsupportedStandard ⟨0, 0⟩ 0x01 0 0 0).wf = true := by decide
theorem test_wf_unsupportedClass : (Instr.unsupportedClass ⟨0, 1⟩ 0x01 0 0 0).wf = false ∧
    (Instr.unsupportedClass ⟨0, 1⟩ 0x0A 0 0 0).wf = false ∧ (Instr.unsupportedClass ⟨0, 1⟩ 0x09 0 0 0).wf = true := by decide

/-! ### One word per constructor (30_encoding.md R91 to R103; 95_test_vectors.md 2.1, 2.3) -/

theorem test_decode_busReset : decodeTableWord 16 0x0FFF = some (.busReset 0xFFF) := by decide
theorem test_decode_trnEp0Setup : decodeTableWord 16 0x1068 = some (.trnEp0Setup 0) := by decide
theorem test_decode_trnEp0Out : decodeTableWord 16 0x1048 = some (.trnEp0Out 0x9 0) := by decide
theorem test_decode_trnEp0In : decodeTableWord 16 0x10E8 = some (.trnEp0In 0xD 0) := by decide
theorem test_decode_trnEp1 : decodeTableWord 16 0x1168 = some (.trnEp1 0 0xD 0) := by decide
theorem test_decode_trnOtherEp : decodeTableWord 16 0x1F80 = some (.trnOtherEp 0xF 1 0 0) := by decide
theorem test_decode_busError : decodeTableWord 16 0x2000 = some (.busError 0) := by decide
theorem test_decode_idle : decodeTableWord 16 0x3000 = some (.idle 0) := by decide
theorem test_decode_activity : decodeTableWord 16 0x4000 = some (.activity 0) := by decide
theorem test_decode_otherCause : decodeTableWord 16 0x5000 = some (.otherCause 0) := by decide
theorem test_decode_reportWrite : decodeTableWord 32 0x41058000 = some (.reportWrite 0 0x05 0x41) := by decide
theorem test_decode_reportChanged : decodeTableWord 16 0x9007 = some (.reportChanged 7) := by decide
theorem test_decode_reserved : [0x6000, 0x7000, 0xA000, 0xF000].all (fun w => (decodeTableWord 16 w).isNone) = true := by decide
/-- `C0 01 02 03 04 05 06 07`: type field 2. -/
theorem test_decode_nonstdRequestType : decodeTableWord 64 0x07060504030201C0 =
    some (.nonstdRequestType ⟨1, 0⟩ 0 0x01 0x0302 0x0504 0x0706) := by decide
theorem test_decode_getDescriptorDevice : decodeTableWord 64 0x0040000001000680 = some (.getDescriptorDevice ⟨1, 0⟩ 0 0 0x40) := by
  decide
theorem test_decode_getDescriptorConfiguration : decodeTableWord 64 0x0022000002000680 =
    some (.getDescriptorConfiguration ⟨1, 0⟩ 0 0 0x22) := by decide
theorem test_decode_getDescriptorReport : decodeTableWord 64 0x003C000022000681 = some (.getDescriptorReport ⟨1, 1⟩ 0 0 0x3C) := by
  decide
theorem test_decode_getDescriptorString : decodeTableWord 64 0x00FF040903020680 =
    some (.getDescriptorString ⟨1, 0⟩ 2 0x0409 0xFF) := by decide
theorem test_decode_getDescriptorStringOutOfRange : decodeTableWord 64 0x00FF040903040680 =
    some (.getDescriptorStringOutOfRange ⟨1, 0⟩ 4 0x0409 0xFF) := by decide
theorem test_decode_getDescriptorUnknown : decodeTableWord 64 0x00080000FF000680 =
    some (.getDescriptorUnknown ⟨1, 0⟩ 0xFF 0 0 8) := by decide
theorem test_decode_setAddress : decodeTableWord 64 0x0000000000050500 = some (.setAddress ⟨0, 0⟩ 5 0 0) := by decide
theorem test_decode_setConfiguration : decodeTableWord 64 0x0000000000010900 = some (.setConfiguration ⟨0, 0⟩ 1 0 0) := by decide
theorem test_decode_getConfiguration : decodeTableWord 64 0x0001000000000880 = some (.getConfiguration ⟨1, 0⟩ 0 0 1) := by decide
/-- `A1 01 00 01 00 00 02 00` (30_encoding.md R109). -/
theorem test_decode_getReport : decodeTableWord 64 0x00020000010001A1 = some (.getReport ⟨1, 1⟩ 0x0100 0 2) := by decide
/-- `21 0A 00 00 00 00 00 00` (30_encoding.md R109). -/
theorem test_decode_setIdle : decodeTableWord 64 0x0000000000000A21 = some (.setIdle ⟨0, 1⟩ 0 0 0) := by decide
/-- `00 01 00 00 00 00 00 00`: CLEAR_FEATURE. -/
theorem test_decode_unsupportedStandard : decodeTableWord 64 0x0000000000000100 = some (.unsupportedStandard ⟨0, 0⟩ 1 0 0 0) := by
  decide
/-- `21 09 00 02 00 00 02 00`: SET_REPORT. -/
theorem test_decode_unsupportedClass : decodeTableWord 64 0x0002000002000921 =
    some (.unsupportedClass ⟨0, 1⟩ 9 0x0200 0 2) := by decide
theorem test_encode_setAddress : encode (.setAddress ⟨0, 0⟩ 5 0 0) = [0x00, 0x05, 0x05, 0x00, 0x00, 0x00, 0x00, 0x00] := by decide
theorem test_encode_reportWrite : encode (.reportWrite 0 0x05 0x41) = [0x00, 0x80, 0x05, 0x41] := by decide

/-! ### Single events -/

/-- B1. -/
theorem test_busReset : look (exec (.busReset 0) { inState with dev := ⟨5, 9⟩, rpt := ⟨true, false⟩ })
    (fun t => (t.dev, t.rpt, t.ctx, bdView .ep0Out t, t.trace)) =
    some (⟨0, 0⟩, ⟨false, true⟩, { midIn with nextToggle := true }, ⟨.sie, 0x80, 8⟩, [0x52, 0x52]) := by decide
/-- B2. -/
theorem test_busReset_scope_rpt : look (exec (.busReset 0)
      (withParams { inState with rpt := ⟨true, false⟩ } { Params.standard with busResetToggleScope := .rpt }))
    (fun t => (t.ctx.nextToggle, t.rpt.nextToggle)) = some (false, true) := by decide
/-- B4. -/
theorem test_trnOtherEp : look (exec (.trnOtherEp 2 0 0 0) { st1 with trnFifo := [⟨2, 0⟩], ip := { Causes.empty with trn := true } })
    (fun t => (t.trnFifo, t.ip)) = some ([], Causes.empty) := by decide
/-- B5. -/
theorem test_busError : look (exec (.busError 0) { st1 with errFlags := 5, ip := { Causes.empty with error := true } })
    (fun t => (t.errFlags, t.ip.error, t.trace)) = some (0, false, [0x52]) := by decide
/-- B6. -/
theorem test_idle : look (exec (.idle 0) { st1 with ip := { Causes.empty with idle := true } })
    (fun t => (t.suspended, t.ie, t.ip.idle)) = some (true, { Causes.empty with actv := true }, false) := by decide
/-- B7. -/
theorem test_activity : look (exec (.activity 0) { sleeping with ip := { Causes.empty with actv := true } })
    (fun t => (t.suspended, t.ie, t.ip.actv)) =
    some (false, ⟨true, true, true, true, false, false⟩, false) := by decide
/-- B8. -/
theorem test_otherCause : look (exec (.otherCause 0) { st1 with ip := { Causes.empty with other := true } }) (fun t => t.ip.other) =
    some false := by decide
/-- P1, line 2, the handler's part. -/
theorem test_getDescriptorDevice : look (exec (.getDescriptorDevice ⟨1, 0⟩ 0 0 0x40) st1)
    (fun t => (t.ctx, bytesAt 0x0418 8 t, bdView .ep0In t, bdView .ep0Out t)) =
    some ({ kind := .ctlIn, mclass := .rom, data := .at 0x1008, remaining := 10, nextToggle := true },
      [0x12, 0x01, 0x00, 0x02, 0x00, 0x00, 0x00, 0x08], ⟨.sie, 0xC8, 8⟩, ⟨.sie, 0xC8, 8⟩) := by decide
/-- E10. -/
theorem test_getDescriptorDevice_length_zero : look (exec (.getDescriptorDevice ⟨1, 0⟩ 0 0 0) st1)
    (fun t => (t.ctx.data, t.ctx.remaining, bdView .ep0In t)) = some (.at 0x1000, 0, ⟨.sie, 0xC8, 0⟩) := by decide
/-- E1, the second packet `32 09 04 00 00 01 03 00` as DATA0. -/
theorem test_trnEp0In_next_packet : look (exec (.trnEp0In 0 0) { inState with ctx := { midIn with data := .at 0x1028, remaining := 26,
                                                                                                  nextToggle := true } })
    (fun t => (t.ctx, bytesAt 0x0418 8 t, bdView .ep0In t)) =
    some (midIn, [0x32, 0x09, 0x04, 0x00, 0x00, 0x01, 0x03, 0x00], ⟨.sie, 0x88, 8⟩) := by decide
/-- P2, line 3: the address is committed. -/
theorem test_trnEp0In_commit : look (exec (.trnEp0In 0 0) { outState with dev := ⟨0, 5⟩ })
    (fun t => (t.dev, t.ctx.kind, bdView .ep0Out t)) = some (⟨5, 0⟩, .none, ⟨.sie, 0x80, 8⟩) := by decide
/-- E7. -/
theorem test_trnEp0Out_early_status : look (exec (.trnEp0Out 1 0) inState) (fun t => (t.ctx, bdView .ep0Out t)) =
    some ({ midIn with kind := .none }, ⟨.sie, 0x80, 8⟩) := by decide
/-- E3. -/
theorem test_trnEp0Out_zero_length : look (exec (.trnEp0Out 1 0) { outState with
      bd := { outState.bd with ep0Out := { outState.bd.ep0Out with count := 0 } } })
    (fun t => (t.ctx.kind, t.ctx.nextToggle, bdView .ep0Out t, bdView .ep0In t)) =
    some (.ctlOut, false, ⟨.sie, 0x88, 8⟩, ⟨.sie, 0xC8, 0⟩) := by decide
/-- L2: the first packet of the configuration descriptor. -/
theorem test_getDescriptorConfiguration : look (exec (.getDescriptorConfiguration ⟨1, 0⟩ 0 0 0x22) st1)
    (fun t => (t.ctx.data, t.ctx.remaining, bytesAt 0x0418 8 t)) =
    some (.at 0x1028, 26, [0x09, 0x02, 0x22, 0x00, 0x01, 0x01, 0x00, 0x80]) := by decide
/-- P5, line 6: the report descriptor's first bytes. -/
theorem test_getDescriptorReport : look (exec (.getDescriptorReport ⟨1, 1⟩ 0 0 0x3C) st1)
    (fun t => (t.ctx.remaining, bytesAt 0x0418 8 t)) = some (52, [0xA0, 0xA1, 0xA2, 0xA3, 0xA4, 0xA5, 0xA6, 0xA7]) := by decide
/-- E13. -/
theorem test_getDescriptorString : look (exec (.getDescriptorString ⟨1, 0⟩ 2 0x0409 4) st1)
    (fun t => (t.ctx.data, t.ctx.remaining, bytesAt 0x0418 4 t, bdView .ep0In t)) =
    some (.at 0x10B4, 0, [0x08, 0x03, 0x50, 0x00], ⟨.sie, 0xC8, 4⟩) := by decide
/-- L5, Q8: an empty answer, no stall. -/
theorem test_getDescriptorStringOutOfRange : look (exec (.getDescriptorStringOutOfRange ⟨1, 0⟩ 4 0x0409 0xFF) st1)
    (fun t => (t.ctx.kind, t.ctx.remaining, bdView .ep0In t)) = some (.ctlIn, 0, ⟨.sie, 0xC8, 0⟩) := by decide
/-- P3, line 2. -/
theorem test_getDescriptorUnknown : look (exec (.getDescriptorUnknown ⟨1, 0⟩ 0xFF 0 0 8) st1)
    (fun t => (t.ctx.kind, t.ctx.nextToggle, bdView .ep0In t, bdView .ep0Out t, t.pktdis)) =
    some (.none, true, ⟨.sie, 0x84, 0⟩, ⟨.sie, 0x84, 8⟩, false) := by decide
/-- L6: the HID descriptor under HID_DESC_GETTABLE, bytes 18 on of the configuration. -/
theorem test_getDescriptorUnknown_hid : look (exec (.getDescriptorUnknown ⟨1, 1⟩ 0x21 0 0 9)
      (withParams st1 { Params.standard with hidDescGettable := true }))
    (fun t => (t.ctx.remaining, bytesAt 0x0418 8 t)) = some (1, [0x09, 0x21, 0x10, 0x01, 0x00, 0x01, 0x22, 0x3C]) := by decide
/-- P2, line 2: `dev.uaddr` stays 0. -/
theorem test_setAddress : look (exec (.setAddress ⟨0, 0⟩ 5 0 0) st1)
    (fun t => (t.dev, t.ctx.kind, bdView .ep0In t, bdView .ep0Out t)) =
    some (⟨0, 5⟩, .ctlOut, ⟨.sie, 0xC8, 0⟩, ⟨.sie, 0xC8, 8⟩) := by decide
/-- P2, line 4. -/
theorem test_setConfiguration : look (exec (.setConfiguration ⟨0, 0⟩ 1 0 0) st1) (fun t => (t.configuration, t.ctx.kind)) =
    some (1, .ctlOut) := by decide
/-- P2, line 6. -/
theorem test_getConfiguration : look (exec (.getConfiguration ⟨1, 0⟩ 0 0 1) (st1.withConfiguration 1))
    (fun t => (t.ctx.mclass, t.ctx.data, t.ctx.remaining, bytesAt 0x0418 1 t, bdView .ep0In t)) =
    some (.ram, .at 0x0429, 0, [0x01], ⟨.sie, 0xC8, 1⟩) := by decide
/-- 42_ep0_requests.md R199: two bytes whatever `wLength` says. -/
theorem test_getReport : look (exec (.getReport ⟨1, 1⟩ 0x0100 0 8) { st1 with ram := [(0x042A, 0x05), (0x042B, 0x41)] })
    (fun t => (t.ctx.remaining, bytesAt 0x0418 2 t, bdView .ep0In t)) = some (0, [0x05, 0x41], ⟨.sie, 0xC8, 2⟩) := by decide
/-- E1, its last line: the transfer in flight is aborted. -/
theorem test_setIdle : look (exec (.setIdle ⟨0, 1⟩ 0 0 0) inState)
    (fun t => (t.ctx.kind, t.ctx.nextToggle, t.ctx.remaining, t.ctx.data, bdView .ep0In t)) =
    some (.ctlOut, true, 0, .unspecified, ⟨.sie, 0xC8, 0⟩) := by decide
/-- 42_ep0_requests.md R201. -/
theorem test_unsupportedStandard : look (exec (.unsupportedStandard ⟨0, 0⟩ 0x01 0 0 0) st1)
    (fun t => (bdView .ep0In t, bdView .ep0Out t)) = some (⟨.sie, 0x84, 0⟩, ⟨.sie, 0x84, 8⟩) := by decide
/-- 42_ep0_requests.md R202, and F1's trace character. -/
theorem test_unsupportedClass : look (exec (.unsupportedClass ⟨0, 1⟩ 0x09 0x0200 0 2)
      (withParams st1 { Params.standard with traceStall := true }))
    (fun t => (bdView .ep0In t, t.trace)) = some (⟨.sie, 0x84, 0⟩, [0x52, 0x53]) := by decide
/-- 42_ep0_requests.md R204: the three policies. -/
theorem test_nonstdRequestType :
    refusalOf (exec (.nonstdRequestType ⟨0, 0⟩ 0 0x05 5 0 0) st1) = some .nonstandardRequestType ∧
    look (exec (.nonstdRequestType ⟨0, 0⟩ 0 0x05 5 0 0) (withParams st1 { Params.standard with nonstdTypePolicy := .asStandard }))
      (fun t => t.dev) = some ⟨0, 5⟩ ∧
    look (exec (.nonstdRequestType ⟨0, 0⟩ 0 0x05 5 0 0) (withParams st1 { Params.standard with nonstdTypePolicy := .stall }))
      (bdView .ep0In) = some ⟨.sie, 0x84, 0⟩ := by decide
/-- X2 over the bytes of the buffer: TRN_EP0_SETUP runs the request that stands there. -/
theorem test_trnEp0Setup : look (exec (.trnEp0Setup 0) (inState.pokeBytes 0x0410 [0x00, 0x05, 0x05, 0x00, 0x00, 0x00, 0x00, 0x00]))
    (fun t => (t.dev, t.ctx.kind, t.ctx.nextToggle)) = some (⟨0, 5⟩, .ctlOut, true) := by decide
/-- P4, line 2. -/
theorem test_reportWrite : look (exec (.reportWrite 0 0x01 0x02) st1) (fun t => (t.report, t.rpt, bdView .ep1In t)) =
    some ((0x01, 0x02), ⟨false, true⟩, ⟨.device, 0x00, 0⟩) := by decide
/-- S1. -/
theorem test_reportChanged : look (exec (.reportChanged 0) { st1 with ram := [(0x042A, 0x05), (0x042B, 0x41)] })
    (fun t => (bytesAt 0x0420 2 t, bdView .ep1In t, t.rpt, t.gie)) = some ([0x05, 0x41], ⟨.sie, 0xC8, 2⟩, ⟨false, false⟩, true) := by
  decide
/-- S2: the buffer is not touched. -/
theorem test_reportChanged_busy : look (exec (.reportChanged 0) { ep1Armed with ram := [(0x0420, 0x05), (0x042A, 0x06)] })
    (fun t => (bytesAt 0x0420 2 t, t.rpt)) = some ([0x05, 0x00], ⟨true, true⟩) := by decide
/-- S3. -/
theorem test_trnEp1 : look (exec (.trnEp1 1 0 0) { st1 with rpt := ⟨true, false⟩, ram := [(0x042A, 0x06)] })
    (fun t => (bytesAt 0x0420 2 t, bdView .ep1In t, t.rpt)) = some ([0x06, 0x00], ⟨.sie, 0x88, 2⟩, ⟨false, true⟩) := by decide
/-- S4: nothing pending, no action. -/
theorem test_trnEp1_idle : look (exec (.trnEp1 1 0 0) st1) (fun t => (bdView .ep1In t, t.rpt)) =
    some (⟨.device, 0x00, 0⟩, ⟨false, true⟩) := by decide
/-- E4. -/
theorem test_trnEp0Out_no_sink : faultOf (exec (.trnEp0Out 1 0) { outState with
      bd := { outState.bd with ep0Out := { outState.bd.ep0Out with count := 2 } } }) = some (.unspecifiedSink 2) := by decide

/-! ### The SIE (95_test_vectors.md 2.6) -/

/-- H1. -/
theorem test_sie_setupToken : look (sieStep (.setupToken 0 0x0012000001000680) st1)
    (fun t => (bytesAt 0x0410 8 t, bdView .ep0Out t, t.pktdis, t.trnFifo, t.ip.trn)) =
    some ([0x80, 0x06, 0x00, 0x01, 0x00, 0x00, 0x12, 0x00], ⟨.device, 0x34, 8⟩, true, [⟨0, 0⟩], true) := by decide
/-- H4. -/
theorem test_sie_nak : look (sieStep (.nak 0 .ep1In) st1) (fun t => t.wire) = some [.reset, .nak .ep1In] := by decide
/-- H7, H8 over an armed endpoint 1: the packet on the wire and the descriptor handed back. -/
theorem test_sie_inDone : look (sieStep (.inDone 0 .ep1In) { ep1Armed with ram := [(0x0420, 0x05), (0x0421, 0x41)] })
    (fun t => (t.wire, bdView .ep1In t, t.trnFifo)) =
    some ([.reset, .inData 1 true [0x05, 0x41]], ⟨.device, 0x64, 2⟩, [⟨1, 1⟩]) := by decide
/-- H9. -/
theorem test_sie_hostBusReset : look (sieStep .hostBusReset { sleeping with pktdis := true })
    (fun t => (t.ip.reset, t.ip.actv, t.trnFifo, t.pktdis)) = some (true, true, [], false) := by decide
/-- H10. -/
theorem test_sie_errors : look (andThen (sieStep (.busErrorDetected 0x05) st1) (sieStep (.busErrorDetected 0x10)))
    (fun t => (t.errFlags, t.ip.error)) = some (0x15, true) := by decide

/-! ### Placing a word (log 6) -/

theorem test_step_runs_reportWrite : look (step (State.reset.withFetchWord 32 0x41058000)) State.report = some (0x05, 0x41) := by decide
theorem test_step_runs_setAddress : look (step (State.reset.withFetchWord 64 0x0000000000050500)) (fun t => t.dev.pendingAddr) = some 5 := by
  decide

/-! ### Witnesses: states and operands that meet the hypotheses of each statement, `witness_<statement>` -/

/-- A next state exists. -/
def goesOn (r : Result State) : Prop := ∃ t, r = .next t

theorem witness_params_wf : Params.standard.wf = true ∧ State.reset.params.wf = true ∧ st1.params.wf = true ∧
    (withParams st1 { Params.standard with busResetToggleScope := .rpt }).params.wf = true := by decide

theorem reset_ram : State.reset.ram.wf := by decide
theorem reset_queue : State.reset.queueOk := ⟨by decide, by decide⟩
theorem reset_transfer : State.reset.transferOk := ⟨fun h => (by cases h), fun h => (by cases h), fun _ h => (by cases h)⟩
theorem reset_power : State.reset.powerOk := ⟨rfl, by decide, rfl, fun _ => rfl⟩
theorem counts_le (s : State) (h : s.bd = State.reset.bd) : ∀ b, (s.bdAt b).count.toNat ≤ 8 := by
  intro b
  rw [State.bdAt, h]
  cases b <;> decide
theorem reset_descriptors : State.reset.descriptorsOk := ⟨rfl, rfl, rfl, counts_le _ rfl, rfl, rfl, rfl⟩

/-- The rest of the configuration descriptor lies in its region. -/
theorem midIn_inside : insideRegion Params.standard .rom 0x1030 18 :=
  ⟨⟨0x1020, 34⟩, by decide, by decide, by decide⟩
theorem in_transfer : inState.transferOk :=
  ⟨fun _ _ => ⟨0x1030, rfl, midIn_inside⟩, (fun h => by cases h), fun a h => by cases h; decide⟩
theorem out_transfer : outState.transferOk :=
  ⟨fun h => (by cases h), fun _ => ⟨rfl, rfl⟩, fun a h => by cases h⟩

theorem witness_DecodingInvertsEncoding : (Instr.trnOtherEp 0xF 1 0xF 7).wf = true ∧
    (Instr.getDescriptorStringOutOfRange ⟨1, 31⟩ 0xFF 0xFFFF 0xFFFF).wf = true := by decide

theorem witness_EncodingInvertsDecoding : decode .ev [0x00, 0x80, 0x05, 0x41, 0x99] = .ok (.reportWrite 0 0x05 0x41, [0x99]) ∧
    decode .sp [0x21, 0x0A, 0, 0, 0, 0, 0, 0] = .ok (.setIdle ⟨0, 1⟩ 0 0 0, []) := ⟨rfl, rfl⟩

theorem witness_ReservedCausesAreRefused :
    evCause 0x6000 ∈ [0x6, 0x7, 0xA, 0xB, 0xC, 0xD, 0xE, (0xF : BitVec 4)] ∧
    evCause 0xFFFF ∈ [0x6, 0x7, 0xA, 0xB, 0xC, 0xD, 0xE, (0xF : BitVec 4)] ∧
    ({ st1 with inputs := [.event 0x6000 0 0] } : State).inHandler = false ∧
    ({ st1 with inputs := [.event 0x6000 0 0] } : State).inputs = .event 0x6000 0 0 :: [] := by decide

/-- Two SET_ADDRESS, two SET_CONFIGURATION and two GET_DESCRIPTOR words that differ in the bits no rule reads. -/
theorem witness_UnreadSetupBitsDoNotMatter :
    let v := spw ⟨1, 0⟩ 0 0 0x05 0x0005 0 0
    let w := spw ⟨0, 31⟩ 0 0 0x05 0xFF85 0xFFFF 0xFFFF
    let x := spw ⟨1, 0⟩ 0 0 0x09 0x0001 0 0
    let y := spw ⟨0, 31⟩ 0 0 0x09 0xFF01 0xFFFF 0xFFFF
    let a := spw ⟨1, 0⟩ 0 0 0x06 0x0302 0 0xFF
    let b := spw ⟨0, 31⟩ 0 0 0x06 0x0302 0xFFFF 0xFF
    (v ≠ w ∧ spNonstd v = spNonstd w ∧ spClass v = spClass w ∧ spRequest v = spRequest w ∧
      (spValue v).extractLsb' 0 7 = (spValue w).extractLsb' 0 7) ∧
    (x ≠ y ∧ spNonstd x = spNonstd y ∧ spClass x = spClass y ∧ spRequest x = spRequest y ∧
      (spValue x).extractLsb' 0 8 = (spValue y).extractLsb' 0 8) ∧
    (a ≠ b ∧ spNonstd a = spNonstd b ∧ spClass a = spClass b ∧ spRequest a = spRequest b ∧
      descType (spValue a) = descType (spValue b) ∧ spLength a = spLength b ∧ descIndex (spValue a) = descIndex (spValue b)) := by
  decide

/-- A read of a whole region, a write of a whole buffer, and accesses whose second byte leaves the report's region. -/
theorem witness_MemoryReadsWritesAndCopies :
    (∀ k, k < 18 → inSpace st1.params .rom ((0x1000 + k) % 2 ^ st1.params.ptrW) = true) ∧
    ([1, 2, 3, 4, 5, 6, 7, (8 : Byte)].length ≤ 2 ^ st1.params.ptrW ∧
      ∀ k, k < 8 → inSpace st1.params .ram ((0x0410 + k) % 2 ^ st1.params.ptrW) = true ∧
        ¬ (st1.params.bdtBase ≤ (0x0410 + k) % 2 ^ st1.params.ptrW ∧
          (0x0410 + k) % 2 ^ st1.params.ptrW < st1.params.bdtBase + 16)) ∧
    (inSpace st1.params .ram ((0x042B + 1) % 2 ^ st1.params.ptrW) = false ∧
      ∀ j, j < 1 → inSpace st1.params .ram ((0x042B + j) % 2 ^ st1.params.ptrW) = true) ∧
    (inSpace st1.params .rom ((0xFFFF + 1) % 2 ^ st1.params.ptrW) = false ∧
      inSpace st1.params .rom ((0xFFFF + 0) % 2 ^ st1.params.ptrW) = false) ∧
    memRead st1 .rom 0x1000 0 = .next [] ∧ memRead st1 .ram 0x0000 1 = .fault (.ptrRange .ram 0) := by
  refine ⟨by decide, by decide, by decide, by decide, rfl, rfl⟩

theorem witness_RomHoldsTheDescriptors : Params.standard.wf = true ∧ 17 < 18 ∧ 33 < 34 ∧ 59 < 60 ∧
    7 < (Params.standard.string 2).len ∧ 3 < (Params.standard.string 3).len := by decide

theorem witness_BusResetGuarantees :
    (withParams st1 { Params.standard with busResetToggleScope := .rpt }).params.busResetToggleScope ≠ .ctx ∧
    (withParams st1 { Params.standard with busResetToggleScope := .rpt }).params.busResetToggleScope = .rpt ∧
    (withParams st1 { Params.standard with busResetToggleScope := .ctx }).params.busResetToggleScope ≠ .rpt ∧
    (withParams st1 { Params.standard with busResetToggleScope := .ctx }).params.busResetToggleScope = .ctx ∧
    st1.params.busResetToggleScope ≠ .ctx ∧ st1.params.busResetToggleScope ≠ .rpt := by decide

/-- In an invocation with a transaction of endpoint 2 at the head of the queue. -/
def atTrn : State := { st1 with inHandler := true, phase := .trn, ip := { Causes.empty with trn := true }, trnFifo := [⟨2, 0⟩] }
/-- Outside, with an error pending. -/
def atError : State := { st1 with ip := { Causes.empty with error := true } }
/-- A foreground call offered. -/
def atCall : State := { st1 with inputs := [.event 0x8000 0x05 0x41] }
/-- A handler event offered whose unread bits differ from the word the registers form. -/
def atOffer : State := { st1 with ip := { Causes.empty with reset := true }, inputs := [.event 0x0FFF 0 0] }

theorem witness_StepRunsTheDecodedEvent :
    (atTrn.inHandler = true ∧ asleep atTrn = false ∧ formEvw atTrn (select atTrn atTrn.phase) = some 0x1200 ∧
      decodeEv 0x1200 0 0 = .ok (.trnOtherEp 2 0 0 0)) ∧
    (atError.inHandler = false ∧ atError.inputs = [] ∧ interruptTaken atError = true ∧
      formEvw atError (select atError .reset) = some 0x2000 ∧ decodeEv 0x2000 0 0 = .ok (.busError 0)) ∧
    (atCall.inHandler = false ∧ atCall.suspended = false ∧ interruptTaken atCall = false ∧
      atCall.inputs = .event 0x8000 0x05 0x41 :: [] ∧ decodeEv 0x8000 0x05 0x41 = .ok (.reportWrite 0 0x05 0x41) ∧
      (Instr.reportWrite 0 0x05 0x41).mnemonic.isForeground = true) ∧
    (atOffer.inHandler = false ∧ interruptTaken atOffer = true ∧ atOffer.inputs = .event 0x0FFF 0 0 :: [] ∧
      decodeEv 0x0FFF 0 0 = .ok (.busReset 0xFFF) ∧ (Instr.busReset 0xFFF).mnemonic.isForeground = false ∧
      formEvw atOffer (select atOffer .reset) = some 0x0000 ∧ evwMeaning 0x0FFF = evwMeaning 0x0000) := by
  refine ⟨⟨rfl, rfl, rfl, rfl⟩, ⟨rfl, rfl, rfl, rfl, rfl⟩, ⟨rfl, rfl, rfl, rfl, rfl, rfl⟩, rfl, rfl, rfl, rfl, rfl, rfl, by decide⟩

/-- A bus error offered while the registers form a bus reset; one offered with nothing pending; a handler event and a foreground call
into the sleep; a foreground call outside the handler with the processor suspended. -/
theorem witness_EventsNotEnabledAreRefused :
    (let s : State := { atOffer with inputs := [.event 0x2000 0 0] }
     s.inputs = .event 0x2000 0 0 :: [] ∧ decodeEv 0x2000 0 0 = .ok (.busError 0) ∧ s.inHandler = false ∧ interruptTaken s = true ∧
      (Instr.busError 0).mnemonic.isForeground = false ∧ formEvw s (select s .reset) = some 0x0000 ∧
      evwMeaning 0x2000 ≠ evwMeaning 0x0000) ∧
    (let s : State := { st1 with inputs := [.event 0x2000 0 0] }
     s.inHandler = false ∧ interruptTaken s = false ∧ (Instr.busError 0).mnemonic.isForeground = false) ∧
    (asleep { sleeping with inputs := [.event 0x2000 0 0] } = true ∧ asleep { sleeping with inputs := [.event 0x9000 0 0] } = true ∧
      decodeEv 0x9000 0 0 = .ok (.reportChanged 0) ∧ (Instr.reportChanged 0).mnemonic.isForeground = true) ∧
    (let s : State := { st1 with suspended := true, inputs := [.event 0x9000 0 0] }
     s.inHandler = false ∧ s.suspended = true) := by
  refine ⟨⟨rfl, rfl, rfl, rfl, rfl, rfl, by decide⟩, ⟨rfl, rfl, rfl⟩, ⟨rfl, rfl, rfl, rfl⟩, rfl, rfl⟩

theorem witness_OtherStepsBetweenEvents :
    (({ st1 with inputs := [.sie .otherDetected] } : State).inHandler = false ∧
      ({ st1 with inputs := [.sie .otherDetected] } : State).inputs = .sie .otherDetected :: []) ∧
    (asleep { sleeping with inputs := [.sie .activityDetected] } = true) ∧
    (st1.inHandler = false ∧ st1.inputs = [] ∧ interruptTaken st1 = false) ∧
    (({ atError with inputs := [.event 0x9000 0 0] } : State).inHandler = false ∧
      ({ atError with inputs := [.event 0x9000 0 0] } : State).suspended = false ∧
      interruptTaken { atError with inputs := [.event 0x9000 0 0] } = true ∧
      decodeEv 0x9000 0 0 = .ok (.reportChanged 0) ∧ (Instr.reportChanged 0).mnemonic.isForeground = true ∧
      formEvw { atError with inputs := [.event 0x9000 0 0] } (select { atError with inputs := [.event 0x9000 0 0] } .reset) =
        some 0x2000 ∧ decodeEv 0x2000 0 0 = .ok (.busError 0)) := by
  refine ⟨⟨rfl, rfl⟩, rfl, ⟨rfl, rfl, rfl⟩, rfl, rfl, rfl, rfl, rfl, rfl, rfl⟩

theorem witness_HandlerInvocationEnds : atTrn.inHandler = true ∧ sleeping.inHandler = true := by decide

theorem witness_SleepEndsOnlyByActivity :
    (asleep sleeping = true ∧ sleeping.inputs = []) ∧
    (asleep { sleeping with inputs := [.event 0x9000 0 0] } = true ∧ evCause 0x9000 = 0x9 ∧ evCause 0x8000 = 0x8) ∧
    (asleep { sleeping with inputs := [.sie .activityDetected] } = true ∧
      goesOn (step { sleeping with inputs := [.sie .activityDetected] })) ∧
    (({ sleeping with ip := { Causes.empty with actv := true } } : State).inHandler = true ∧ sleeping.phase = .wake ∧
      sleeping.ie = suspendIe ∧ ({ sleeping with ip := { Causes.empty with actv := true } } : State).ip.actv = true) := by
  refine ⟨⟨rfl, rfl⟩, ⟨rfl, rfl, rfl⟩, ⟨rfl, ⟨_, rfl⟩⟩, rfl, rfl, rfl, rfl⟩

theorem witness_SetupRunsTheRequestInTheBuffer :
    (0x0000000000000040 : Spw).getLsbD 6 = true ∧
    ((0x0040000001000680 : Spw).getLsbD 6 = false ∧ (0x0040000001000680 : Spw).getLsbD 5 = false) ∧
    ((0x00020000010001A1 : Spw).getLsbD 6 = false ∧ (0x00020000010001A1 : Spw).getLsbD 5 = true) := by decide

theorem witness_EverySetupCompletes :
    ((Instr.setIdle ⟨0, 1⟩ 0 0 0).mnemonic.isSetup = true ∧ (Instr.setIdle ⟨0, 1⟩ 0 0 0).mnemonic ≠ .nonstdRequestType) ∧
    ((Instr.trnEp0Setup 0).mnemonic.isSetup = true ∧ st1.params.nonstdTypePolicy = .refuse ∧ spNonstd st1.setupWord = 0) ∧
    ((Instr.nonstdRequestType ⟨0, 0⟩ 0 0 0 0 0).mnemonic.isSetup = true ∧
      (withParams st1 { Params.standard with nonstdTypePolicy := .stall }).params.nonstdTypePolicy ≠ .refuse) := by decide

theorem witness_SetupIgnoresTheEarlierTransfer : (Instr.getReport ⟨1, 1⟩ 0 0 2).mnemonic.isSetup = true ∧ inState.ctx ≠ outState.ctx ∧
    inState.params.wf = true := by decide

theorem witness_StringDescriptors : 4 ≤ (4 : Byte).toNat ∧ 4 ≤ (255 : Byte).toNat := by decide

theorem witness_UnknownDescriptorTypes :
    (withParams st1 { Params.standard with hidDescGettable := true }).params.hidDescGettable = true ∧
    ((0xFF : Byte) ≠ 0x01 ∧ (0xFF : Byte) ≠ 0x02 ∧ (0xFF : Byte) ≠ 0x22 ∧ (0xFF : Byte) ≠ 0x03 ∧ (0xFF : Byte) ≠ 0x21) ∧
    ((0x21 : Byte) ≠ 0x01 ∧ (0x21 : Byte) ≠ 0x02 ∧ (0x21 : Byte) ≠ 0x22 ∧ (0x21 : Byte) ≠ 0x03 ∧
      st1.params.hidDescGettable = false) := by decide

theorem witness_NonstandardTypesFollowThePolicy : st1.params.nonstdTypePolicy = .refuse ∧
    (withParams st1 { Params.standard with nonstdTypePolicy := .stall }).params.nonstdTypePolicy = .stall ∧
    (withParams st1 { Params.standard with nonstdTypePolicy := .asStandard }).params.nonstdTypePolicy = .asStandard := by decide

/-- 18 bytes to send; nothing to send, from the last address of the space. -/
theorem witness_ArmInDataSendsTheNextPacket :
    (inState.ctx.data = .at 0x1030 ∧ 0 < inState.ctx.remaining.toNat ∧
      insideRegion inState.params inState.ctx.mclass 0x1030 (min inState.ctx.remaining.toNat 8)) ∧
    (({ st1 with ctx := { midIn with data := .at 0xFFFF, remaining := 0 } } : State).ctx.remaining = 0 ∧
      ∀ a, ({ st1 with ctx := { midIn with data := .at 0xFFFF, remaining := 0 } } : State).ctx.data = .at a →
        a < 2 ^ st1.params.ptrW) :=
  ⟨⟨rfl, by decide, ⟨⟨0x1020, 34⟩, by decide, by decide, by decide⟩⟩, rfl, fun a h => by cases h; decide⟩

theorem witness_TrnEp0InByKind :
    (inState.params.wf = true ∧ inState.transferOk ∧ inState.ctx.kind = .ctlIn ∧ 0 < inState.ctx.remaining.toNat) ∧
    (({ st1 with ctx := { midIn with remaining := 0 } } : State).transferOk ∧
      ({ st1 with ctx := { midIn with remaining := 0 } } : State).ctx.kind = .ctlIn ∧
      ({ st1 with ctx := { midIn with remaining := 0 } } : State).ctx.remaining = 0) ∧
    outState.ctx.kind = .ctlOut ∧ st1.ctx.kind = .none :=
  ⟨⟨by decide, in_transfer, rfl, by decide⟩,
   ⟨⟨fun _ h => absurd h (by decide), fun h => (by cases h), fun a h => by cases h; decide⟩, rfl, rfl⟩, rfl, rfl⟩

/-- An OUT context whose sink is endpoint 1's buffer, with 8 bytes received. -/
def sinkState : State := { outState with ctx := { outZero with data := .at 0x0420 } }

theorem witness_TrnEp0OutByKind :
    inState.ctx.kind = .ctlIn ∧ st1.ctx.kind = .none ∧
    (outState.ctx.kind = .ctlOut ∧ outState.ctx.data = .unspecified ∧
      ({ outState with bd := { outState.bd with ep0Out := { outState.bd.ep0Out with count := 0 } } } : State).bd.ep0Out.count = 0) ∧
    (sinkState.params.wf = true ∧ sinkState.ctx.kind = .ctlOut ∧ sinkState.ctx.data = .at 0x0420 ∧
      sinkState.bd.ep0Out.count.toNat = 8 ∧ insideRegion sinkState.params .ram 0x0420 sinkState.bd.ep0Out.count.toNat ∧
      sinkState.params.bdtBase + 16 ≤ 0x0420) :=
  ⟨rfl, rfl, ⟨rfl, rfl, rfl⟩, by decide, rfl, rfl, rfl, ⟨⟨0x0420, 8⟩, by decide, by decide, by decide⟩, by decide⟩

theorem witness_OutDataWithoutASinkStops : outState.ctx.kind = .ctlOut ∧ outState.ctx.data = .unspecified ∧
    outState.bd.ep0Out.count ≠ 0 := by decide

/-- A request and a bus reset, each ending awake with `pktdis = 0` and room in the queue. -/
theorem witness_Ep0EventsHandOverEp0Out :
    ((Instr.setIdle ⟨0, 1⟩ 0 0 0).mnemonic.isEp0 = true ∧ exec (.setIdle ⟨0, 1⟩ 0 0 0) st1 = .next (beginsOut st1) ∧
      (beginsOut st1).suspended = false ∧ (beginsOut st1).pktdis = false ∧
      (beginsOut st1).trnFifo.length < (beginsOut st1).params.trnFifoDepth) ∧
    ((Instr.busReset 0).mnemonic = .busReset ∧
      look (exec (.busReset 0) st1) (fun t => (t.suspended, t.pktdis, t.trnFifo.length, t.params.trnFifoDepth)) =
        some (false, false, 0, 4)) := by
  refine ⟨⟨rfl, rfl, rfl, rfl, by decide⟩, rfl, rfl⟩

theorem witness_ReportChangedTransmitsOrWaits : st1.bd.ep1In.own = .device ∧ ep1Armed.bd.ep1In.own = .sie := by decide

theorem witness_TrnEp1TransmitsAPendingReport : ({ st1 with rpt := ⟨true, false⟩ } : State).rpt.pending = true ∧
    st1.rpt.pending = false := by decide

theorem ep1Armed_descriptors : ep1Armed.descriptorsOk :=
  ⟨rfl, rfl, rfl, fun b => by cases b <;> decide, rfl, rfl, rfl⟩

theorem witness_ChangesInFlightCoalesce : ep1Armed.params.wf = true ∧ ep1Armed.descriptorsOk ∧ ep1Armed.bd.ep1In.own = .sie ∧
    ep1Armed.suspended = false ∧ ep1Armed.trnFifo.length < ep1Armed.params.trnFifoDepth ∧
    Call.changed ∈ [Call.write 2 0, .changed, .write 3 0, .changed] :=
  ⟨by decide, ep1Armed_descriptors, rfl, rfl, by decide, by decide⟩

/-- A queue at its depth. -/
def fullQueue : State := { st1 with trnFifo := [⟨1, 1⟩, ⟨1, 1⟩, ⟨1, 1⟩, ⟨1, 1⟩] }
/-- EP0_OUT handed back. -/
def ep0Busy : State := { st1 with bd := { st1.bd with ep0Out := { st1.bd.ep0Out with own := .device } } }
/-- Both endpoint-0 descriptors stalled (95_test_vectors.md Q9). -/
def stalled : State := stalls st1

theorem witness_SetupTokenStep :
    (st1.suspended = false ∧ st1.bd.ep0Out.own = .sie ∧ st1.pktdis = false ∧ st1.trnFifo.length < st1.params.trnFifoDepth) ∧
    ep0Busy.bd.ep0Out.own = .device ∧ ({ st1 with pktdis := true } : State).pktdis = true ∧
    fullQueue.params.trnFifoDepth ≤ fullQueue.trnFifo.length := by decide

/-- Eight bytes at `dtsen = 0`; a toggle that agrees and one that does not at `dtsen = 1`; each way the guard fails. -/
theorem witness_OutDataStep :
    (st1.descriptorsOk ∧ st1.bd.ep0Out.own = .sie ∧ st1.bd.ep0Out.stall = false ∧ st1.pktdis = false ∧
      st1.trnFifo.length < st1.params.trnFifoDepth ∧ (List.replicate 8 (0 : Byte)).length ≤ st1.bd.ep0Out.count.toNat ∧
      st1.bd.ep0Out.dtsen = false) ∧
    ((armSetup st1).bd.ep0Out.dtsen = false ∧ (armOutData st1).bd.ep0Out.dtsen = true ∧ (armOutData st1).bd.ep0Out.dts = true ∧
      false ≠ (armOutData st1).bd.ep0Out.dts ∧ (armOutData st1).bd.ep0Out.own = .sie) ∧
    ep0Busy.bd.ep0Out.own = .device ∧ stalled.bd.ep0Out.stall = true ∧
    fullQueue.params.trnFifoDepth ≤ fullQueue.trnFifo.length ∧ st1.bd.ep0Out.count.toNat < (List.replicate 9 (0 : Byte)).length :=
  ⟨⟨⟨rfl, rfl, rfl, counts_le _ rfl, rfl, rfl, rfl⟩, by decide⟩, by decide⟩

/-- The last place of the queue free, and the queue full; each way the guard fails. -/
theorem witness_InPacketStep :
    (ep1Armed.params.wf = true ∧ ep1Armed.descriptorsOk ∧ ep1Armed.suspended = false ∧
      ep1Armed.trnFifo.length < ep1Armed.params.trnFifoDepth ∧ ep1Armed.bd.ep1In.own = .sie) ∧
    ((answersNothing st1).bd.ep0In.own = .sie ∧ (answersNothing st1).bd.ep0In.stall = false ∧ (answersNothing st1).pktdis = false) ∧
    (fullQueue.trnFifo.tail.length < fullQueue.params.trnFifoDepth ∧ fullQueue.params.trnFifoDepth ≤ fullQueue.trnFifo.length) ∧
    (st1.bd.ep0In.own = .device ∧ stalled.bd.ep0In.stall = true ∧ ({ st1 with pktdis := true } : State).pktdis = true ∧
      st1.bd.ep1In.own = .device) ∧
    fullQueue.descriptorsOk ∧ fullQueue.suspended = false ∧
    sieStep (.inDone 0 .ep0Out) st1 = .refused .sieGuardFalse ∧ sieStep (.inDone 0 .ep1Out) st1 = .refused .sieGuardFalse :=
  ⟨⟨by decide, ep1Armed_descriptors, rfl, by decide, rfl⟩, by decide, by decide, by decide,
   ⟨rfl, rfl, rfl, counts_le _ rfl, rfl, rfl, rfl⟩, rfl, rfl, rfl⟩

theorem witness_NakAndStallSteps :
    (st1.bdAt .ep1In).own = .device ∧ ({ st1 with pktdis := true } : State).pktdis = true ∧
    fullQueue.params.trnFifoDepth ≤ fullQueue.trnFifo.length ∧
    ((ep1Armed.bdAt .ep1In).own = .sie ∧ ep1Armed.trnFifo.length < ep1Armed.params.trnFifoDepth) ∧
    ((stalled.bdAt .ep0In).own = .sie ∧ (stalled.bdAt .ep0In).stall = true ∧ stalled.pktdis = false ∧ stalled.suspended = false) ∧
    (st1.bdAt .ep0Out).stall = false := by decide

theorem witness_BusLevelSteps : st1.params.sieResetFlush = true ∧
    (withParams st1 { Params.standard with sieResetFlush := false }).params.sieResetFlush = false ∧ (0x05 : Byte) ≠ 0 ∧
    st1.suspended = false ∧ sleeping.suspended = true := by decide

theorem witness_TokensTheSieDoesNotTake : (5 : BitVec 7) ≠ st1.dev.uaddr ∧ st1.suspended = false ∧ sleeping.suspended = true := by
  decide

/-- `00 05 05 00 00 00 00 00` in EP0_OUT_BUF: SET_ADDRESS 5; and the same with type field 2 under AS_STANDARD. -/
def addressed : State := st1.pokeBytes 0x0410 [0x00, 0x05, 0x05, 0x00, 0x00, 0x00, 0x00, 0x00]
def addressedNonstd : State := withParams (st1.pokeBytes 0x0410 [0x40, 0x05, 0x05, 0x00, 0x00, 0x00, 0x00, 0x00])
  { Params.standard with nonstdTypePolicy := .asStandard }

/-- The status stage that commits an address, a bus reset, SET_ADDRESS in each of its three ways, and a step of the SIE, each going
on. -/
theorem witness_AddressRegistersChangeOnlyAtTheirEvents :
    look (exec (.trnEp0In 0 0) { outState with dev := ⟨0, 5⟩ }) State.dev = some ⟨5, 0⟩ ∧
    look (exec (.busReset 0) { st1 with dev := ⟨5, 6⟩ }) State.dev = some ⟨0, 0⟩ ∧
    (st1.requestOf (.setAddress ⟨0, 0⟩ 5 0 0) = .setAddress ⟨0, 0⟩ 5 0 0 ∧
      look (exec (.setAddress ⟨0, 0⟩ 5 0 0) st1) State.dev = some ⟨0, 5⟩) ∧
    (addressed.requestOf (.trnEp0Setup 0) = .setAddress ⟨0, 0⟩ 5 0 0 ∧ look (exec (.trnEp0Setup 0) addressed) State.dev = some ⟨0, 5⟩) ∧
    (addressedNonstd.requestOf (.trnEp0Setup 0) = .setAddress ⟨0, 0⟩ 5 0 0 ∧
      look (exec (.trnEp0Setup 0) addressedNonstd) State.dev = some ⟨0, 5⟩) ∧
    goesOn (sieStep .hostBusReset st1) := by
  refine ⟨by decide, by decide, by decide, by decide, by decide, ⟨_, rfl⟩⟩

theorem st1_transfer : st1.transferOk := reset_transfer

theorem witness_OnlyTheSieHandsDescriptorsBack :
    (st1.transferOk ∧ goesOn (exec (.setIdle ⟨0, 1⟩ 0 0 0) st1) ∧ (st1.bdAt .ep0Out).own = .sie) ∧
    (st1.descriptorsOk ∧ goesOn (sieStep (.nak 0 .ep0In) st1) ∧ (st1.bdAt .ep0In).own = .device) :=
  ⟨⟨st1_transfer, ⟨_, rfl⟩, rfl⟩, ⟨rfl, rfl, rfl, counts_le _ rfl, rfl, rfl, rfl⟩, ⟨_, rfl⟩, rfl⟩

theorem witness_TheStallFlag :
    (st1.transferOk ∧ exec (.unsupportedStandard ⟨0, 0⟩ 1 0 0 0) st1 = .next stalled ∧ stalled.bdAt .ep0In ≠ st1.bdAt .ep0In ∧
      (stalled.bdAt .ep0In).stall = true) ∧
    (goesOn (exec (.reportChanged 0) { ep1Armed with bd := { ep1Armed.bd with ep1In := { ep1Armed.bd.ep1In with stall := true } } })) ∧
    (stalled.suspended = false ∧ stalled.pktdis = false ∧ (stalled.bdAt .ep0Out).own = .sie ∧ (stalled.bdAt .ep0Out).stall = true) :=
  ⟨⟨st1_transfer, rfl, by decide, by decide⟩, ⟨_, rfl⟩, by decide⟩

theorem witness_TheBlockOnlyClearsWhatTheSieSets : st1.params.wf = true ∧ st1.queueOk ∧ goesOn (exec (.busError 0) st1) :=
  ⟨by decide, reset_queue, ⟨_, rfl⟩⟩

theorem witness_ContextsKeepTheirDiscipline : st1.transferOk ∧
    ((Instr.reportWrite 0 5 6).mnemonic.isForeground = true ∧ goesOn (exec (.reportWrite 0 5 6) st1)) ∧
    ((Instr.setIdle ⟨0, 1⟩ 0 0 0).mnemonic.isForeground = false ∧ goesOn (exec (.setIdle ⟨0, 1⟩ 0 0 0) st1)) :=
  ⟨st1_transfer, ⟨rfl, ⟨_, rfl⟩⟩, rfl, ⟨_, rfl⟩⟩

/-- The third outcome of TRN_EP0_OUT at a sink in EP1_IN_BUF whose byte 5 falls between two regions (20_memory.md R67). -/
theorem witness_WhatEachEventCanRaise : st1.params.wf = true ∧ st1.descriptorsOk ∧ st1.transferOk ∧
    (Instr.idle 0).mnemonic ∈ [.busReset, .busError, .idle, .activity, .otherCause, .trnOtherEp, .trnEp1, .reportWrite,
      Mnemonic.reportChanged] ∧
    (Instr.setIdle ⟨0, 1⟩ 0 0 0).mnemonic.isSetup = true ∧ (Instr.trnEp0Out 1 0).mnemonic = .trnEp0Out ∧
    (Instr.trnEp0In 0 0).mnemonic = .trnEp0In ∧
    faultOf (exec (.trnEp0Out 1 0) { outState with ctx := { outZero with data := .at 0x0424 } }) = some (.ptrRange .ram 0x0429) :=
  ⟨by decide, ⟨rfl, rfl, rfl, counts_le _ rfl, rfl, rfl, rfl⟩, st1_transfer, by decide, rfl, rfl, rfl, rfl⟩

/-- A request that stores the configuration and a SETUP event that arms a packet; an address each may store to and one none does. -/
theorem witness_EventsStoreNowhereElse : st1.params.wf = true ∧ st1.transferOk ∧ goesOn (exec (.setConfiguration ⟨0, 0⟩ 1 0 0) st1) ∧
    packetOf st1.params (st1.requestOf (.getDescriptorDevice ⟨1, 0⟩ 0 0 64)) = 8 ∧
    packetOf addressed.params (addressed.requestOf (.trnEp0Setup 0)) = 0 ∧
    packetOf st1.params (st1.requestOf (.getDescriptorStringOutOfRange ⟨1, 0⟩ 4 0 255)) = 0 ∧
    goesOn (exec (.trnEp0Setup 0) addressed) ∧ goesOn (exec (.trnEp0Out 1 0) inState) ∧
    ¬ storedBy inState (.trnEp0Out 1 0) inState.params.ep0InBuf := by
  refine ⟨by decide, st1_transfer, ⟨_, rfl⟩, rfl, by decide, rfl, ⟨_, rfl⟩, ⟨_, rfl⟩, ?_⟩
  rintro (h | ⟨h, -⟩)
  · exact absurd h (by unfold inBd inRun; decide)
  · cases h

theorem witness_TraceBytes : goesOn (exec (.unsupportedClass ⟨0, 1⟩ 9 0 0 0) st1) ∧ goesOn (sieStep .otherDetected st1) :=
  ⟨⟨_, rfl⟩, ⟨_, rfl⟩⟩

theorem witness_ControlReadsReturnTheDescriptor : st1.params.wf = true ∧ st1.suspended = false ∧
    st1.trnFifo.length ≤ st1.params.trnFifoDepth ∧ fullQueue.trnFifo.length ≤ fullQueue.params.trnFifoDepth := by decide

/-- One step from a state that meets every invariant: the handler takes a bus error. -/
theorem witness_StepKeeps : atError.params.wf = true ∧ atError.ram.wf ∧ atError.queueOk ∧ atError.transferOk ∧ atError.powerOk ∧
    atError.descriptorsOk ∧ goesOn (step atError) :=
  ⟨by decide, reset_ram, ⟨by decide, by decide⟩, reset_transfer, ⟨rfl, by decide, rfl, fun _ => rfl⟩,
   ⟨rfl, rfl, rfl, counts_le _ rfl, rfl, rfl, rfl⟩, ⟨_, rfl⟩⟩

/-- OUT data without a sink, met by the handler; and a reserved word offered. -/
def atSink : State := { outState with inHandler := true, phase := .trn, ip := { Causes.empty with trn := true }, trnFifo := [⟨0, 0⟩] }

theorem witness_StepStopsOnlyAsTheSpecSays :
    (atSink.params.wf = true ∧ atSink.queueOk ∧ atSink.transferOk ∧ atSink.descriptorsOk ∧
      step atSink = .fault (.unspecifiedSink 8)) ∧
    (step { st1 with inputs := [.event 0x6000 0 0] } = .refused (.reservedCause 6)) ∧
    (step { sleeping with inputs := [.event 0x9000 0 0] } = .refused .foregroundNotEnabled) ∧
    (step { st1 with inputs := [.event 0x2000 0 0] } = .refused .handlerEventNotEnabled) ∧
    (step { st1 with inputs := [.sie .activityDetected] } = .refused .sieGuardFalse) :=
  ⟨⟨by decide, ⟨by decide, by decide⟩, out_transfer, ⟨rfl, rfl, rfl, counts_le _ rfl, rfl, rfl, rfl⟩, rfl⟩, rfl, rfl, rfl, rfl⟩

end Sys2Proof.Tests
end

section
/-! PROOFS. Memory accesses at any address, the run of addresses wrapping at `2 ^ PTR_W` (00_scope.md R10, 20_memory.md R61,
60_exceptions.md R306). -/

namespace Sys2Proof.Machine

/-! ### The addresses of an access -/

theorem Params.mem_addrs_iff {p : Params} {a n x : Nat} : x ∈ p.addrs a n ↔ ∃ k < n, p.wrap (a + k) = x := by
  simp [Params.addrs]

/-- No address occurs twice in an access of at most `2 ^ PTR_W` bytes. -/
theorem Params.wrap_add_injOn {p : Params} {a i j : Nat} (hi : i < 2 ^ p.ptrW) (hj : j < 2 ^ p.ptrW)
    (h : p.wrap (a + i) = p.wrap (a + j)) : i = j :=
  Nat.ModEq.eq_of_lt_of_lt (Nat.ModEq.add_left_cancel' a h) hi hj

/-- The search for a bad address of an access ends at the first one. -/
theorem Params.find_addrs_eq_some {p : Params} {a n k : Nat} {bad : Nat → Bool} (hk : k < n) (hbad : bad (p.wrap (a + k)) = true)
    (hfirst : ∀ j < k, bad (p.wrap (a + j)) = false) : (p.addrs a n).find? bad = some (p.wrap (a + k)) := by
  rw [List.find?_eq_some_iff_getElem]
  refine ⟨hbad, k, by simpa using hk, by simp [Params.addrs], fun j hj => ?_⟩
  simp [Params.addrs, hfirst j hj]

/-! ### Bytes stored at addresses that may wrap -/

/-- The first byte goes to the RAM list when its address is outside the BD table. -/
theorem State.pokeBytes_cons_outside {s : State} {a : Nat} (h : inRegion (bdtRegion s.params) (s.params.wrap a) = false)
    (b : Byte) (v : List Byte) :
    s.pokeBytes a (b :: v) = (s.withRam (s.ram.write (s.params.wrap a) b)).pokeBytes (a + 1) v := by
  rw [State.pokeBytes, State.putRamByte_outside h]

/-- Bytes stored outside the BD table change the RAM list alone, and in it only the addresses of the access. -/
theorem State.pokeBytes_frame {s : State} {a : Nat} {v : List Byte}
    (ho : ∀ k < v.length, inRegion (bdtRegion s.params) (s.params.wrap (a + k)) = false) :
    (s.pokeBytes a v).bd = s.bd ∧
    ∀ x, (∀ k < v.length, s.params.wrap (a + k) ≠ x) → (s.pokeBytes a v).ram.read x = s.ram.read x := by
  induction v generalizing s a with
  | nil => exact ⟨rfl, fun _ _ => rfl⟩
  | cons b v ih =>
    rw [List.length_cons] at ho
    have hshift (k : Nat) : a + 1 + k = a + (k + 1) := Nat.succ_add_eq_add_succ a k
    obtain ⟨hbd, hread⟩ := ih (s := s.withRam (s.ram.write (s.params.wrap a) b)) (a := a + 1)
      fun k hk => by rw [hshift]; exact ho (k + 1) (by omega)
    rw [State.pokeBytes_cons_outside (a := a) (ho 0 (by omega))]
    refine ⟨hbd, fun x hx => ?_⟩
    rw [List.length_cons] at hx
    have hne : x ≠ s.params.wrap a := Ne.symm (hx 0 (by omega))
    rw [hread x fun k hk => by rw [hshift]; exact hx (k + 1) (by omega), State.withRam_ram, Memory.read_write_other _ _ hne]

/-- Bytes stored outside the BD table, no more than `2 ^ PTR_W` of them, stand each at its address. -/
theorem State.pokeBytes_read {s : State} {a : Nat} {v : List Byte} (hlen : v.length ≤ 2 ^ s.params.ptrW)
    (ho : ∀ k < v.length, inRegion (bdtRegion s.params) (s.params.wrap (a + k)) = false) {k : Nat} (hk : k < v.length) :
    (s.pokeBytes a v).ram.read (s.params.wrap (a + k)) = v.getD k 0 := by
  induction v generalizing s a k with
  | nil => simp at hk
  | cons b v ih =>
    rw [List.length_cons] at hlen ho hk
    have hshift (k : Nat) : a + 1 + k = a + (k + 1) := Nat.succ_add_eq_add_succ a k
    have ho' : ∀ k < v.length, inRegion (bdtRegion s.params) (s.params.wrap (a + 1 + k)) = false :=
      fun k hk => by rw [hshift]; exact ho (k + 1) (by omega)
    rw [State.pokeBytes_cons_outside (a := a) (ho 0 (by omega))]
    cases k with
    | zero =>
      have hlater : ∀ j < v.length, s.params.wrap (a + 1 + j) ≠ s.params.wrap a := fun j hj heq => by
        rw [hshift] at heq
        exact absurd (Params.wrap_add_injOn (j := 0) (by omega) (by omega) heq) (by omega)
      rw [Nat.add_zero a, (State.pokeBytes_frame (s := s.withRam (s.ram.write (s.params.wrap a) b)) ho').2 _ hlater,
        State.withRam_ram, Memory.read_write_same, List.getD_cons_zero]
    | succ k =>
      rw [← hshift k, List.getD_cons_succ]
      exact ih (s := s.withRam (s.ram.write (s.params.wrap a) b)) (by simp; omega) ho' (k := k) (by omega)

/-! ### Accesses with the region check -/

/-- A read inside the regions answers the bytes of its addresses in order. -/
theorem memRead_of_inSpace {s : State} {sp : Space} {a n : Nat} (h : ∀ k < n, inSpace s.params sp (s.params.wrap (a + k)) = true) :
    memRead s sp a n = .next ((List.range n).map fun k => s.byteAt sp (s.params.wrap (a + k))) := by
  rw [memRead_next_iff]
  refine ⟨fun x hx => ?_, by simp [State.peekBytes, Params.addrs]⟩
  obtain ⟨k, hk, rfl⟩ := Params.mem_addrs_iff.mp hx
  exact h k hk

/-- A write inside RAM and outside the BD table stores each byte at its address, and nothing else. -/
theorem memWrite_of_inSpace {s : State} {a : Nat} {v : List Byte} (hlen : v.length ≤ 2 ^ s.params.ptrW)
    (hin : ∀ k < v.length, inSpace s.params .ram (s.params.wrap (a + k)) = true)
    (ho : ∀ k < v.length, inRegion (bdtRegion s.params) (s.params.wrap (a + k)) = false) :
    ∃ t, memWrite s a v = .next t ∧ t = { s with ram := t.ram } ∧
      (∀ k < v.length, t.ramByte (s.params.wrap (a + k)) = v.getD k 0) ∧
      sameBytesExcept s t (fun x => ∃ k, k < v.length ∧ x = s.params.wrap (a + k)) := by
  obtain ⟨hbd, hread⟩ := State.pokeBytes_frame ho
  refine ⟨s.pokeBytes a v, memWrite_next_iff.mpr ⟨fun x hx => ?_, rfl⟩, ?_, fun k hk => ?_, ?_⟩
  · obtain ⟨k, hk, rfl⟩ := Params.mem_addrs_iff.mp hx
    exact hin k hk
  · rw [State.pokeBytes_eq, hbd]
  · rw [State.ramByte_outside (by rw [State.pokeBytes_params]; exact ho k hk), State.pokeBytes_read hlen ho hk]
  · exact sameBytesExcept_of (State.pokeBytes_params s a v)
      (fun x hx _ => hread x fun k hk heq => hx ⟨k, hk, heq.symm⟩) (fun b x _ _ => by rw [State.bdAt, State.bdAt, hbd])

/-- A read that leaves the regions stops with the first address outside. -/
theorem memRead_fault_of_first {s : State} {sp : Space} {a n k : Nat} (hk : k < n)
    (hout : inSpace s.params sp (s.params.wrap (a + k)) = false)
    (hfirst : ∀ j < k, inSpace s.params sp (s.params.wrap (a + j)) = true) :
    memRead s sp a n = .fault (.ptrRange sp (s.params.wrap (a + k))) := by
  rw [memRead, Params.find_addrs_eq_some hk (by simp [hout]) fun j hj => by simp [hfirst j hj]]

/-- A write that leaves the regions stops with the first address outside. -/
theorem memWrite_fault_of_first {s : State} {a k : Nat} {v : List Byte} (hk : k < v.length)
    (hout : inSpace s.params .ram (s.params.wrap (a + k)) = false)
    (hfirst : ∀ j < k, inSpace s.params .ram (s.params.wrap (a + j)) = true) :
    memWrite s a v = .fault (.ptrRange .ram (s.params.wrap (a + k))) := by
  rw [memWrite, Params.find_addrs_eq_some hk (by simp [hout]) fun j hj => by simp [hfirst j hj]]

/-- A copy goes on with the bytes read. -/
theorem copy_of_memRead_next {s : State} {sp : Space} {src dst n : Nat} {v : List Byte} (h : memRead s sp src n = .next v) :
    copy s sp src dst n = memWrite s dst v := by
  rw [copy, h, andThen_next]

/-- A copy stops where its read stops. -/
theorem copy_of_memRead_fault {s : State} {sp : Space} {src dst n : Nat} {e : Fault} (h : memRead s sp src n = .fault e) :
    copy s sp src dst n = .fault e := by
  rw [copy, h, andThen_fault]

end Sys2Proof.Machine
end

section
/-! PROOFS. The obligations of 00_scope.md. -/

namespace Sys2Proof.Machine

/-- Settles O9: one lemma per access, with `Params.wrap` for the address modulo `2 ^ PTR_W`. -/
theorem memoryReadsWritesAndCopies : Obligations.MemoryReadsWritesAndCopies := by
  intro s
  refine ⟨fun _ _ _ h => memRead_of_inSpace h, fun a v hlen h => ?_, fun _ _ _ _ hk hout hfirst => memRead_fault_of_first hk hout hfirst,
    fun _ _ _ hk hout hfirst => memWrite_fault_of_first hk hout hfirst, fun _ _ _ _ _ h => copy_of_memRead_next h,
    fun _ _ _ _ _ h => copy_of_memRead_fault h, fun _ _ => ⟨rfl, rfl⟩⟩
  refine memWrite_of_inSpace hlen (fun k hk => (h k hk).1) fun k hk => ?_
  rw [Bool.eq_false_iff, Ne, inRegion_bdt]
  exact (h k hk).2

end Sys2Proof.Machine
end

section
/-! PROOFS. The rest of a transfer stays inside the region its request chose (10_state.md R26). -/

namespace Sys2Proof.Machine

/-! ### What keeps the invariant of the transfer -/

/-- The invariant reads the kind, the source and the rest of the context, and the parameters; a context without a transfer promises
only that its pointer has PTR_W bits. -/
theorem State.transferOk.of_ctx {s t : State} (hok : s.transferOk) (hp : t.params = s.params)
    (hk : t.ctx.kind = s.ctx.kind ∨ t.ctx.kind = .none) (hm : t.ctx.mclass = s.ctx.mclass) (hd : t.ctx.data = s.ctx.data)
    (hr : t.ctx.remaining = s.ctx.remaining) : t.transferOk := by
  unfold State.transferOk
  rw [hp, hm, hd, hr]
  rcases hk with hk | hk <;> rw [hk]
  · exact hok
  · exact ⟨fun h => (Kind.noConfusion h), fun h => Kind.noConfusion h, hok.2.2⟩

/-- A state with the same context and parameters. -/
theorem State.transferOk.congr {s t : State} (hok : s.transferOk) (hp : t.params = s.params) (hc : t.ctx = s.ctx) : t.transferOk :=
  hok.of_ctx hp (.inl (by rw [hc])) (by rw [hc]) (by rw [hc]) (by rw [hc])

/-- A context with no source and nothing left. -/
theorem State.transferOk_of_nothingLeft {s : State} (hd : s.ctx.data = .unspecified) (hr : s.ctx.remaining = 0) : s.transferOk := by
  unfold State.transferOk
  rw [hd, hr]
  exact ⟨fun _ h => absurd h (by decide), fun _ => ⟨rfl, rfl⟩, fun _ h => Pointer.noConfusion h⟩

/-- A packet of the first `n` bytes of a run inside a region leaves a rest inside the same region (41_ep0_control_engine.md R165). -/
theorem sendsPacket.transferOk {s t : State} {pktdis dts : Bool} {sp : Space} {a n left : Nat} (hw : s.params.wf = true)
    (hi : insideRegion s.params sp a (n + left)) (hl : left < 2 ^ 16) (h : sendsPacket s t pktdis sp a n left dts) : t.transferOk := by
  obtain ⟨hc, -, -, ht⟩ := h
  have hp : t.params = s.params := by rw [ht]
  have hrem : (BitVec.ofNat 16 left).toNat = left := Nat.mod_eq_of_lt hl
  unfold State.transferOk
  rw [hc, hp]
  refine ⟨fun _ hpos => ⟨_, rfl, ?_⟩, fun hk => Kind.noConfusion hk, fun x hx => ?_⟩
  · have hfit := hi.fits hw
    rw [hrem] at hpos ⊢
    rw [Params.wrap_eq (by omega)]
    exact hi.part (by omega) (by omega)
  · cases hx
    exact Nat.mod_lt _ (Nat.two_pow_pos _)

/-! ### The events and the steps -/

/-- Every SETUP event ends with a context that promises what its request chose (42_ep0_requests.md R203). -/
theorem setupOutcome.transferOk {s t : State} (hw : s.params.wf = true) (hok : s.transferOk) (h : setupOutcome s t) : t.transferOk := by
  rcases h with ⟨sp, a, n, hn, -, hi, hb⟩ | rfl | ⟨dev, ram, rfl, -⟩ | rfl
  · exact sendsPacket.transferOk hw (by rwa [Nat.add_sub_cancel' (Nat.min_le_left n 8)]) (by omega) hb
  · exact State.transferOk_of_nothingLeft rfl rfl
  · exact State.transferOk_of_nothingLeft rfl rfl
  · exact hok.of_ctx rfl (.inr rfl) rfl rfl rfl

/-- An event that transmits a report leaves the transfer alone. -/
theorem transmits.transferOk {s t : State} {pending : Bool} {fifo : List TrnEntry} {ip : Causes} (hok : s.transferOk)
    (h : transmits s t pending fifo ip) : t.transferOk := by
  obtain ⟨-, -, -, ht⟩ := h
  exact hok.congr (by rw [ht]) (by rw [ht])

/-- Every event keeps the rest of a transfer inside the region its request chose (10_state.md R26 iii). -/
theorem exec_transferOk {i : Instr} {s t : State} (hw : s.params.wf = true) (hok : s.transferOk) (h : exec i s = .next t) :
    t.transferOk := by
  cases exec_shape hw hok h with
  | setup _ o => exact o.transferOk hw hok
  | inPacket _ a hd hr hk o =>
    obtain ⟨b, hb, hi⟩ := hok.1 hk hr
    obtain rfl : a = b := Pointer.at.inj (hd.symm.trans hb)
    have hle : packetSize s.ctx.remaining ≤ s.ctx.remaining.toNat := Nat.min_le_left _ _
    exact o.transferOk hw (by rwa [Nat.add_sub_cancel' hle]) (by omega)
  | inEmpty _ _ _ o | outOut _ _ _ o => subst o; exact hok.of_ctx rfl (.inl rfl) rfl rfl rfl
  | inOut _ _ o | outIn _ o => subst o; exact hok.of_ctx rfl (.inr rfl) rfl rfl rfl
  | ep1Pend _ o | changedFree _ o => exact o.transferOk hok
  | busReset _ o => cases o; exact hok.of_ctx rfl (.inl rfl) rfl rfl rfl
  | write _ _ _ o => exact hok.congr (by rw [o]) (by rw [o])
  | none _ _ o | ep1Idle _ o | busError _ o | idle _ o | activity _ o | other _ o | changedBusy _ o =>
    subst o; exact hok.congr rfl rfl

/-- Settles O56: the SIE leaves the context alone, and every event keeps the invariant (`exec_transferOk`). -/
theorem stepKeepsTheTransfer : Obligations.StepKeepsTheTransfer := by
  intro s t hw hok h
  refine (step_keeps (P := fun s => s.params.wf = true ∧ s.transferOk) ?_ ?_ (fun _ _ _ _ hP => hP) ⟨hw, hok⟩ h).2
  · intro a s t ⟨hw, hok⟩ h
    have hf := sieStep_framed h
    exact ⟨hf.params ▸ hw, hok.congr hf.params hf.ctx⟩
  · intro i s t ⟨hw, hok⟩ h
    exact ⟨exec_params h ▸ hw, exec_transferOk hw hok h⟩

end Sys2Proof.Machine
end

section
/-! SUPPORT. The inversion of a step of the SIE: every way it can go on, said once (45_environment_agents.md R273 to R283). -/

namespace Sys2Proof.Machine

/-! ### The guards of the steps that complete a transaction -/

theorem setupReady_iff {s : State} :
    setupReady s = true ↔ (s.bdAt .ep0Out).own = .sie ∧ s.pktdis = false ∧ s.trnFull = false := by
  simp [setupReady, and_assoc]

theorem outReady_iff {bytes : List Byte} {s : State} :
    outReady bytes s = true ↔ (s.bdAt .ep0Out).own = .sie ∧ (s.bdAt .ep0Out).stall = false ∧ s.pktdis = false ∧ s.trnFull = false ∧
      bytes.length ≤ (s.bdAt .ep0Out).count.toNat := by
  simp [outReady, and_assoc]

theorem inReady_iff {b : BdIx} {s : State} :
    inReady b s = true ↔ (b = .ep0In ∨ b = .ep1In) ∧ (s.bdAt b).own = .sie ∧ (s.bdAt b).stall = false ∧
      (b = .ep0In → s.pktdis = false) ∧ s.trnFull = false := by
  simp [inReady, and_assoc, imp_iff_not_or]

/-! ### The inversion -/

/-- What a next state of the SIE is: a token to another address changes nothing, a transaction completes under its guard, and every other
step only sets causes but TRN, error flags and records of the wire. -/
inductive SieShape (s t : State) : Prop
  | unchanged (o : t = s)
  | busReset (o : t = hostBusReset s)
  | setup (packet : Spw) (hr : setupReady s = true) (o : t = setupToken packet s)
  | outPacket (toggle : Bool) (bytes : List Byte) (hr : outReady bytes s = true) (o : t = outData toggle bytes s)
  | inPacket (b : BdIx) (hr : inReady b s = true) (o : t = inDone b s)
  | flags (o : t = { s with ip := t.ip, errFlags := t.errFlags, wire := t.wire }) (hi : t.ip.trn = s.ip.trn)

/-- A step that sets causes, error flags and records alone. -/
theorem SieShape.of_flags (s : State) {ip : Causes} (e : BitVec 8) (wire : List WireRecord) (hi : ip.trn = s.ip.trn) :
    SieShape s { s with ip := ip, errFlags := e, wire := wire } := .flags rfl hi

/-- Every step of the SIE that goes on is one of these. -/
theorem sieStep_shape {a : SieStep} {s t : State} (h : sieStep a s = .next t) : SieShape s t := by
  cases a <;> simp only [sieStep] at h
  case hostBusReset => cases h; exact .busReset rfl
  case setupToken addr packet =>
    rcases tokenStep_next h with o | ⟨-, -, hr, o⟩
    · exact .unchanged o
    · exact .setup packet hr o
  case outData addr toggle bytes =>
    rcases tokenStep_next h with o | ⟨-, -, hr, o⟩
    · exact .unchanged o
    · exact .outPacket toggle bytes hr o
  case inDone addr b =>
    rcases tokenStep_next h with o | ⟨-, -, hr, o⟩
    · exact .unchanged o
    · exact .inPacket b hr o
  case nak addr b | stallHandshake addr b =>
    rcases tokenStep_next h with o | ⟨-, -, -, rfl⟩
    · exact .unchanged o
    · exact .of_flags s s.errFlags _ rfl
  case busErrorDetected | idleDetected | activityDetected =>
    split at h <;> cases h
    exact .of_flags s _ s.wire rfl
  case otherDetected => cases h; exact .of_flags s s.errFlags s.wire rfl

end Sys2Proof.Machine
end

section
/-! PROOFS. A pending TRN cause says that the transaction-status queue is not empty (10_state.md R43, D30). -/

namespace Sys2Proof.Machine

/-- The invariant reads the pending cause, the queue and the parameters. -/
theorem State.queueOk.congr {s t : State} (hq : s.queueOk) (hi : t.ip.trn = s.ip.trn) (hf : t.trnFifo = s.trnFifo)
    (hp : t.params = s.params) : t.queueOk := by
  unfold State.queueOk
  rw [hi, hf, hp]
  exact hq

/-- Clearing the TRN condition pops one entry and leaves the cause pending exactly when another waits (40_bus_event_dispatcher.md
R133). -/
theorem State.queueOk.clearTrn {s : State} (hq : s.queueOk) : (clearTrn s).queueOk := by
  rw [clearTrn_eq]
  refine ⟨decide_eq_true_iff, ?_⟩
  show s.trnFifo.tail.length ≤ s.params.trnFifoDepth
  rw [List.length_tail]
  exact Nat.le_trans (Nat.sub_le _ _) hq.2

/-- A completed transaction queued while there is room (45_environment_agents.md R277 to R279). -/
theorem queueOk_pushTrn {s : State} (b : BdIx) (hr : s.trnFull = false) : (pushTrn b s).queueOk := by
  have hroom : s.trnFifo.length < s.params.trnFifoDepth := by simpa [State.trnFull] using hr
  refine ⟨iff_of_true rfl (by simp [pushTrn]), ?_⟩
  show (s.trnFifo ++ [_]).length ≤ s.params.trnFifoDepth
  rw [List.length_append, List.length_singleton]
  exact hroom

/-- A bus reset of the host empties the queue and takes the cause back, or leaves both (45_environment_agents.md R276). -/
theorem State.queueOk.hostBusReset {s : State} (hq : s.queueOk) : (hostBusReset s).queueOk := by
  unfold Machine.hostBusReset
  dsimp only
  split
  · exact ⟨iff_of_false Bool.false_ne_true fun h => h rfl, Nat.zero_le _⟩
  · exact hq.congr rfl rfl rfl

/-- A record on the wire leaves the queue alone. -/
theorem State.queueOk.wireWrite {s : State} (hq : s.queueOk) (r : WireRecord) : (wireWrite r s).queueOk := hq.congr rfl rfl rfl

@[simp] theorem trnFull_withPktdis (s : State) (v : Bool) : (s.withPktdis v).trnFull = s.trnFull := rfl

@[simp] theorem trnFull_handBack (b : BdIx) (pid : BitVec 4) (dts : Bool) (count : BitVec 8) (s : State) :
    (handBack b pid dts count s).trnFull = s.trnFull := rfl

@[simp] theorem trnFull_pokeBytes (s : State) (a : Nat) (v : List Byte) : (s.pokeBytes a v).trnFull = s.trnFull := by
  rw [State.pokeBytes_eq]
  rfl

/-- SETUP_TOKEN queues its completion. -/
theorem queueOk_setupToken {s : State} (hr : s.trnFull = false) (packet : Spw) : (setupToken packet s).queueOk :=
  (queueOk_pushTrn .ep0Out (by simp [hr])).wireWrite _

/-- OUT_DATA queues its completion, or discards the packet. -/
theorem queueOk_outData {s : State} (hq : s.queueOk) (hr : s.trnFull = false) (toggle : Bool) (bytes : List Byte) :
    (outData toggle bytes s).queueOk := by
  unfold outData
  split
  · exact (queueOk_pushTrn .ep0Out (by simp [hr])).wireWrite _
  · exact hq

/-- Every step of the SIE keeps the queue: a transaction completes only while the queue has room. -/
theorem sieStep_queueOk {a : SieStep} {s t : State} (hq : s.queueOk) (h : sieStep a s = .next t) : t.queueOk := by
  cases sieStep_shape h with
  | unchanged o => exact o ▸ hq
  | busReset o => exact o ▸ hq.hostBusReset
  | setup packet hr o =>
    obtain ⟨-, -, hroom⟩ := setupReady_iff.mp hr
    exact o ▸ queueOk_setupToken hroom packet
  | outPacket toggle bytes hr o =>
    obtain ⟨-, -, -, hroom, -⟩ := outReady_iff.mp hr
    exact o ▸ queueOk_outData hq hroom toggle bytes
  | inPacket b hr o =>
    obtain ⟨-, -, -, -, hroom⟩ := inReady_iff.mp hr
    exact o ▸ queueOk_pushTrn b hroom
  | flags o hi => exact hq.congr hi (by rw [o]) (by rw [o])

/-- Every event keeps the queue: it clears the TRN condition at its end, or touches neither the queue nor the cause. -/
theorem exec_queueOk {i : Instr} {s t : State} (hq : s.queueOk) (h : exec i s = .next t) : t.queueOk := by
  by_cases hi : Instr.isTrn i = true
  · obtain ⟨u, hu, rfl⟩ := endsTrn_exec hi h
    exact (hq.congr (by rw [hu.ip]) hu.trnFifo hu.params).clearTrn
  · cases i with
    | busReset _ | busError _ | idle _ | activity _ | otherCause _ => cases h; exact hq.congr rfl rfl rfl
    | reportWrite _ _ _ =>
      have hu := quiet_memWrite h
      exact hq.congr (by rw [hu.ip]) hu.trnFifo hu.params
    | reportChanged _ =>
      have hu := quiet_execReportChanged h
      exact hq.congr (by rw [hu.ip]) hu.trnFifo hu.params
    | _ => exact absurd rfl hi

/-- Settles O55: the SIE (`sieStep_queueOk`) and every event (`exec_queueOk`) keep the queue. -/
theorem stepKeepsTheQueue : Obligations.StepKeepsTheQueue := fun _ _ hq h =>
  step_keeps (fun _ _ _ => sieStep_queueOk) (fun _ _ _ => exec_queueOk) (fun _ _ _ _ hq => hq) hq h

end Sys2Proof.Machine
end

section
/-! SUPPORT. What an event and a step of the SIE can do to a buffer descriptor, said once: an event arms it, the SIE hands it back
(10_state.md R34). -/

namespace Sys2Proof.Machine

/-! ### What an event does to a descriptor -/

/-- The event has armed the descriptor: handed it to the SIE with its own buffer and at most 8 bytes, stalled only as a stalling SETUP
event stalls both descriptors of endpoint 0 (41_ep0_control_engine.md R164 to R169, 43_ep1_report_engine.md R222, R223). -/
def armedBy (i : Instr) (s t : State) (b : BdIx) : Prop :=
  b ≠ .ep1Out ∧ ∃ (count : BitVec 8) (stall dtsen dts : Bool), count.toNat ≤ 8 ∧
    t.bdAt b = armed (s.bdAt b) count (s.bufferOf b) stall dtsen dts ∧
    (stall = true → i.mnemonic.isSetup = true ∧ (b = .ep0Out ∨ b = .ep0In) ∧ t.bd.ep0Out.stall = true ∧ t.bd.ep0In.stall = true)

section
variable {i : Instr} {s t : State}

/-- An arm that does not stall. -/
theorem armedBy.of_ready {b : BdIx} {count : BitVec 8} {dtsen dts : Bool} (hb : b ≠ .ep1Out) (hc : count.toNat ≤ 8)
    (h : t.bdAt b = armed (s.bdAt b) count (s.bufferOf b) false dtsen dts) : armedBy i s t b :=
  ⟨hb, count, false, dtsen, dts, hc, h, fun h => Bool.noConfusion h⟩

/-- An event that arms EP0_OUT alone. -/
theorem bdAt_of_armsEp0Out {dtsen dts : Bool}
    (h : t.bd = { s.bd with ep0Out := armed s.bd.ep0Out 8 s.params.ep0OutBuf false dtsen dts }) (b : BdIx) :
    t.bdAt b = s.bdAt b ∨ armedBy i s t b := by
  cases b
  case ep0Out => exact .inr (.of_ready (by decide) (count := 8) (by decide) (by rw [State.bdAt, h]; rfl))
  all_goals exact .inl (by rw [State.bdAt, h]; rfl)

/-- An event that arms EP1_IN alone. -/
theorem bdAt_of_armsEp1In {dtsen dts : Bool}
    (h : t.bd = { s.bd with ep1In := armed s.bd.ep1In 2 s.params.ep1InBuf false dtsen dts }) (b : BdIx) :
    t.bdAt b = s.bdAt b ∨ armedBy i s t b := by
  cases b
  case ep1In => exact .inr (.of_ready (by decide) (count := 2) (by decide) (by rw [State.bdAt, h]; rfl))
  all_goals exact .inl (by rw [State.bdAt, h]; rfl)

/-- An event that arms both descriptors of endpoint 0, EP0_IN with `n` bytes; both are stalled or none is. -/
theorem bdAt_of_armsEp0 {stall dtsen dts dtsen' dts' : Bool} {n : Nat} (hn : n ≤ 8) (hs : stall = true → i.mnemonic.isSetup = true)
    (h : t.bd = { s.bd with
                  ep0Out := armed s.bd.ep0Out 8 s.params.ep0OutBuf stall dtsen dts
                  ep0In := armed s.bd.ep0In (BitVec.ofNat 8 n) s.params.ep0InBuf stall dtsen' dts' }) (b : BdIx) :
    t.bdAt b = s.bdAt b ∨ armedBy i s t b := by
  have hstall : t.bd.ep0Out.stall = stall ∧ t.bd.ep0In.stall = stall := by rw [h]; exact ⟨rfl, rfl⟩
  have hboth (hb : b = .ep0Out ∨ b = .ep0In) (h1 : stall = true) : i.mnemonic.isSetup = true ∧ (b = .ep0Out ∨ b = .ep0In) ∧
      t.bd.ep0Out.stall = true ∧ t.bd.ep0In.stall = true := ⟨hs h1, hb, hstall.1.trans h1, hstall.2.trans h1⟩
  cases b
  case ep0Out => exact .inr ⟨by decide, 8, stall, dtsen, dts, by decide, by rw [State.bdAt, h]; rfl, hboth (.inl rfl)⟩
  case ep0In =>
    have hc : (BitVec.ofNat 8 n).toNat ≤ 8 := by rw [BitVec.toNat_ofNat]; omega
    exact .inr ⟨by decide, BitVec.ofNat 8 n, stall, dtsen', dts', hc, by rw [State.bdAt, h]; rfl, hboth (.inr rfl)⟩
  all_goals exact .inl (by rw [State.bdAt, h]; rfl)

/-- An event that leaves the descriptors alone. -/
theorem bdAt_of_bd_eq (h : t.bd = s.bd) (b : BdIx) : t.bdAt b = s.bdAt b ∨ armedBy i s t b := .inl (by rw [State.bdAt, h]; rfl)

/-- An IN data packet arms both descriptors of endpoint 0. -/
theorem sendsPacket.bdAt {pktdis dts : Bool} {sp : Space} {a n left : Nat} (hn : n ≤ 8)
    (h : sendsPacket s t pktdis sp a n left dts) (b : BdIx) : t.bdAt b = s.bdAt b ∨ armedBy i s t b := by
  obtain ⟨-, -, -, ht⟩ := h
  exact bdAt_of_armsEp0 (stall := false) hn (fun h => Bool.noConfusion h) (by rw [ht]) b

/-- A report arms EP1_IN. -/
theorem transmits.bdAt {pending : Bool} {fifo : List TrnEntry} {ip : Causes} (h : transmits s t pending fifo ip) (b : BdIx) :
    t.bdAt b = s.bdAt b ∨ armedBy i s t b := by
  obtain ⟨-, -, -, ht⟩ := h
  exact bdAt_of_armsEp1In (by rw [ht]) b

/-- A SETUP event arms both descriptors of endpoint 0. -/
theorem setupOutcome.bdAt (hi : i.mnemonic.isSetup = true) (h : setupOutcome s t) (b : BdIx) :
    t.bdAt b = s.bdAt b ∨ armedBy i s t b := by
  rcases h with ⟨sp, a, n, -, -, -, hb⟩ | rfl | ⟨dev, ram, rfl, -⟩ | rfl
  · exact sendsPacket.bdAt (Nat.min_le_right n 8) hb b
  all_goals exact bdAt_of_armsEp0 (n := 0) (Nat.zero_le 8) (fun _ => hi) rfl b

/-- Every event leaves a descriptor alone or arms it. -/
theorem exec_bdAt (hw : s.params.wf = true) (hok : s.transferOk) (h : exec i s = .next t) (b : BdIx) :
    t.bdAt b = s.bdAt b ∨ armedBy i s t b := by
  cases exec_shape hw hok h with
  | setup hi o => exact o.bdAt hi b
  | inPacket _ _ _ _ _ o => exact o.bdAt (Nat.min_le_right _ _) b
  | inEmpty _ _ _ o | outOut _ _ _ o =>
    subst o
    exact bdAt_of_armsEp0 (n := 0) (Nat.zero_le 8) (fun h => Bool.noConfusion h) rfl b
  | inOut _ _ o | none _ _ o | outIn _ o => subst o; exact bdAt_of_armsEp0Out rfl b
  | busReset _ o => cases o; exact bdAt_of_armsEp0Out rfl b
  | ep1Pend _ o | changedFree _ o => exact o.bdAt b
  | write _ _ _ o => exact bdAt_of_bd_eq (by rw [o]) b
  | ep1Idle _ o | busError _ o | idle _ o | activity _ o | other _ o | changedBusy _ o => subst o; exact bdAt_of_bd_eq rfl b

end

/-! ### What the SIE does to a descriptor -/

/-- The SIE has handed the descriptor back: it owned it, and wrote its PID, toggle and count (20_memory.md R69). -/
def handedBack (s t : State) (b : BdIx) : Prop :=
  (s.bdAt b).own = .sie ∧ ∃ (pid : BitVec 4) (dts : Bool) (count : BitVec 8), count.toNat ≤ 8 ∧
    t.bdAt b = { s.bdAt b with pid := pid, dts := dts, count := count, own := .device }

/-- A completed transaction hands its own descriptor back and leaves the others alone. -/
theorem bdAt_of_handBack {s t : State} {b : BdIx} {pid : BitVec 4} {dts : Bool} {count : BitVec 8} (ho : (s.bdAt b).own = .sie)
    (hc : count.toNat ≤ 8) (h : t.bd = (handBack b pid dts count s).bd) (x : BdIx) : t.bdAt x = s.bdAt x ∨ handedBack s t x := by
  by_cases hx : x = b
  · subst hx
    refine .inr ⟨ho, pid, dts, count, hc, ?_⟩
    rw [State.bdAt, h]
    exact BdFile.get_set_same _ _ _
  · refine .inl ?_
    rw [State.bdAt, h]
    exact BdFile.get_set_other _ _ hx

theorem pokeBytes_ep0Out_bd {s : State} (hw : s.params.wf = true) {v : List Byte} (hv : v.length ≤ 8) :
    (s.pokeBytes s.params.ep0OutBuf v).bd = s.bd := by
  rw [(pokeBytes_ep0Out hw hv).1]

/-- Every step of the SIE leaves a descriptor alone or hands it back. -/
theorem sieStep_bdAt {a : SieStep} {s t : State} (hw : s.params.wf = true) (hd : s.descriptorsOk) (h : sieStep a s = .next t)
    (b : BdIx) : t.bdAt b = s.bdAt b ∨ handedBack s t b := by
  obtain ⟨-, -, -, hcount, -⟩ := hd
  cases sieStep_shape h with
  | unchanged o => exact .inl (by rw [o])
  | busReset o =>
    refine .inl ?_
    rw [o]
    unfold hostBusReset
    dsimp only
    split <;> rfl
  | setup packet hr o =>
    obtain ⟨hown, -⟩ := setupReady_iff.mp hr
    have hbd := pokeBytes_ep0Out_bd hw (v := spBytes packet) (Nat.le_refl 8)
    refine bdAt_of_handBack (pid := pidSetup) (dts := false) (count := 8) hown (by decide) ?_ b
    rw [o]
    simp [setupToken, handBack, wireWrite, pushTrn, State.bdAt, hbd]
  | outPacket toggle bytes hr o =>
    obtain ⟨hown, -, -, -, hlen⟩ := outReady_iff.mp hr
    have hlen8 : bytes.length ≤ 8 := Nat.le_trans hlen (hcount .ep0Out)
    have hbd := pokeBytes_ep0Out_bd hw hlen8
    rw [o]
    unfold outData
    split
    · refine bdAt_of_handBack (pid := pidOut) (dts := toggle) (count := BitVec.ofNat 8 bytes.length) hown
        (by rw [BitVec.toNat_ofNat]; omega) ?_ b
      simp [handBack, wireWrite, pushTrn, State.bdAt, hbd]
    · exact .inl rfl
  | inPacket c hr o =>
    obtain ⟨-, hown, -⟩ := inReady_iff.mp hr
    exact bdAt_of_handBack hown (hcount c) (by rw [o]; rfl) b
  | flags o _ => exact .inl (by rw [o]; rfl)

end Sys2Proof.Machine
end

section
/-! PROOFS. The obligations on the buffer descriptors (10_state.md R33 to R39). -/

namespace Sys2Proof.Machine

/-- Settles O46: an event arms a descriptor or leaves it (`exec_bdAt`), the SIE hands one back or leaves it (`sieStep_bdAt`). -/
theorem onlyTheSieHandsDescriptorsBack : Obligations.OnlyTheSieHandsDescriptorsBack := by
  refine ⟨fun i s t b hw hok h hown => ?_, fun a s t b hw hd h hown => ?_⟩
  · rcases exec_bdAt hw hok h b with he | ⟨-, count, stall, dtsen, dts, -, he, -⟩
    · rw [he]; exact hown
    · rw [he]; rfl
  · rcases sieStep_bdAt hw hd h b with he | ⟨-, pid, dts, count, -, he⟩
    · rw [he]; exact hown
    · rw [he]

/-! ### The stall flag -/

/-- A stalled descriptor answers no OUT packet (45_environment_agents.md R278). -/
theorem outReady_of_stall {s : State} (hs : (s.bdAt .ep0Out).stall = true) (bytes : List Byte) : outReady bytes s = false := by
  simp [outReady, hs]

/-- A stalled descriptor completes no IN packet (45_environment_agents.md R279). -/
theorem inReady_of_stall {s : State} {b : BdIx} (hs : (s.bdAt b).stall = true) : inReady b s = false := by
  simp [inReady, hs]

/-- A stalled descriptor that the SIE owns answers STALL (45_environment_agents.md R281). -/
theorem sieStep_stallHandshake {s : State} {b : BdIx} (hsus : s.suspended = false) (hp : s.pktdis = false)
    (ho : (s.bdAt b).own = .sie) (hs : (s.bdAt b).stall = true) :
    sieStep (.stallHandshake s.dev.uaddr b) s = .next (wireWrite (.stall b) (s.withIp { s.ip with other := true })) :=
  tokenStep_taken (effect := fun t => wireWrite (.stall b) (t.withIp { t.ip with other := true })) hsus
    (by simp [stallReady, ho, hs, hp])

/-- Settles O47: an event that changes a descriptor has armed it (`exec_bdAt`), and a stalled descriptor leaves only the guard of
STALL_HANDSHAKE true. -/
theorem theStallFlag : Obligations.TheStallFlag := by
  refine ⟨fun i s t b hw hok h hne hst => ?_, fun i s t hw hok h hst => ?_, fun s b hsus hp hown hst => ⟨?_, ?_, ?_⟩⟩
  · rcases exec_bdAt hw hok h b with he | ⟨-, count, stall, dtsen, dts, -, he, hstall⟩
    · exact absurd he hne
    · exact hstall (by rwa [he] at hst)
  · rcases exec_bdAt hw hok h .ep1In with he | ⟨-, count, stall, dtsen, dts, -, he, hstall⟩
    · exact (congrArg BD.stall he).symm.trans hst
    · obtain ⟨-, hb | hb, -⟩ := hstall ((congrArg BD.stall he).symm.trans hst) <;> cases hb
  · exact ⟨_, sieStep_stallHandshake hsus hp hown hst, rfl, rfl, rfl⟩
  · exact tokenStep_refused hsus (inReady_of_stall hst)
  · rintro rfl toggle bytes
    exact tokenStep_refused hsus (outReady_of_stall hst bytes)

/-! ### The addresses and the counts -/

/-- What the invariant of the descriptors says of one of them: its buffer (10_state.md R39), a count of at most 8 (R38), endpoint 1 not
stalled (R35), EP1_OUT not armed (43_ep1_report_engine.md R222). -/
def BD.okAt (p : Params) (d : BD) : BdIx → Prop
  | .ep0Out => d.addr = p.ep0OutBuf ∧ d.count.toNat ≤ 8
  | .ep0In => d.addr = p.ep0InBuf ∧ d.count.toNat ≤ 8
  | .ep1Out => d.count.toNat ≤ 8 ∧ d.stall = false ∧ d.own = .device
  | .ep1In => d.addr = p.ep1InBuf ∧ d.count.toNat ≤ 8 ∧ d.stall = false

/-- The invariant is the same promise for each descriptor. -/
theorem descriptorsOk_iff {s : State} : s.descriptorsOk ↔ ∀ b, (s.bdAt b).okAt s.params b := by
  constructor
  · rintro ⟨h1, h2, h3, hc, h4, h5, h6⟩ b
    cases b
    · exact ⟨h1, hc .ep0Out⟩
    · exact ⟨h2, hc .ep0In⟩
    · exact ⟨hc .ep1Out, h4, h6⟩
    · exact ⟨h3, hc .ep1In, h5⟩
  · intro h
    obtain ⟨h1, hc1⟩ := h .ep0Out
    obtain ⟨h2, hc2⟩ := h .ep0In
    obtain ⟨hc3, h4, h6⟩ := h .ep1Out
    obtain ⟨h3, hc4, h5⟩ := h .ep1In
    refine ⟨h1, h2, h3, fun b => ?_, h4, h5, h6⟩
    cases b
    · exact hc1
    · exact hc2
    · exact hc3
    · exact hc4

/-- An armed descriptor keeps the promise. -/
theorem armedBy.okAt {i : Instr} {s t : State} {b : BdIx} (h : armedBy i s t b) : (t.bdAt b).okAt s.params b := by
  obtain ⟨hb, count, stall, dtsen, dts, hc, he, hstall⟩ := h
  rw [he]
  cases b with
  | ep0Out => exact ⟨rfl, hc⟩
  | ep0In => exact ⟨rfl, hc⟩
  | ep1Out => exact absurd rfl hb
  | ep1In =>
    refine ⟨rfl, hc, Bool.eq_false_iff.mpr fun hs => ?_⟩
    obtain ⟨-, hb | hb, -⟩ := hstall hs <;> cases hb

/-- A descriptor handed back keeps the promise. -/
theorem handedBack.okAt {s t : State} {b : BdIx} (h : handedBack s t b) (hok : (s.bdAt b).okAt s.params b) :
    (t.bdAt b).okAt s.params b := by
  obtain ⟨-, pid, dts, count, hc, he⟩ := h
  rw [he]
  cases b with
  | ep0Out => exact ⟨hok.1, hc⟩
  | ep0In => exact ⟨hok.1, hc⟩
  | ep1Out => exact ⟨hc, hok.2.1, rfl⟩
  | ep1In => exact ⟨hok.1, hc, hok.2.2⟩

/-- Every event keeps the descriptors. -/
theorem exec_descriptorsOk {i : Instr} {s t : State} (hw : s.params.wf = true) (hok : s.transferOk) (hd : s.descriptorsOk)
    (h : exec i s = .next t) : t.descriptorsOk := by
  rw [descriptorsOk_iff] at hd ⊢
  intro b
  rw [exec_params h]
  rcases exec_bdAt hw hok h b with he | ha
  · rw [he]; exact hd b
  · exact ha.okAt

/-- Every step of the SIE keeps the descriptors. -/
theorem sieStep_descriptorsOk {a : SieStep} {s t : State} (hw : s.params.wf = true) (hd : s.descriptorsOk)
    (h : sieStep a s = .next t) : t.descriptorsOk := by
  refine descriptorsOk_iff.mpr fun b => ?_
  rw [(sieStep_framed h).params]
  rcases sieStep_bdAt hw hd h b with he | hb
  · rw [he]; exact descriptorsOk_iff.mp hd b
  · exact hb.okAt (descriptorsOk_iff.mp hd b)

/-- Settles O58: beside the invariant of the transfer, every event (`exec_descriptorsOk`) and the SIE (`sieStep_descriptorsOk`) keep the
descriptors. -/
theorem stepKeepsTheDescriptors : Obligations.StepKeepsTheDescriptors := by
  intro s t hw hok hd h
  refine (step_keeps (P := fun s => s.params.wf = true ∧ s.transferOk ∧ s.descriptorsOk) ?_ ?_ (fun _ _ _ _ hP => hP)
    ⟨hw, hok, hd⟩ h).2.2
  · intro a s t ⟨hw, hok, hd⟩ h
    have hf := sieStep_framed h
    exact ⟨hf.params ▸ hw, hok.congr hf.params hf.ctx, sieStep_descriptorsOk hw hd h⟩
  · intro i s t ⟨hw, hok, hd⟩ h
    exact ⟨exec_params h ▸ hw, exec_transferOk hw hok h, exec_descriptorsOk hw hok hd h⟩

end Sys2Proof.Machine
end

section
/-! SUPPORT. The forms of the SETUP event by the request it runs (41_ep0_control_engine.md R160, 42_ep0_requests.md R190 to R204). -/

namespace Sys2Proof.Machine

/-- What the SETUP event of a request does in every state with parameters `p`, whatever the context and `pktdis` in it: it begins an IN
context, or takes a new address, or begins a zero-length OUT context and stores into RAM, or stalls, or is refused by
NONSTD_TYPE_POLICY. -/
inductive SetupForm (p : Params) (i : Instr) : Prop
  | begins (sp : Space) (ptr : Pointer) (len : BitVec 16)
      (h : ∀ s, s.params = p → exec i s = finishEp0 false { beginIn sp ptr len (aborted s) with pktdis := false })
  | setsAddress (attr : ReqAttr) (v x l : BitVec 16) (hi : i = .setAddress attr v x l)
      (h : ∀ s, exec i s = .next { beginsOut s with dev := { s.dev with pendingAddr := newAddr v } })
  | beginsOut (m : Memory → Memory) (h : ∀ s, s.params = p → exec i s = .next { beginsOut s with ram := m s.ram })
  | stalls (h : ∀ s, s.params = p → exec i s = .next (stalls s))
  | refused (h : ∀ s, s.params = p → exec i s = .refused .nonstandardRequestType)

/-- GET_DESCRIPTOR begins an IN context where LOOKUP finds something, and else stalls (42_ep0_requests.md R191 to R195). -/
theorem SetupForm.of_getDescriptor {p : Params} {i : Instr} {type index : Byte} {l : BitVec 16}
    (hi : ∀ s, exec i s = setupEvent (getDescriptor type index l) s) : SetupForm p i := by
  cases hl : lookup p type index with
  | none =>
    refine .stalls fun s hp => ?_
    rw [hi]
    exact getDescriptor_missing (by rw [hp, hl])
  | some found =>
    obtain ⟨ptr, len⟩ := found
    refine .begins .rom ptr (clampLength len l) fun s hp => ?_
    have hrule : getDescriptor type index l (aborted s) = (beginIn .rom ptr (clampLength len l) (aborted s), false) := by
      simp only [getDescriptor, show (aborted s).params = p from hp, hl]
    rw [hi, setupEvent_eq, hrule]

/-- Every request has one of the forms; of a nonstandard type only under a policy other than AS_STANDARD (42_ep0_requests.md R204). -/
theorem setupForm {p : Params} {i : Instr} (hf : i.format = .sp)
    (hn : i.mnemonic ≠ .nonstdRequestType ∨ p.nonstdTypePolicy ≠ .asStandard) : SetupForm p i := by
  cases i with
  | getDescriptorDevice | getDescriptorConfiguration | getDescriptorReport | getDescriptorString | getDescriptorStringOutOfRange
  | getDescriptorUnknown => exact .of_getDescriptor fun _ => rfl
  | setAddress attr v x l => exact .setsAddress attr v x l rfl (execSetAddress_next v)
  | setConfiguration _ v =>
    exact .beginsOut (fun m => m.write p.addrConfig (newConfig v)) fun s hp => hp ▸ execSetConfiguration_next v s
  | setIdle => exact .beginsOut id fun s _ => execSetIdle_next s
  | getConfiguration => exact .begins .ram (.at p.addrConfig) 1 fun _ hp => hp ▸ rfl
  | getReport => exact .begins .ram (.at p.addrReport) 2 fun _ hp => hp ▸ rfl
  | unsupportedStandard => exact .stalls fun s _ => execUnsupportedStandard_next s
  | unsupportedClass => exact .stalls fun s _ => execUnsupportedClass_next s
  | nonstdRequestType attr c b v x l =>
    have hexec (s : State) : exec (.nonstdRequestType attr c b v x l) s = execNonstdRequestType attr b v x l s := rfl
    cases hpol : p.nonstdTypePolicy with
    | refuse => exact .refused fun s hp => by rw [hexec, execNonstdRequestType, hp, hpol]
    | stall => exact .stalls fun s hp => by rw [hexec, execNonstdRequestType, hp, hpol]; exact setupEvent_stall _ s
    | asStandard => exact absurd hpol (hn.resolve_left fun h => h rfl)
  | _ => exact Format.noConfusion hf

/-- The form of the request that a SETUP event runs. -/
theorem setupForm_requestOf {i : Instr} {s : State} (hw : s.params.wf = true) (hi : i.mnemonic.isSetup = true) :
    SetupForm s.params (s.requestOf i) :=
  setupForm (exec_requestOf hw hi).2 (requestOf_typed s i)

end Sys2Proof.Machine
end

section
/-! PROOFS. A SETUP event does not depend on the transfer it aborts (10_state.md R26, 41_ep0_control_engine.md R160). -/

namespace Sys2Proof.Machine

/-- Two outcomes are alike: refused for one reason, or next states that differ in context fields the kind does not read. -/
def alike (r q : Result State) : Prop :=
  (∃ e, r = .refused e ∧ q = .refused e) ∨
  ∃ t u, r = .next t ∧ q = .next u ∧ u = { t with ctx := u.ctx } ∧ u.ctx.kind = t.ctx.kind ∧ u.ctx.nextToggle = t.ctx.nextToggle ∧
    (t.ctx.kind ≠ .none → u.ctx.data = t.ctx.data ∧ u.ctx.remaining = t.ctx.remaining) ∧
    (t.ctx.kind = .ctlIn → u.ctx.mclass = t.ctx.mclass)

/-- The outcome of a SETUP event is like itself, since such an event never faults. -/
theorem alike_exec_self {i : Instr} {s : State} (hw : s.params.wf = true) (hi : i.mnemonic.isSetup = true) :
    alike (exec i s) (exec i s) := by
  rcases execSetup_outcome hw hi with ⟨-, h⟩ | ⟨t, h, -⟩
  · exact .inl ⟨_, h, h⟩
  · exact .inr ⟨t, t, h, h, rfl, rfl, rfl, fun _ => ⟨rfl, rfl⟩, fun _ => rfl⟩

/-- In each form of the SETUP event the context it starts from is overwritten, but for the fields the new kind does not read. -/
theorem SetupForm.alike {s : State} {i : Instr} (h : SetupForm s.params i) (hself : alike (exec i s) (exec i s)) (c : Ctx) (d : Bool) :
    alike (exec i s) (exec i { s with ctx := c, pktdis := d }) := by
  cases h with
  | begins sp ptr len h =>
    have he : exec i { s with ctx := c, pktdis := d } = exec i s := by
      rw [h s rfl]
      exact h { s with ctx := c, pktdis := d } rfl
    rwa [he]
  | setsAddress _ _ _ _ _ h =>
    exact .inr ⟨_, _, h s, h _, rfl, rfl, rfl, fun _ => ⟨rfl, rfl⟩, fun hk => Kind.noConfusion hk⟩
  | beginsOut _ h =>
    exact .inr ⟨_, _, h s rfl, h _ rfl, rfl, rfl, rfl, fun _ => ⟨rfl, rfl⟩, fun hk => Kind.noConfusion hk⟩
  | stalls h =>
    exact .inr ⟨_, _, h s rfl, h _ rfl, rfl, rfl, rfl, fun hk => absurd rfl hk, fun hk => Kind.noConfusion hk⟩
  | refused h => exact .inl ⟨_, h s rfl, h _ rfl⟩

/-- Settles O22: both events run the same request, since it is read from neither the context nor `pktdis`, and that request's form
decides (`SetupForm.alike`). -/
theorem setupIgnoresTheEarlierTransfer : Obligations.SetupIgnoresTheEarlierTransfer := by
  intro i s c d hw hi
  have hrun := (exec_requestOf hw hi).1
  have hrun' : exec (s.requestOf i) { s with ctx := c, pktdis := d } = exec i { s with ctx := c, pktdis := d } :=
    (exec_requestOf (s := { s with ctx := c, pktdis := d }) hw hi).1
  rw [← hrun, ← hrun']
  exact (setupForm_requestOf hw hi).alike (by rw [hrun]; exact alike_exec_self hw hi) c d

end Sys2Proof.Machine
end

section
/-! PROOFS. The address registers (10_state.md R27, R28, D10). -/

namespace Sys2Proof.Machine

/-- A SETUP event leaves the address registers alone, but for the pending address of SET_ADDRESS (42_ep0_requests.md R196). -/
theorem dev_of_setup {i : Instr} {s t : State} (hw : s.params.wf = true) (hi : i.mnemonic.isSetup = true) (h : exec i s = .next t) :
    t.dev = s.dev ∨ ∃ attr v x l, s.requestOf i = .setAddress attr v x l ∧ t.dev = { s.dev with pendingAddr := newAddr v } := by
  rw [← (exec_requestOf hw hi).1] at h
  cases setupForm_requestOf hw hi with
  | begins sp ptr len hf =>
    rw [hf s rfl] at h
    exact .inl (ended_finishEp0 (calm.refl _) h).dev
  | setsAddress attr v x l hr hf => rw [hf] at h; cases h; exact .inr ⟨attr, v, x, l, hr, rfl⟩
  | beginsOut _ hf | stalls hf => rw [hf s rfl] at h; cases h; exact .inl rfl
  | refused hf => rw [hf s rfl] at h; cases h

theorem dev_of_transmits {s t : State} {pending : Bool} {fifo : List TrnEntry} {ip : Causes} (h : transmits s t pending fifo ip) :
    t.dev = s.dev := by
  obtain ⟨-, -, -, ht⟩ := h
  rw [ht]

/-- TRN_EP1 leaves the address registers alone (43_ep1_report_engine.md R224). -/
theorem dev_execTrnEp1 {s t : State} (hw : s.params.wf = true) (h : execTrnEp1 s = .next t) : t.dev = s.dev := by
  cases hp : s.rpt.pending with
  | false => rw [execTrnEp1_idle hp] at h; cases h; rfl
  | true =>
    obtain ⟨u, hu, htr, -⟩ := execTrnEp1_pending hw hp
    rw [hu] at h; cases h
    exact dev_of_transmits htr

/-- REPORT_CHANGED leaves the address registers alone (43_ep1_report_engine.md R221). -/
theorem dev_execReportChanged {s t : State} (hw : s.params.wf = true) (h : execReportChanged s = .next t) : t.dev = s.dev := by
  cases ho : s.bd.ep1In.own with
  | sie => rw [execReportChanged_busy ho] at h; cases h; rfl
  | device =>
    obtain ⟨u, hu, htr, -⟩ := execReportChanged_free hw ho
    rw [hu] at h; cases h
    exact dev_of_transmits htr

/-- A bus reset clears both address registers (40_bus_event_dispatcher.md R132). -/
theorem dev_of_busReset {i : Instr} {s t : State} (hi : i.mnemonic = .busReset) (h : exec i s = .next t) : t.dev = ⟨0, 0⟩ := by
  cases i with
  | busReset => cases h; rfl
  | _ => cases hi

/-- An IN completion leaves the address registers alone, but for the Status stage of an OUT-kind transfer, which commits a pending
address (41_ep0_control_engine.md R162). -/
theorem dev_of_inCompletion {i : Instr} {s t : State} (hi : i.mnemonic = .trnEp0In) (h : exec i s = .next t) :
    t.dev = s.dev ∨ (s.ctx.kind = .ctlOut ∧ s.dev.pendingAddr ≠ 0 ∧ t.dev = ⟨s.dev.pendingAddr, 0⟩) := by
  cases i with
  | trnEp0In => exact (ended_execTrnEp0In h).2
  | _ => cases hi

/-- An event that is neither a SETUP event nor a bus reset nor an IN completion leaves the address registers alone. -/
theorem dev_of_other {i : Instr} {s t : State} (hw : s.params.wf = true) (hs : ¬ i.mnemonic.isSetup = true)
    (hr : i.mnemonic ≠ .busReset) (hin : i.mnemonic ≠ .trnEp0In) (h : exec i s = .next t) : t.dev = s.dev := by
  cases i with
  | busReset => exact absurd rfl hr
  | trnEp0In => exact absurd rfl hin
  | trnEp0Out => exact (ended_execTrnEp0Out h).dev
  | trnEp1 => exact dev_execTrnEp1 hw h
  | trnOtherEp | busError | idle | activity | otherCause => cases h; rfl
  | reportWrite => exact (calm_memWrite h).dev
  | reportChanged => exact dev_execReportChanged hw h
  | _ => exact absurd rfl hs

/-- Settles O45: the three events that write the address registers, each with what it writes; the SIE writes neither
(`sieStep_framed`). -/
theorem addressRegistersChangeOnlyAtTheirEvents : Obligations.AddressRegistersChangeOnlyAtTheirEvents := by
  refine ⟨fun i s t hw h => ?_, fun a s t h => (sieStep_framed h).dev⟩
  by_cases hs : i.mnemonic.isSetup = true
  · rcases dev_of_setup hw hs h with hd | ⟨attr, v, x, l, hr, hd⟩
    · exact ⟨.inl (by rw [hd]), .inl (by rw [hd])⟩
    · exact ⟨.inl (by rw [hd]), .inr (.inr (.inr ⟨attr, v, x, l, hr, by rw [hd]; rfl⟩))⟩
  by_cases hr : i.mnemonic = .busReset
  · have hd := dev_of_busReset hr h
    exact ⟨.inr (.inl ⟨hr, by rw [hd]⟩), .inr (.inl ⟨hr, by rw [hd]⟩)⟩
  by_cases hin : i.mnemonic = .trnEp0In
  · rcases dev_of_inCompletion hin h with hd | ⟨hk, hp, hd⟩
    · exact ⟨.inl (by rw [hd]), .inl (by rw [hd])⟩
    · exact ⟨.inr (.inr ⟨hin, hk, hp, by rw [hd]⟩), .inr (.inr (.inl ⟨hin, hk, by rw [hd]⟩))⟩
  · have hd := dev_of_other hw hs hr hin h
    exact ⟨.inl (by rw [hd]), .inl (by rw [hd])⟩

end Sys2Proof.Machine
end

section
/-! SUPPORT. RAM stays canonical and the parameters stay as they are, over every step (20_memory.md R60, R67; 00_scope.md R6; logs 1
and 4). -/

namespace Sys2Proof.Machine

/-- Settles O54: the SIE (`sieStep_framed`) and every event (`exec_ram_wf`, `exec_params`) keep RAM canonical and leave the parameters
alone. -/
theorem stepKeepsRamCanonical : Obligations.StepKeepsRamCanonical := by
  intro s t hw h
  refine step_keeps (P := fun u => u.ram.wf ∧ u.params = s.params) ?_ ?_ (fun _ _ _ _ hP => hP) ⟨hw, rfl⟩ h
  · intro a u v ⟨hm, hp⟩ h
    have hf := sieStep_framed h
    exact ⟨hf.ramWf hm, hf.params.trans hp⟩
  · intro i u v ⟨hm, hp⟩ h
    exact ⟨exec_ram_wf h hm, (exec_params h).trans hp⟩

end Sys2Proof.Machine
end

section
/-! SUPPORT. The decoder by the fields of a word, and the way from a decoded instruction back to its word (30_encoding.md R91 to R103). -/

namespace Sys2Proof

/-! ### Format EV -/

theorem evwLow_evLow {w : Evw} {c : BitVec 4} (h : evCause w = c) : evwLow c (evLow w) = w := h ▸ evwLow_of_fields w

/-- The instruction of CAUSE = TRN is well formed and has the word it was read from (30_encoding.md R93). -/
theorem decodeTrn_word {w : Evw} (hc : evCause w = 1) :
    (decodeTrn w).wf = true ∧ (decodeTrn w).evWord = some w ∧ (decodeTrn w).operandBytes = [] := by
  have hw := evw_of_fields w
  rw [hc] at hw
  unfold decodeTrn
  split_ifs with he hd hp he1
  · rw [he, hd, hp] at hw
    exact ⟨rfl, congrArg some hw, rfl⟩
  · rw [he, hd] at hw
    exact ⟨bne_iff_ne.mpr hp, congrArg some hw, rfl⟩
  · rw [he, (BitVec.eq_zero_or_eq_one (evDir w)).resolve_left hd] at hw
    exact ⟨rfl, congrArg some hw, rfl⟩
  · rw [he1] at hw
    exact ⟨rfl, congrArg some hw, rfl⟩
  · exact ⟨Bool.and_eq_true_iff.mpr ⟨bne_iff_ne.mpr he, bne_iff_ne.mpr he1⟩, congrArg some hw, rfl⟩

/-- The instruction of an event word is well formed, has that word, and keeps the operand bytes that belong to it
(30_encoding.md R92, R94). -/
theorem decodeEv_word {w : Evw} {b0 b1 : Byte} {i : Instr} (h : decodeEv w b0 b1 = .ok i) :
    i.wf = true ∧ i.evWord = some w ∧ i.operandBytes = if evCause w = 0x8 then [b0, b1] else [] := by
  unfold decodeEv at h
  split_ifs at h with h0 h1 h2 h3 h4 h5 h8 h9 <;> cases h
  · exact ⟨rfl, congrArg some (evwLow_evLow h0), by rw [h0]; rfl⟩
  · obtain ⟨hwf, hword, hops⟩ := decodeTrn_word h1
    exact ⟨hwf, hword, by rw [h1]; exact hops⟩
  · exact ⟨rfl, congrArg some (evwLow_evLow h2), by rw [h2]; rfl⟩
  · exact ⟨rfl, congrArg some (evwLow_evLow h3), by rw [h3]; rfl⟩
  · exact ⟨rfl, congrArg some (evwLow_evLow h4), by rw [h4]; rfl⟩
  · exact ⟨rfl, congrArg some (evwLow_evLow h5), by rw [h5]; rfl⟩
  · exact ⟨rfl, congrArg some (evwLow_evLow h8), by rw [h8]; rfl⟩
  · exact ⟨rfl, congrArg some (evwLow_evLow h9), by rw [h9]; rfl⟩

/-- The word of a well-formed event decodes to it with its own operand bytes if it has some (then CAUSE is 0x8), and with any if it
has none. -/
theorem decodeEv_of_evWord {i : Instr} {w : Evw} (hwf : i.wf = true) (h : i.evWord = some w) :
    (evCause w ≠ 0x8 ∧ i.operandBytes = [] ∧ ∀ b0 b1, decodeEv w b0 b1 = .ok i) ∨
    (evCause w = 0x8 ∧ ∃ b0 b1, i.operandBytes = [b0, b1] ∧ decodeEv w b0 b1 = .ok i) := by
  have hlow (c : BitVec 4) (l : BitVec 12) (hc : c ≠ 0x8) : evCause (evwLow c l) ≠ 0x8 := (evwLow_fields c l).1.symm ▸ hc
  have htrn (e : BitVec 4) (d : BitVec 1) (p : BitVec 4) (z : BitVec 3) : evCause (evw 1 e d p z) ≠ 0x8 :=
    (evw_fields 1 e d p z).1.symm ▸ (by decide)
  cases i with
  | busReset l | busError l | idle l | activity l | otherCause l | reportChanged l =>
    cases h
    exact .inl ⟨hlow _ l (by decide), rfl, decodeEv_evwLow _ l⟩
  | reportWrite l b0 b1 =>
    cases h
    exact .inr ⟨(evwLow_fields _ l).1, b0, b1, rfl, decodeEv_evwLow 0x8 l b0 b1⟩
  | trnEp0Setup | trnEp0In | trnEp1 =>
    cases h
    exact .inl ⟨htrn _ _ _ _, rfl, decodeEv_evw _ _ _ _⟩
  | trnEp0Out p z =>
    cases h
    refine .inl ⟨htrn _ _ _ _, rfl, fun b0 b1 => ?_⟩
    rw [decodeEv_evw, if_pos rfl, if_pos rfl, if_neg (bne_iff_ne.mp hwf)]
  | trnOtherEp e d p z =>
    cases h
    simp only [Instr.wf, Bool.and_eq_true, bne_iff_ne] at hwf
    refine .inl ⟨htrn _ _ _ _, rfl, fun b0 b1 => ?_⟩
    rw [decodeEv_evw, if_neg hwf.1, if_neg hwf.2]
  | _ => cases h

/-! ### Format SP -/

theorem append_inj_iff {m n : Nat} {x x' : BitVec m} {y y' : BitVec n} : x ++ y = x' ++ y' ↔ x = x' ∧ y = y' := by
  constructor
  · intro h
    have hx := congrArg (BitVec.extractLsb' n m) h
    have hy := congrArg (BitVec.extractLsb' 0 n) h
    rw [extract_high _ _ (Nat.le_refl n), extract_high _ _ (Nat.le_refl n), Nat.sub_self, extract_all, extract_all] at hx
    rw [extract_low _ _ (by omega), extract_low _ _ (by omega), extract_all, extract_all] at hy
    exact ⟨hx, hy⟩
  · rintro ⟨rfl, rfl⟩
    rfl

theorem xreq_eq_iff {c c' : BitVec 1} {b b' : Byte} : xreq c b = xreq c' b' ↔ c = c' ∧ b = b' := append_inj_iff

/-- The standard requests by `bRequest` (30_encoding.md R102). -/
theorem decodeTyped_standard (a : ReqAttr) (b : Byte) (v x l : BitVec 16) :
    decodeTyped a 0 b v x l =
      if b = 0x06 then decodeGetDescriptor a v x l
      else if b = 0x05 then .setAddress a v x l
      else if b = 0x09 then .setConfiguration a v x l
      else if b = 0x08 then .getConfiguration a v x l
      else .unsupportedStandard a b v x l := by
  have hstd (k : Byte) : xreq 0 b = xreq 0 k ↔ b = k := xreq_eq_iff.trans (and_iff_right rfl)
  have hclass (k : Byte) : xreq 0 b ≠ xreq 1 k := fun h => absurd (xreq_eq_iff.mp h).1 (by decide)
  exact if_congr (hstd 0x06) rfl (if_congr (hstd 0x05) rfl (if_congr (hstd 0x09) rfl (if_congr (hstd 0x08) rfl
    ((if_neg (hclass 0x01)).trans ((if_neg (hclass 0x0A)).trans (if_pos rfl))))))

/-- The class requests by `bRequest` (30_encoding.md R102). -/
theorem decodeTyped_class (a : ReqAttr) (b : Byte) (v x l : BitVec 16) :
    decodeTyped a 1 b v x l =
      if b = 0x01 then .getReport a v x l
      else if b = 0x0A then .setIdle a v x l
      else .unsupportedClass a b v x l := by
  have hclass (k : Byte) : xreq 1 b = xreq 1 k ↔ b = k := xreq_eq_iff.trans (and_iff_right rfl)
  have hstd (k : Byte) : xreq 1 b ≠ xreq 0 k := fun h => absurd (xreq_eq_iff.mp h).1 (by decide)
  unfold decodeTyped
  exact (if_neg (hstd 0x06)).trans ((if_neg (hstd 0x05)).trans ((if_neg (hstd 0x09)).trans ((if_neg (hstd 0x08)).trans
    (if_congr (hclass 0x01) rfl (if_congr (hclass 0x0A) rfl (if_neg (by decide)))))))

/-- GET_DESCRIPTOR by `desc_type` and `desc_index` (30_encoding.md R103). -/
theorem decodeGetDescriptor_fields (a : ReqAttr) (t i : Byte) (x l : BitVec 16) :
    decodeGetDescriptor a (t ++ i) x l =
      if t = 0x01 then .getDescriptorDevice a i x l
      else if t = 0x02 then .getDescriptorConfiguration a i x l
      else if t = 0x22 then .getDescriptorReport a i x l
      else if t = 0x03 then
        if i.toNat < 4 then .getDescriptorString a (i.extractLsb' 0 2) x l else .getDescriptorStringOutOfRange a i x l
      else .getDescriptorUnknown a t i x l := by
  obtain ⟨ht, hi⟩ := wValue_fields t i
  simp only [decodeGetDescriptor, index_in_range, ht, hi, extract_low t i (k := 0) (l := 2) (by omega)]

/-- A GET_DESCRIPTOR is well formed and has the word it was read from. -/
theorem decodeGetDescriptor_word (a : ReqAttr) (v x l : BitVec 16) :
    (decodeGetDescriptor a v x l).wf = true ∧ (decodeGetDescriptor a v x l).spWord = some (spw a 0 0 0x06 v x l) := by
  have hv := wValue_of_fields v
  unfold decodeGetDescriptor
  split_ifs with h1 h2 h22 h3 hi
  · exact ⟨rfl, congrArg (fun v => some (spw a 0 0 0x06 v x l)) (h1 ▸ hv)⟩
  · exact ⟨rfl, congrArg (fun v => some (spw a 0 0 0x06 v x l)) (h2 ▸ hv)⟩
  · exact ⟨rfl, congrArg (fun v => some (spw a 0 0 0x06 v x l)) (h22 ▸ hv)⟩
  · have hs := wValue_of_string_fields v
    rw [h3, hi] at hs
    exact ⟨rfl, congrArg (fun v => some (spw a 0 0 0x06 v x l)) hs⟩
  · rw [index_in_range, not_lt] at hi
    exact ⟨decide_eq_true hi, congrArg (fun v => some (spw a 0 0 0x06 v x l)) (h3 ▸ hv)⟩
  · exact ⟨by simpa [Instr.wf] using ⟨⟨⟨h1, h2⟩, h22⟩, h3⟩, congrArg (fun v => some (spw a 0 0 0x06 v x l)) hv⟩

/-- A request of a standard or class type is well formed and has the word it was read from. -/
theorem decodeTyped_word (a : ReqAttr) (c : BitVec 1) (b : Byte) (v x l : BitVec 16) :
    (decodeTyped a c b v x l).wf = true ∧ (decodeTyped a c b v x l).spWord = some (spw a 0 c b v x l) := by
  obtain rfl | rfl : c = 0 ∨ c = 1 := BitVec.eq_zero_or_eq_one c
  · rw [decodeTyped_standard]
    split_ifs with h6 h5 h9 h8
    · exact h6 ▸ decodeGetDescriptor_word a v x l
    · exact ⟨rfl, h5 ▸ rfl⟩
    · exact ⟨rfl, h9 ▸ rfl⟩
    · exact ⟨rfl, h8 ▸ rfl⟩
    · exact ⟨by simpa [Instr.wf] using ⟨⟨⟨h5, h6⟩, h8⟩, h9⟩, rfl⟩
  · rw [decodeTyped_class]
    split_ifs with h1 hA
    · exact ⟨rfl, h1 ▸ rfl⟩
    · exact ⟨rfl, hA ▸ rfl⟩
    · exact ⟨by simpa [Instr.wf] using ⟨h1, hA⟩, rfl⟩

/-- The request of a SETUP word is well formed and has that word (30_encoding.md R96 to R103). -/
theorem decodeSp_word (w : Spw) : (decodeSp w).wf = true ∧ (decodeSp w).spWord = some w := by
  have hw := spw_of_fields w
  unfold decodeSp
  split_ifs with hn
  · rw [hn] at hw
    exact ⟨rfl, congrArg some hw⟩
  · rw [(BitVec.eq_zero_or_eq_one (spNonstd w)).resolve_right hn] at hw
    obtain ⟨hwf, hword⟩ := decodeTyped_word (spAttr w) (spClass w) (spRequest w) (spValue w) (spIndex w) (spLength w)
    exact ⟨hwf, hword.trans (congrArg some hw)⟩

/-- The word of a well-formed request decodes to it. -/
theorem decodeSp_of_spWord {i : Instr} {w : Spw} (hwf : i.wf = true) (h : i.spWord = some w) : decodeSp w = i := by
  have htyped (a : ReqAttr) (c : BitVec 1) (b : Byte) (v x l : BitVec 16) :
      decodeSp (spw a 0 c b v x l) = decodeTyped a c b v x l := (decodeSp_spw a 0 c b v x l).trans (if_neg (by decide))
  have hstd (a : ReqAttr) (b : Byte) (v x l : BitVec 16) := (htyped a 0 b v x l).trans (decodeTyped_standard a b v x l)
  have hclass (a : ReqAttr) (b : Byte) (v x l : BitVec 16) := (htyped a 1 b v x l).trans (decodeTyped_class a b v x l)
  have hdesc (a : ReqAttr) (t i : Byte) (x l : BitVec 16) :=
    (hstd a 0x06 (t ++ i) x l).trans (decodeGetDescriptor_fields a t i x l)
  cases i with
  | nonstdRequestType => cases h; exact decodeSp_spw _ _ _ _ _ _ _
  | getDescriptorDevice | getDescriptorConfiguration | getDescriptorReport => cases h; exact hdesc _ _ _ _ _
  | getDescriptorString a i x l =>
    cases h
    obtain ⟨ht, hhigh, hlow⟩ := wValue_string_fields 0x03 0 i
    refine (hstd _ _ _ _ _).trans ?_
    simp only [decodeGetDescriptor, ht, hhigh, hlow]
    rfl
  | getDescriptorStringOutOfRange a i x l =>
    cases h
    exact (hdesc _ _ _ _ _).trans (if_neg (not_lt.mpr (of_decide_eq_true hwf)))
  | getDescriptorUnknown a t i x l =>
    cases h
    simp only [Instr.wf, Bool.and_eq_true, bne_iff_ne] at hwf
    obtain ⟨⟨⟨h1, h2⟩, h22⟩, h3⟩ := hwf
    rw [hdesc, if_neg h1, if_neg h2, if_neg h22, if_neg h3]
  | setAddress | setConfiguration | getConfiguration => cases h; exact hstd _ _ _ _ _
  | getReport | setIdle => cases h; exact hclass _ _ _ _ _
  | unsupportedStandard a b v x l =>
    cases h
    simp only [Instr.wf, Bool.and_eq_true, bne_iff_ne] at hwf
    obtain ⟨⟨⟨h5, h6⟩, h8⟩, h9⟩ := hwf
    rw [hstd, if_neg h6, if_neg h5, if_neg h9, if_neg h8]
  | unsupportedClass a b v x l =>
    cases h
    simp only [Instr.wf, Bool.and_eq_true, bne_iff_ne] at hwf
    rw [hclass, if_neg hwf.1, if_neg hwf.2]
  | _ => cases h

/-! ### Bytes -/

/-- A byte list that decodes in format EV is an event word with the operand bytes that belong to it, and the rest (log 12). -/
theorem decode_ev_ok {bytes rest : List Byte} {i : Instr} (h : decode .ev bytes = .ok (i, rest)) :
    ∃ w b0 b1, decodeEv w b0 b1 = .ok i ∧ bytes = evBytes w ++ (if evCause w = 0x8 then [b0, b1] else []) ++ rest := by
  have hmap {r : Except DecodeError Instr} {tail : List Byte} (h : r.map (fun j => (j, tail)) = .ok (i, rest)) :
      r = .ok i ∧ tail = rest := by
    cases r <;> cases h
    exact ⟨rfl, rfl⟩
  unfold decode at h
  split at h
  · next lo hi tail _ =>
    split_ifs at h with hc
    · split at h
      · next b0 b1 _ =>
        obtain ⟨hd, rfl⟩ := hmap h
        exact ⟨hi ++ lo, b0, b1, hd, by rw [evBytes_of_bytes, if_pos hc]; rfl⟩
      · cases h
    · obtain ⟨hd, rfl⟩ := hmap h
      exact ⟨hi ++ lo, 0, 0, hd, by rw [evBytes_of_bytes, if_neg hc]; rfl⟩
  · cases h
  · next hf => cases hf
  · cases h

/-- A byte list that decodes in format SP is a SETUP packet and the rest (30_encoding.md R96). -/
theorem decode_sp_ok {bytes rest : List Byte} {i : Instr} (h : decode .sp bytes = .ok (i, rest)) :
    ∃ w, decodeSp w = i ∧ bytes = spBytes w ++ rest := by
  unfold decode at h
  split at h
  · next hf => cases hf
  · next hf _ => cases hf
  · next b0 b1 b2 b3 b4 b5 b6 b7 _ _ =>
    cases h
    exact ⟨spwOfBytes b0 b1 b2 b3 b4 b5 b6 b7, rfl, by rw [spBytes_of_bytes]; rfl⟩
  · cases h

end Sys2Proof
end

section
/-! PROOFS. The decoder and the encoder are inverse to each other (30_encoding.md R91, R94, R96, R110). -/

namespace Sys2Proof

/-- Settles O5: the bytes of an instruction are those of its word and operands, and its word decodes to it (`decodeSp_of_spWord`,
`decodeEv_of_evWord`). -/
theorem decodingInvertsEncoding : Obligations.DecodingInvertsEncoding := by
  intro i rest hwf
  rcases word_of_format i with ⟨hf, w, hw⟩ | ⟨hf, w, hw⟩
  · rw [hf, (encode_of_spWord hw).2, decode_sp, decodeSp_of_spWord hwf hw]
  · rw [hf, (encode_of_evWord hw).2]
    rcases decodeEv_of_evWord hwf hw with ⟨hc, hops, hd⟩ | ⟨hc, b0, b1, hops, hd⟩
    · rw [hops, List.append_nil, decode_ev hc, hd]
      rfl
    · rw [hops, decode_ev_operands hc, hd]
      rfl

/-- Settles O6: a byte list that decodes is a word with its operands (`decode_ev_ok`, `decode_sp_ok`), and the instruction read from a
word has that word (`decodeEv_word`, `decodeSp_word`). -/
theorem encodingInvertsDecoding : Obligations.EncodingInvertsDecoding := by
  intro f bytes rest i h
  cases f with
  | ev =>
    obtain ⟨w, b0, b1, hd, rfl⟩ := decode_ev_ok h
    obtain ⟨hwf, hw, hops⟩ := decodeEv_word hd
    obtain ⟨hf, he⟩ := encode_of_evWord hw
    exact ⟨hwf, hf, by rw [he, hops]⟩
  | sp =>
    obtain ⟨w, rfl, rfl⟩ := decode_sp_ok h
    obtain ⟨hwf, hw⟩ := decodeSp_word w
    obtain ⟨hf, he⟩ := encode_of_spWord hw
    exact ⟨hwf, hf, by rw [he]⟩

end Sys2Proof
end

section
/-! SUPPORT. The rows of the opcode table by the fields of a word (30_encoding.md R110). -/

namespace Sys2Proof

/-- The first hit of a search, mapped: the head's image where the head is a hit, else the tail's. -/
theorem map_find?_cons {α β : Type} (f : α → β) (p : α → Bool) (a : α) (as : List α) :
    ((a :: as).find? p).map f = if p a then some (f a) else (as.find? p).map f := by
  cases h : p a <;> simp [h]

/-- A word matches under a mask when its parts match under the mask's parts. -/
theorem append_match_iff {m n : Nat} {x mx px : BitVec m} {y my py : BitVec n} :
    (x ++ y) &&& (mx ++ my) = px ++ py ↔ x &&& mx = px ∧ y &&& my = py := by
  rw [BitVec.and_append, append_inj_iff]

/-- An event word matches under a mask when its fields do. -/
theorem evw_match_iff {w : Evw} {c mc e me p mp : BitVec 4} {d md : BitVec 1} {z mz : BitVec 3} :
    w &&& evw mc me md mp mz = evw c e d p z ↔
      evCause w &&& mc = c ∧ evEndp w &&& me = e ∧ evDir w &&& md = d ∧ evPid w &&& mp = p ∧ evZero w &&& mz = z := by
  have hfields : evw (evCause w) (evEndp w) (evDir w) (evPid w) (evZero w) &&& evw mc me md mp mz = evw c e d p z ↔ _ :=
    append_match_iff.trans (and_congr_left' (append_match_iff.trans (and_congr_left' (append_match_iff.trans
      (and_congr_left' append_match_iff)))))
  rw [evw_of_fields] at hfields
  simpa only [and_assoc] using hfields

/-- The rows of format EV by fields. -/
theorem evTable_fields : evTable =
    [⟨.busReset, evw 0x0 0 0 0 0, evw (.allOnes 4) 0 0 0 0⟩,
     ⟨.trnEp0Setup, evw 0x1 0 0 pidSetup 0, evw (.allOnes 4) (.allOnes 4) (.allOnes 1) (.allOnes 4) 0⟩,
     ⟨.trnEp0Out, evw 0x1 0 0 0 0, evw (.allOnes 4) (.allOnes 4) (.allOnes 1) 0 0⟩,
     ⟨.trnEp0In, evw 0x1 0 1 0 0, evw (.allOnes 4) (.allOnes 4) (.allOnes 1) 0 0⟩,
     ⟨.trnEp1, evw 0x1 1 0 0 0, evw (.allOnes 4) (.allOnes 4) 0 0 0⟩,
     ⟨.trnOtherEp, evw 0x1 0 0 0 0, evw (.allOnes 4) 0 0 0 0⟩,
     ⟨.busError, evw 0x2 0 0 0 0, evw (.allOnes 4) 0 0 0 0⟩,
     ⟨.idle, evw 0x3 0 0 0 0, evw (.allOnes 4) 0 0 0 0⟩,
     ⟨.activity, evw 0x4 0 0 0 0, evw (.allOnes 4) 0 0 0 0⟩,
     ⟨.otherCause, evw 0x5 0 0 0 0, evw (.allOnes 4) 0 0 0 0⟩,
     ⟨.reportWrite, evw 0x8 0 0 0 0, evw (.allOnes 4) 0 0 0 0⟩,
     ⟨.reportChanged, evw 0x9 0 0 0 0, evw (.allOnes 4) 0 0 0 0⟩] := rfl

/-- The first row an event word matches, by its fields. -/
theorem evRowOf_fields (w : Evw) : evRowOf w =
    if evCause w = 0x0 then some .busReset
    else if evCause w = 0x1 ∧ evEndp w = 0 ∧ evDir w = 0 ∧ evPid w = pidSetup then some .trnEp0Setup
    else if evCause w = 0x1 ∧ evEndp w = 0 ∧ evDir w = 0 then some .trnEp0Out
    else if evCause w = 0x1 ∧ evEndp w = 0 ∧ evDir w = 1 then some .trnEp0In
    else if evCause w = 0x1 ∧ evEndp w = 1 then some .trnEp1
    else if evCause w = 0x1 then some .trnOtherEp
    else if evCause w = 0x2 then some .busError
    else if evCause w = 0x3 then some .idle
    else if evCause w = 0x4 then some .activity
    else if evCause w = 0x5 then some .otherCause
    else if evCause w = 0x8 then some .reportWrite
    else if evCause w = 0x9 then some .reportChanged
    else none := by
  simp only [evRowOf, evTable_fields, map_find?_cons, beq_iff_eq, evw_match_iff, BitVec.and_allOnes, BitVec.ofNat_eq_ofNat, BitVec.and_zero,
    List.find?_nil, Option.map_none, and_true]

theorem bit_eq_one_iff {b : BitVec 1} : b = 1 ↔ ¬ b = 0 := by
  revert b
  decide

theorem decodeTrn_row {w : Evw} (hc : evCause w = 0x1) : some (decodeTrn w).mnemonic = evRowOf w := by
  rw [evRowOf_fields, hc, if_neg (by decide), decodeTrn]
  simp only [bit_eq_one_iff, true_and, ite_and]
  split_ifs <;> rfl

/-- The decoded event's row is the first row its word matches; a word with a reserved cause matches none. -/
theorem decodeEv_row (w : Evw) (b0 b1 : Byte) : (decodeEv w b0 b1).toOption.map Instr.mnemonic = evRowOf w := by
  by_cases hc : evCause w = 0x1
  · rw [← decodeTrn_row hc, decodeEv, hc]
    rfl
  · simp only [evRowOf_fields, decodeEv, hc, false_and, if_false]
    split_ifs <;> rfl

/-! ### Format SP -/

/-- A mask or a pattern of format SP: no row tests the bits of `ReqAttr`, `wIndex` or `wLength`. -/
def spFields (n c : BitVec 1) (b : Byte) (v : BitVec 16) : Spw := spw ⟨0, 0⟩ n c b v 0 0

/-- A SETUP word matches under a mask when its fields do. -/
theorem spw_match_iff {w : Spw} {n mn c mc : BitVec 1} {b mb : Byte} {v mv : BitVec 16} :
    w &&& spFields mn mc mb mv = spFields n c b v ↔
      spNonstd w &&& mn = n ∧ spClass w &&& mc = c ∧ spRequest w &&& mb = b ∧ spValue w &&& mv = v := by
  have hfields : spw (spAttr w) (spNonstd w) (spClass w) (spRequest w) (spValue w) (spIndex w) (spLength w) &&&
      spFields mn mc mb mv = spFields n c b v ↔ _ :=
    append_match_iff.trans (and_congr_left' (append_match_iff.trans (and_congr_left' (append_match_iff.trans (and_congr_left'
      (append_match_iff.trans (and_congr_left' (append_match_iff.trans (and_congr_left' (append_match_iff.trans (and_congr_left'
        append_match_iff)))))))))))
  rw [spw_of_fields] at hfields
  rw [hfields]
  simp only [BitVec.ofNat_eq_ofNat, BitVec.and_zero, true_and, and_true]
  tauto

/-- A value matches under no mask when the pattern is 0. -/
theorem zero_match_iff {n : Nat} {v : BitVec n} : v &&& 0 = 0 ↔ True := iff_true_intro BitVec.and_zero

/-- The mask of `wValue` that keeps `desc_type`. -/
def descTypeMask : BitVec 16 := BitVec.allOnes 8 ++ (0 : Byte)

theorem descType_match_iff {v : BitVec 16} {t : Byte} : v &&& descTypeMask = t ++ (0 : Byte) ↔ descType v = t := by
  conv_lhs => rw [← wValue_of_fields v]
  rw [descTypeMask, append_match_iff, BitVec.and_allOnes]
  exact and_iff_left BitVec.and_zero

/-- The mask of `wValue` that keeps `desc_type` and the six bits a string index out of range has set. -/
def stringMask : BitVec 16 := BitVec.allOnes 8 ++ BitVec.allOnes 6 ++ (0 : BitVec 2)

theorem string_match_iff {v : BitVec 16} {t : Byte} :
    v &&& stringMask = t ++ (0 : BitVec 6) ++ (0 : BitVec 2) ↔ descType v = t ∧ v.extractLsb' 2 6 = 0 := by
  conv_lhs => rw [← wValue_of_string_fields v]
  rw [stringMask, append_match_iff, append_match_iff, BitVec.and_allOnes, BitVec.and_allOnes]
  exact and_iff_left BitVec.and_zero

/-- The rows of format SP by fields. -/
theorem spTable_fields : spTable =
    [⟨.nonstdRequestType, spFields 1 0 0 0, spFields (.allOnes 1) 0 0 0⟩,
     ⟨.getDescriptorDevice, spFields 0 0 0x06 ((0x01 : Byte) ++ (0 : Byte)),
       spFields (.allOnes 1) (.allOnes 1) (.allOnes 8) descTypeMask⟩,
     ⟨.getDescriptorConfiguration, spFields 0 0 0x06 ((0x02 : Byte) ++ (0 : Byte)),
       spFields (.allOnes 1) (.allOnes 1) (.allOnes 8) descTypeMask⟩,
     ⟨.getDescriptorReport, spFields 0 0 0x06 ((0x22 : Byte) ++ (0 : Byte)),
       spFields (.allOnes 1) (.allOnes 1) (.allOnes 8) descTypeMask⟩,
     ⟨.getDescriptorString, spFields 0 0 0x06 ((0x03 : Byte) ++ (0 : BitVec 6) ++ (0 : BitVec 2)),
       spFields (.allOnes 1) (.allOnes 1) (.allOnes 8) stringMask⟩,
     ⟨.getDescriptorStringOutOfRange, spFields 0 0 0x06 ((0x03 : Byte) ++ (0 : Byte)),
       spFields (.allOnes 1) (.allOnes 1) (.allOnes 8) descTypeMask⟩,
     ⟨.getDescriptorUnknown, spFields 0 0 0x06 0, spFields (.allOnes 1) (.allOnes 1) (.allOnes 8) 0⟩,
     ⟨.setAddress, spFields 0 0 0x05 0, spFields (.allOnes 1) (.allOnes 1) (.allOnes 8) 0⟩,
     ⟨.setConfiguration, spFields 0 0 0x09 0, spFields (.allOnes 1) (.allOnes 1) (.allOnes 8) 0⟩,
     ⟨.getConfiguration, spFields 0 0 0x08 0, spFields (.allOnes 1) (.allOnes 1) (.allOnes 8) 0⟩,
     ⟨.getReport, spFields 0 1 0x01 0, spFields (.allOnes 1) (.allOnes 1) (.allOnes 8) 0⟩,
     ⟨.setIdle, spFields 0 1 0x0A 0, spFields (.allOnes 1) (.allOnes 1) (.allOnes 8) 0⟩,
     ⟨.unsupportedStandard, spFields 0 0 0 0, spFields (.allOnes 1) (.allOnes 1) 0 0⟩,
     ⟨.unsupportedClass, spFields 0 1 0 0, spFields (.allOnes 1) (.allOnes 1) 0 0⟩] := rfl

/-- The first row a SETUP word matches, by its fields. -/
theorem spRowOf_fields (w : Spw) : spRowOf w =
    if spNonstd w = 1 then some .nonstdRequestType
    else if spNonstd w = 0 ∧ spClass w = 0 ∧ spRequest w = 0x06 ∧ descType (spValue w) = 0x01 then some .getDescriptorDevice
    else if spNonstd w = 0 ∧ spClass w = 0 ∧ spRequest w = 0x06 ∧ descType (spValue w) = 0x02 then some .getDescriptorConfiguration
    else if spNonstd w = 0 ∧ spClass w = 0 ∧ spRequest w = 0x06 ∧ descType (spValue w) = 0x22 then some .getDescriptorReport
    else if spNonstd w = 0 ∧ spClass w = 0 ∧ spRequest w = 0x06 ∧ descType (spValue w) = 0x03 ∧ (spValue w).extractLsb' 2 6 = 0 then
      some .getDescriptorString
    else if spNonstd w = 0 ∧ spClass w = 0 ∧ spRequest w = 0x06 ∧ descType (spValue w) = 0x03 then
      some .getDescriptorStringOutOfRange
    else if spNonstd w = 0 ∧ spClass w = 0 ∧ spRequest w = 0x06 then some .getDescriptorUnknown
    else if spNonstd w = 0 ∧ spClass w = 0 ∧ spRequest w = 0x05 then some .setAddress
    else if spNonstd w = 0 ∧ spClass w = 0 ∧ spRequest w = 0x09 then some .setConfiguration
    else if spNonstd w = 0 ∧ spClass w = 0 ∧ spRequest w = 0x08 then some .getConfiguration
    else if spNonstd w = 0 ∧ spClass w = 1 ∧ spRequest w = 0x01 then some .getReport
    else if spNonstd w = 0 ∧ spClass w = 1 ∧ spRequest w = 0x0A then some .setIdle
    else if spNonstd w = 0 ∧ spClass w = 0 then some .unsupportedStandard
    else if spNonstd w = 0 ∧ spClass w = 1 then some .unsupportedClass
    else none := by
  simp only [spRowOf, spTable_fields, map_find?_cons, beq_iff_eq, spw_match_iff, descType_match_iff, string_match_iff,
    BitVec.and_allOnes, zero_match_iff, List.find?_nil, Option.map_none, and_true]

/-- Every SETUP word matches a row, and the first is the decoded request's. -/
theorem decodeSp_row (w : Spw) : spRowOf w = some (decodeSp w).mnemonic := by
  rw [spRowOf_fields, decodeSp]
  by_cases hn : spNonstd w = 1
  · rw [if_pos hn, if_pos hn]
    rfl
  · have hn0 : spNonstd w = 0 := (BitVec.eq_zero_or_eq_one _).resolve_right hn
    obtain hc | hc : spClass w = 0 ∨ spClass w = 1 := BitVec.eq_zero_or_eq_one _
    · have hc1 : ¬ (0 : BitVec 1) = 1 := by decide
      simp only [hn0, hc, hc1, true_and, false_and, if_true, if_false, decodeTyped_standard, decodeGetDescriptor, ite_and]
      split_ifs <;> rfl
    · have hc0 : ¬ (1 : BitVec 1) = 0 := by decide
      simp only [hn0, hc, hc0, true_and, false_and, if_true, if_false, decodeTyped_class]
      split_ifs <;> rfl
end Sys2Proof
end

section
/-! PROOFS. The decoder takes the first matching row (30_encoding.md R110). -/

namespace Sys2Proof

/-- Settles O4: both sides are one case distinction over the fields of the word (`decodeEv_row`, `decodeSp_row`). -/
theorem decoderTakesTheFirstMatchingRow : Obligations.DecoderTakesTheFirstMatchingRow :=
  ⟨decodeEv_row, decodeSp_row, rfl, rfl, by decide⟩

end Sys2Proof
end

section
/-! PROOFS. The reserved causes (30_encoding.md R92, R106). -/

namespace Sys2Proof.Machine

/-- The reserved values are those that no row of R92 names. -/
theorem reserved_iff {c : BitVec 4} : c ∈ [0x6, 0x7, 0xA, 0xB, 0xC, 0xD, 0xE, (0xF : BitVec 4)] ↔
    c ≠ 0x0 ∧ c ≠ 0x1 ∧ c ≠ 0x2 ∧ c ≠ 0x3 ∧ c ≠ 0x4 ∧ c ≠ 0x5 ∧ c ≠ 0x8 ∧ c ≠ 0x9 := by
  revert c
  decide

theorem decodeEv_reserved_iff {w : Evw} {b0 b1 : Byte} : decodeEv w b0 b1 = .error (.reservedCause (evCause w)) ↔
    evCause w ∈ [0x6, 0x7, 0xA, 0xB, 0xC, 0xD, 0xE, (0xF : BitVec 4)] := by
  rw [reserved_iff]
  constructor
  · intro h
    unfold decodeEv at h
    split_ifs at h with h0 h1 h2 h3 h4 h5 h8 h9
    exact ⟨h0, h1, h2, h3, h4, h5, h8, h9⟩
  · rintro ⟨h0, h1, h2, h3, h4, h5, h8, h9⟩
    rw [decodeEv, if_neg h0, if_neg h1, if_neg h2, if_neg h3, if_neg h4, if_neg h5, if_neg h8, if_neg h9]

/-- Outside the handler an event word at the head of the inputs is offered. -/
theorem step_of_event {s : State} {w : Evw} {b0 b1 : Byte} {rest : List Input} (hh : s.inHandler = false)
    (hin : s.inputs = .event w b0 b1 :: rest) : step s = offeredEvent exec w b0 b1 rest s := by
  simp only [step, stepWith, hh, hin, Bool.false_and, Bool.false_eq_true, if_false]

/-- Settles O7: a reserved cause is the decoder's one error for a word (`decodeEv_reserved_iff`), and a word offered outside the handler
is decoded first (`step_of_event`). -/
theorem reservedCausesAreRefused : Obligations.ReservedCausesAreRefused := by
  refine fun w b0 b1 => ⟨decodeEv_reserved_iff, fun s rest hc hh hin => ?_⟩
  rw [step_of_event hh hin, offeredEvent, decodeEv_reserved_iff.mpr hc]

end Sys2Proof.Machine
end

section
/-! PROOFS. The bits of a SETUP word that no rule reads (30_encoding.md R97 to R100). -/

namespace Sys2Proof.Machine

/-- A string index in range is its two low bits. -/
theorem setWidth_of_index_in_range {v : BitVec 16} (h : v.extractLsb' 2 6 = 0) : (v.extractLsb' 0 2).setWidth 8 = descIndex v := by
  apply BitVec.eq_of_toNat_eq
  have hlt := (index_in_range v).mp h
  have hlow : v.extractLsb' 0 2 = (descIndex v).extractLsb' 0 2 :=
    (extract_extract v (a := 0) (b := 8) (k := 0) (l := 2) (by omega)).symm
  rw [hlow, BitVec.toNat_setWidth, BitVec.extractLsb'_toNat]
  omega

/-- GET_DESCRIPTOR runs one rule over `desc_type`, `desc_index` and `wLength` (42_ep0_requests.md R191 to R195). -/
theorem exec_decodeGetDescriptor (a : ReqAttr) (v x l : BitVec 16) (s : State) :
    exec (decodeGetDescriptor a v x l) s = setupEvent (getDescriptor (descType v) (descIndex v) l) s := by
  unfold decodeGetDescriptor
  split_ifs with h1 h2 h22 h3 hi
  · rw [h1]; rfl
  · rw [h2]; rfl
  · rw [h22]; rfl
  · rw [h3, ← setWidth_of_index_in_range hi]; rfl
  · rw [h3]; rfl
  · rfl

/-- LOOKUP reads the index of a string only (44_descriptor_repository.md R240). -/
theorem lookup_congr {p : Params} {t i j : Byte} (h : t = 0x03 → i = j) : lookup p t i = lookup p t j := by
  by_cases ht : t = 0x03
  · rw [h ht]
  · simp only [lookup, if_neg ht]

theorem getDescriptor_congr {t i j : Byte} (h : t = 0x03 → i = j) (l : BitVec 16) : getDescriptor t i l = getDescriptor t j l := by
  funext s
  simp only [getDescriptor, lookup_congr h]

/-- What a standard request reads of two values of `wValue` and `wLength` is the same (30_encoding.md R98, R99). -/
def readAlike (b : Byte) (v v' l l' : BitVec 16) : Prop :=
  (b = 0x06 → descType v = descType v' ∧ l = l' ∧ (descType v = 0x03 → descIndex v = descIndex v')) ∧
  (b = 0x05 → v.extractLsb' 0 7 = v'.extractLsb' 0 7) ∧
  (b = 0x09 → v.extractLsb' 0 8 = v'.extractLsb' 0 8)

theorem exec_standard_congr {b : Byte} {v v' l l' : BitVec 16} (h : readAlike b v v' l l') (a a' : ReqAttr) (x x' : BitVec 16)
    (s : State) : exec (decodeTyped a 0 b v x l) s = exec (decodeTyped a' 0 b v' x' l') s := by
  obtain ⟨hdesc, haddr, hconf⟩ := h
  rw [decodeTyped_standard, decodeTyped_standard]
  split_ifs with h6 h5 h9 h8
  · obtain ⟨ht, rfl, hi⟩ := hdesc h6
    rw [exec_decodeGetDescriptor, exec_decodeGetDescriptor, ← ht, getDescriptor_congr hi]
  · have hv : newAddr v = newAddr v' := haddr h5
    show execSetAddress v s = execSetAddress v' s
    rw [execSetAddress, execSetAddress, hv]
  · have hv : newConfig v = newConfig v' := hconf h9
    show execSetConfiguration v s = execSetConfiguration v' s
    rw [execSetConfiguration, execSetConfiguration, hv]
  · rfl
  · rfl

theorem exec_class_congr (a a' : ReqAttr) (b : Byte) (v v' x x' l l' : BitVec 16) (s : State) :
    exec (decodeTyped a 1 b v x l) s = exec (decodeTyped a' 1 b v' x' l') s := by
  rw [decodeTyped_class, decodeTyped_class]
  split_ifs <;> rfl

/-- A request of a nonstandard type: only AS_STANDARD reads it, as a standard request (42_ep0_requests.md R204). -/
theorem exec_nonstd_congr {b : Byte} {v v' l l' : BitVec 16} {s : State}
    (h : s.params.nonstdTypePolicy = .asStandard → readAlike b v v' l l') (a a' : ReqAttr) (c c' : BitVec 1) (x x' : BitVec 16) :
    exec (.nonstdRequestType a c b v x l) s = exec (.nonstdRequestType a' c' b v' x' l') s := by
  by_cases hp : s.params.nonstdTypePolicy = .asStandard
  · rw [← (exec_underPolicy rfl s).1, ← (exec_underPolicy (i := .nonstdRequestType a' c' b v' x' l') rfl s).1]
    simp only [Instr.underPolicy, if_pos hp]
    exact exec_standard_congr (h hp) a a' x x' s
  · show execNonstdRequestType a b v x l s = execNonstdRequestType a' b v' x' l' s
    unfold execNonstdRequestType
    split
    · rfl
    · contradiction
    · rfl

/-- Settles O8: a SETUP word acts by its type field, and each type reads no more than the premises fix (`exec_nonstd_congr`,
`exec_standard_congr`, `exec_class_congr`). -/
theorem unreadSetupBitsDoNotMatter : Obligations.UnreadSetupBitsDoNotMatter := by
  intro v w s hn hc hb h
  have hread (ht : (spNonstd v = 0 ∧ spClass v = 0) ∨ (spNonstd v = 1 ∧ s.params.nonstdTypePolicy = .asStandard)) :
      readAlike (spRequest v) (spValue v) (spValue w) (spLength v) (spLength w) := h ht
  unfold decodeSp
  rw [← hn, ← hc, ← hb]
  split_ifs with hn1
  · exact exec_nonstd_congr (fun hp => hread (.inr ⟨hn1, hp⟩)) _ _ _ _ _ _
  · obtain h0 | h1 : spClass v = 0 ∨ spClass v = 1 := BitVec.eq_zero_or_eq_one _
    · rw [h0]
      exact exec_standard_congr (hread (.inl ⟨(BitVec.eq_zero_or_eq_one _).resolve_right hn1, h0⟩)) _ _ _ _ s
    · rw [h1]
      exact exec_class_congr _ _ _ _ _ _ _ _ _ s

end Sys2Proof.Machine
end

section
/-! PROOFS. Words written out (30_encoding.md R91 to R103, 95_test_vectors.md section 0). -/

namespace Sys2Proof

/-- Settles O3: the decoder computes each word's fields. -/
theorem wordsDecodeAsTheSpecWritesThem : Obligations.WordsDecodeAsTheSpecWritesThem :=
  ⟨rfl, rfl, rfl, rfl, rfl, rfl, rfl, rfl, rfl, rfl, rfl, rfl, rfl, rfl, rfl⟩

end Sys2Proof
end

section
/-! SUPPORT. The step of the machine by the place it is in: the running handler, the interrupt that is taken, IDLE's sleep, an offered
event (40_bus_event_dispatcher.md R130, R131, R136; 45_environment_agents.md R271; logs 7 and 8). -/

namespace Sys2Proof.Machine

/-! ### Words of the foreground and of the handler -/

/-- CAUSE 0x8 and 0x9 are the foreground calls (30_encoding.md R92). -/
theorem decodeEv_foreground {w : Evw} (h : evCause w = 0x8 ∨ evCause w = 0x9) (b0 b1 : Byte) :
    ∃ i, decodeEv w b0 b1 = .ok i ∧ i.mnemonic.isForeground = true := by
  unfold decodeEv
  rcases h with h | h <;> rw [h] <;> exact ⟨_, rfl, rfl⟩

/-- The operand bytes play no part in a handler's event: only REPORT_WRITE has some (30_encoding.md R94). -/
theorem decodeEv_of_handler {w : Evw} {b0 b1 : Byte} {i : Instr} (h : decodeEv w b0 b1 = .ok i)
    (hi : i.mnemonic.isForeground = false) (c0 c1 : Byte) : decodeEv w c0 c1 = .ok i := by
  obtain ⟨hwf, hword, -⟩ := decodeEv_word h
  rcases decodeEv_of_evWord hwf hword with ⟨-, -, hany⟩ | ⟨h8, -⟩
  · exact hany c0 c1
  · obtain ⟨j, hj, hfg⟩ := decodeEv_foreground (.inl h8) b0 b1
    cases h.symm.trans hj
    rw [hfg] at hi
    cases hi

/-! ### One event of the handler -/

theorem afterEvent_eq (c : Cause) (t : State) :
    afterEvent c t = if c = .other then { t with inHandler := false, phase := .reset } else t := by
  cases c <;> rfl

/-- An event whose word decodes runs its instruction from the place after its cause (40_bus_event_dispatcher.md R131). -/
theorem runEvent_of_decodeEv {w : Evw} {i : Instr} (hi : decodeEv w 0 0 = .ok i) (c : Cause) (s : State) :
    runEvent exec c w s = andThen (exec i { s with phase := phaseAfter c }) fun t =>
      .next (if c = .other then { t with inHandler := false, phase := .reset } else t) := by
  simp only [← afterEvent_eq, runEvent, hi]
  cases c <;> rfl

/-- The invocation's next event is the one the interface registers form (30_encoding.md R94). -/
theorem handlerStep_of_formEvw {s : State} {w : Evw} (hw : formEvw s (select s s.phase) = some w) :
    handlerStep exec s = runEvent exec (select s s.phase) w s := by
  rw [handlerStep, hw]

/-! ### The step -/

theorem asleep_iff {s : State} : asleep s = true ↔ s.inHandler = true ∧ s.phase = .wake ∧ s.ip.actv = false := by
  simp [asleep, and_assoc]

/-- A running handler that does not sleep takes its next event. -/
theorem step_of_running {s : State} (hh : s.inHandler = true) (ha : asleep s = false) : step s = handlerStep exec s := by
  simp [step, stepWith, hh, ha]

/-- With nothing offered an interrupt that is taken starts an invocation (40_bus_event_dispatcher.md R130, 60_exceptions.md R312). -/
theorem step_of_interrupt {s : State} (hh : s.inHandler = false) (hin : s.inputs = []) (hint : interruptTaken s = true) :
    step s = handlerStep exec (enterHandler s) := by
  simp [step, stepWith, hh, hin, hint]

/-- A foreground call that is enabled runs as itself (45_environment_agents.md R271). -/
theorem offeredEvent_of_foreground {s : State} {w : Evw} {b0 b1 : Byte} {i : Instr} (hi : decodeEv w b0 b1 = .ok i)
    (hfg : i.mnemonic.isForeground = true) (hsus : s.suspended = false) (hint : interruptTaken s = false) (rest : List Input) :
    offeredEvent exec w b0 b1 rest s = exec i (s.withInputs rest) := by
  simp [offeredEvent, hi, hfg, hsus, hint]

/-- An offered handler event that says what the registers say is the first event of a new invocation (log 9). -/
theorem offeredEvent_of_formEvw {s : State} {w v : Evw} {b0 b1 : Byte} {i : Instr} (hi : decodeEv w b0 b1 = .ok i)
    (hfg : i.mnemonic.isForeground = false) (hint : interruptTaken s = true) (hv : formEvw s (selectReset s) = some v)
    (hm : evwMeaning w = evwMeaning v) (rest : List Input) :
    offeredEvent exec w b0 b1 rest s = runEvent exec (selectReset s) w ((enterHandler s).withInputs rest) := by
  simp [offeredEvent, hi, hfg, hint, hv, hm]

/-- A sleeping handler to which nothing is offered waits (40_bus_event_dispatcher.md R136). -/
theorem step_of_asleep_nothing {s : State} (ha : asleep s = true) (hin : s.inputs = []) : step s = .next s := by
  simp [step, stepWith, ha, hin, (asleep_iff.mp ha).1]

/-- An event offered into the sleep is refused (60_exceptions.md R307). -/
theorem step_of_asleep_event {s : State} {w : Evw} {b0 b1 : Byte} {rest : List Input} {i : Instr} (ha : asleep s = true)
    (hin : s.inputs = .event w b0 b1 :: rest) (hi : decodeEv w b0 b1 = .ok i) :
    step s = .refused (if i.mnemonic.isForeground then .foregroundNotEnabled else .handlerEventNotEnabled) := by
  simp [step, stepWith, ha, hin, (asleep_iff.mp ha).1, hi]

/-- No event of the handler starts while it sleeps. -/
theorem handlerBase.asleep_eq_false {s s0 : State} (h : handlerBase s s0) : asleep s = false := by
  rcases h.place with ⟨-, ha, -⟩ | ⟨hh, -⟩ | ⟨hh, -⟩
  · exact ha
  · simp [asleep, hh]
  · simp [asleep, hh]

end Sys2Proof.Machine
end

section
/-! PROOFS. The Bus Event Dispatcher (40_bus_event_dispatcher.md R130 to R138). -/

namespace Sys2Proof.Machine

/-! ### BUS_RESET and the register events -/

theorem busResetRptToggle_eq (p : Params) (t : Bool) :
    busResetRptToggle p t = if p.busResetToggleScope = .rpt ∨ p.busResetToggleScope = .both then true else t := by
  unfold busResetRptToggle
  cases p.busResetToggleScope <;> rfl

theorem busResetCtxToggle_eq (p : Params) (t : Bool) :
    busResetCtxToggle p t = if p.busResetToggleScope = .ctx ∨ p.busResetToggleScope = .both then true else t := by
  unfold busResetCtxToggle
  cases p.busResetToggleScope <;> rfl

/-- Settles O12: the next state is `execBusReset_eq`; its RAM differs in the configuration's byte, its descriptors in EP0_OUT's. -/
theorem busResetEffect : Obligations.BusResetEffect := by
  intro low s _
  refine ⟨_, execBusReset_eq s, Memory.read_write_same s.ram s.params.addrConfig 0, sameBytesExcept_of rfl ?_ ?_, ?_⟩
  · exact fun a ha _ => Memory.read_write_other s.ram 0 fun hconfig => ha (.inl hconfig)
  · intro b a ha hb
    cases b with
    | ep0Out => exact absurd (.inr hb) ha
    | ep0In | ep1Out | ep1In => rfl
  · rw [busResetRptToggle_eq, busResetCtxToggle_eq]

/-- Settles O14: the clear of the TRN condition is `clearTrn_eq`, and the other four events write registers alone. -/
theorem registerEvents : Obligations.RegisterEvents := fun s =>
  ⟨fun _ _ _ _ => congrArg Host.Outcome.next (clearTrn_eq s), fun _ => rfl, fun _ => rfl, fun _ => rfl, fun _ => rfl⟩

/-! ### The order of the causes -/

/-- The first cause found, one cause at a time. -/
theorem getD_find?_cons {α : Type} (p : α → Bool) (a d : α) (as : List α) :
    ((a :: as).find? p).getD d = if p a then a else (as.find? p).getD d := by
  rw [List.find?_cons]
  cases p a <;> rfl

theorem selectActv_eq (s : State) : selectActv s = ([.actv].find? (pendingEnabled s)).getD .other := by
  rw [getD_find?_cons]; rfl

theorem selectIdle_eq (s : State) : selectIdle s = ([.idle, .actv].find? (pendingEnabled s)).getD .other := by
  rw [getD_find?_cons, ← selectActv_eq]; rfl

theorem selectError_eq (s : State) : selectError s = ([.error, .idle, .actv].find? (pendingEnabled s)).getD .other := by
  rw [getD_find?_cons, ← selectIdle_eq]; rfl

theorem selectTrn_eq (s : State) : selectTrn s = ([.trn, .error, .idle, .actv].find? (pendingEnabled s)).getD .other := by
  rw [getD_find?_cons, ← selectError_eq]; rfl

theorem selectReset_eq (s : State) : selectReset s = ([.reset, .trn, .error, .idle, .actv].find? (pendingEnabled s)).getD .other := by
  rw [getD_find?_cons, ← selectTrn_eq]; rfl

/-- Settles O17: each place's selection tests its own cause and then selects as the next place does. -/
theorem causesAreTakenInOrder : Obligations.CausesAreTakenInOrder := by
  refine fun s => ⟨selectReset_eq s, selectTrn_eq s, selectError_eq s, selectIdle_eq s, selectActv_eq s, selectActv_eq s, rfl,
    fun c d => ?_⟩
  cases c <;> simp [phaseAfter, eq_comm]

/-! ### The step -/

/-- Settles O15: by the place of the step (`step_of_running`, `step_of_interrupt`, `step_of_event`), each time the event whose word
decodes (`runEvent_of_decodeEv`). -/
theorem stepRunsTheDecodedEvent : Obligations.StepRunsTheDecodedEvent := by
  intro s w i
  refine ⟨fun hh ha hw hi => ?running, fun hh hin hint hw hi => ?interrupt,
    fun b0 b1 rest hh hsus hint hin hi hfg => ?foreground, fun v b0 b1 rest hh hint hin hi hfg hv hm => ?offered⟩
  case running => rw [step_of_running hh ha, handlerStep_of_formEvw hw, runEvent_of_decodeEv hi]
  case interrupt =>
    have hw' : formEvw (enterHandler s) (select (enterHandler s) (enterHandler s).phase) = some w := hw
    rw [step_of_interrupt hh hin hint, handlerStep_of_formEvw hw', runEvent_of_decodeEv hi]
    rfl
  case foreground =>
    rw [step_of_event hh hin, offeredEvent_of_foreground hi hfg hsus hint]
    rfl
  case offered =>
    rw [step_of_event hh hin, offeredEvent_of_formEvw (decodeEv_of_handler hi hfg b0 b1) hfg hint hv hm, runEvent_of_decodeEv hi]
    rfl

/-! ### IDLE's sleep -/

@[simp] theorem State.pokeBytes_ip (s : State) (a : Nat) (v : List Byte) : (s.pokeBytes a v).ip = s.ip := by
  rw [State.pokeBytes_eq]

@[simp] theorem wireWrite_ip (r : WireRecord) (s : State) : (wireWrite r s).ip = s.ip := rfl

@[simp] theorem handBack_ip (b : BdIx) (pid : BitVec 4) (dts : Bool) (count : BitVec 8) (s : State) :
    (handBack b pid dts count s).ip = s.ip := rfl

@[simp] theorem pushTrn_actv (b : BdIx) (s : State) : (pushTrn b s).ip.actv = s.ip.actv := rfl

theorem setupToken_actv (packet : Spw) (s : State) : (setupToken packet s).ip.actv = s.ip.actv := by
  simp [setupToken]

theorem outData_actv (toggle : Bool) (bytes : List Byte) (s : State) : (outData toggle bytes s).ip.actv = s.ip.actv := by
  unfold outData
  split
  · simp
  · rfl

/-- A token step leaves `ip.ACTV` alone when its effect does. -/
theorem tokenStep_actv {addr : BitVec 7} {ready : State → Bool} {effect : State → State} {s t : State}
    (h : tokenStep addr ready effect s = .next t) (he : (effect s).ip.actv = s.ip.actv) : t.ip.actv = s.ip.actv := by
  rcases tokenStep_next h with rfl | ⟨-, -, -, rfl⟩
  · rfl
  · exact he

/-- Only detected activity and a bus reset can change `ip.ACTV` (45_environment_agents.md R276, R283). -/
theorem sieStep_actv {a : SieStep} {s t : State} (h : sieStep a s = .next t) (h1 : a ≠ .activityDetected) (h2 : a ≠ .hostBusReset) :
    t.ip.actv = s.ip.actv := by
  cases a <;> simp only [sieStep] at h
  case activityDetected => exact absurd rfl h1
  case hostBusReset => exact absurd rfl h2
  case setupToken addr packet => exact tokenStep_actv h (setupToken_actv packet s)
  case outData addr toggle bytes => exact tokenStep_actv h (outData_actv toggle bytes s)
  case inDone | nak | stallHandshake => exact tokenStep_actv h rfl
  case busErrorDetected | idleDetected =>
    split at h <;> cases h
    rfl
  case otherDetected => cases h; rfl

/-- A step of the SIE that ends the sleep raises `ip.ACTV` and is detected activity or a bus reset (D23). -/
theorem sieStep_of_asleep {a : SieStep} {s t : State} (ha : asleep s = true) (h : sieStep a s = .next t) :
    asleep t = true ∨ (a = .activityDetected ∨ a = .hostBusReset) ∧ t.ip.actv = true := by
  obtain ⟨hh, hp, hactv⟩ := asleep_iff.mp ha
  have hf := sieStep_framed h
  have hsleeps (ht : t.ip.actv = false) : asleep t = true := asleep_iff.mpr ⟨hf.inHandler.trans hh, hf.phase.trans hp, ht⟩
  by_cases hw : a = .activityDetected ∨ a = .hostBusReset
  · cases ht : t.ip.actv with
    | false => exact .inl (hsleeps ht)
    | true => exact .inr ⟨hw, rfl⟩
  · obtain ⟨h1, h2⟩ := not_or.mp hw
    exact .inl (hsleeps ((sieStep_actv h h1 h2).trans hactv))

/-- A step out of the sleep is one of the SIE that raises `ip.ACTV` (40_bus_event_dispatcher.md R136). -/
theorem step_of_asleep {s t : State} (ha : asleep s = true) (h : step s = .next t) : asleep t = true ∨
    ∃ a rest, s.inputs = .sie a :: rest ∧ (a = .activityDetected ∨ a = .hostBusReset) ∧ t.ip.actv = true := by
  rcases step_cases s with ⟨hs, -⟩ | ⟨a, rest, hin, -, hs⟩ | ⟨i, w, b0, b1, rest, -, -, -, hh, -⟩ | ⟨s0, hb, -⟩ |
    ⟨w, b0, b1, rest, -, ⟨hs, -⟩ | hs | hs⟩
  · rw [hs] at h; cases h; exact .inl ha
  · rw [hs] at h
    exact (sieStep_of_asleep (s := s.withInputs rest) ha h).imp_right fun hwake => ⟨a, rest, hin, hwake⟩
  · rw [(asleep_iff.mp ha).1] at hh; cases hh
  · rw [hb.asleep_eq_false] at ha; cases ha
  all_goals rw [hs] at h; cases h

/-- Once `ip.ACTV` is 1 the invocation goes on with ACTIVITY (40_bus_event_dispatcher.md R137). -/
theorem step_of_wake {s : State} (hh : s.inHandler = true) (hp : s.phase = .wake) (hie : s.ie = suspendIe)
    (hactv : s.ip.actv = true) :
    step s = .next { s with suspended := false, ie := fullIe, ip := { s.ip with actv := false }, phase := .drain } := by
  have hawake : asleep s = false := by simp [asleep, hactv]
  have hsel : select s s.phase = .actv := by simp [hp, select, selectActv, hactv, hie, suspendIe]
  have hw : formEvw s (select s s.phase) = some (evwLow 0x4 0) := by rw [hsel]; rfl
  rw [step_of_running hh hawake, handlerStep_of_formEvw hw, runEvent_of_decodeEv (decodeEv_evwLow 0x4 0 0 0), hsel]
  rfl

/-- Settles O19: the sleep's own steps (`step_of_asleep_nothing`, `step_of_asleep_event`, `step_of_asleep`), and the step that ends it
(`step_of_wake`). -/
theorem sleepEndsOnlyByActivity : Obligations.SleepEndsOnlyByActivity := by
  refine ⟨fun s => step_of_asleep_nothing, fun s w b0 b1 rest ha hin hc => ?_, fun s t => step_of_asleep, fun s => step_of_wake⟩
  obtain ⟨i, hi, hfg⟩ := decodeEv_foreground hc b0 b1
  rw [step_of_asleep_event ha hin hi, hfg]
  rfl

end Sys2Proof.Machine
end

section
/-! SUPPORT. The bytes of RAM that an arm of endpoint 0 and the end of an endpoint-0 event can change (41_ep0_control_engine.md R163 to
R169, R172). -/

namespace Sys2Proof.Machine

/-! ### Frames of memory -/

theorem sameBytesExcept.mono {s t : State} {c d : Nat → Prop} (h : sameBytesExcept s t c) (hcd : ∀ a, c a → d a) :
    sameBytesExcept s t d := fun a ha => h a fun hc => ha (hcd a hc)

/-- Where RAM's list and the descriptors stay, every byte of RAM stays. -/
theorem sameBytesExcept_of_eq {s t : State} {changed : Nat → Prop} (hp : t.params = s.params) (hr : t.ram = s.ram)
    (hb : t.bd = s.bd) : sameBytesExcept s t changed :=
  sameBytesExcept_bds hp hr fun b => .inl (congrArg (BdFile.get · b) hb)

/-- Where EP0_OUT alone is armed, the bytes outside its descriptor stay. -/
theorem sameBytesExcept_ep0Out {s t : State} {d : BD} {changed : Nat → Prop} (hp : t.params = s.params) (hr : t.ram = s.ram)
    (hb : t.bd = { s.bd with ep0Out := d }) (hc : ∀ a, inBd s.params .ep0Out a → changed a) : sameBytesExcept s t changed := by
  refine sameBytesExcept_bds hp hr fun b => ?_
  cases b with
  | ep0Out => exact .inr hc
  | ep0In | ep1Out | ep1In => exact .inl (by rw [State.bdAt, hb]; rfl)

/-- Where both descriptors of endpoint 0 are armed, the bytes outside them stay. -/
theorem sameBytesExcept_ep0 {s t : State} {d e : BD} {changed : Nat → Prop} (hp : t.params = s.params) (hr : t.ram = s.ram)
    (hb : t.bd = { s.bd with ep0Out := d, ep0In := e }) (hc : ∀ a, inBd s.params .ep0Out a ∨ inBd s.params .ep0In a → changed a) :
    sameBytesExcept s t changed := by
  refine sameBytesExcept_bds hp hr fun b => ?_
  cases b with
  | ep0Out => exact .inr fun a ha => hc a (.inl ha)
  | ep0In => exact .inr fun a ha => hc a (.inr ha)
  | ep1Out | ep1In => exact .inl (by rw [State.bdAt, hb]; rfl)

/-! ### The IN data arm -/

/-- Sending a packet takes its bytes off the rest (41_ep0_control_engine.md R165). -/
theorem remaining_sub_packetSize (r : BitVec 16) :
    (r - BitVec.ofNat 16 (packetSize r)).toNat = r.toNat - packetSize r := by
  have hle : packetSize r ≤ r.toNat := Nat.min_le_left _ _
  have hr := r.isLt
  rw [BitVec.toNat_sub_of_le (by rw [BitVec.le_def, BitVec.toNat_ofNat]; omega), BitVec.toNat_ofNat, Nat.mod_eq_of_lt (by omega)]

/-- A copy that goes on to a run of RAM clear of the descriptors changes that run alone, wherever its source lies. -/
theorem sameBytesExcept_copy {s t : State} {sp : Space} {src dst n : Nat} (hfit : dst + n ≤ 2 ^ s.params.ptrW)
    (hc : clearOfBds s.params dst n) (h : copy s sp src dst n = .next t) : sameBytesExcept s t (inRun dst n) := by
  obtain ⟨v, hv, hs⟩ := andThen_eq_next.mp h
  have hlen : v.length = n := by rw [(memRead_next_iff.mp hv).2, State.peekBytes_length]
  subst hlen
  obtain ⟨hbd, hread⟩ := State.pokeBytes_outside hfit fun k hk => hc.not_inRegion hk
  rw [(memWrite_next_iff.mp hs).2]
  exact sameBytesExcept_of (State.pokeBytes_params s dst v) (fun x hx _ => (hread x).trans (if_neg hx))
    fun b _ _ _ => congrArg (BdFile.get · b) hbd

/-- The copy of the IN data arm changes the packet's bytes of EP0_IN_BUF alone. -/
theorem sameBytesExcept_copyFromSource {s t : State} {n : Nat} (hw : s.params.wf = true) (hn : n ≤ 8)
    (h : copyFromSource s n = .next t) : sameBytesExcept s t (inRun s.params.ep0InBuf n) := by
  have hfit := (insideRegion_ep0In s.params hn).fits hw
  unfold copyFromSource at h
  split at h
  · exact sameBytesExcept_copy hfit (clearOfBds_ep0In hw hn) h
  · split at h
    · cases h; exact sameBytesExcept_of_eq rfl rfl rfl
    · cases h

/-- The copy of the IN data arm changes RAM's list and the descriptors alone. -/
theorem copyFromSource_eq {s t : State} {n : Nat} (h : copyFromSource s n = .next t) : t = { s with bd := t.bd, ram := t.ram } := by
  unfold copyFromSource at h
  split at h
  · exact copy_eq h
  · split at h
    · cases h; rfl
    · cases h

/-- The bytes an endpoint-0 event stores with its epilogue: the two descriptors, and `n` bytes of EP0_IN_BUF. -/
def ep0Stores (p : Params) (n a : Nat) : Prop := inBd p .ep0Out a ∨ inBd p .ep0In a ∨ inRun p.ep0InBuf n a

/-- An event that ends over an IN context stores the packet of the context and the two descriptors (41_ep0_control_engine.md R163). -/
theorem sameBytesExcept_finishEp0_in {s t : State} (hw : s.params.wf = true) (hk : s.ctx.kind = .ctlIn)
    (h : finishEp0 false s = .next t) : sameBytesExcept s t (ep0Stores s.params (packetSize s.ctx.remaining)) := by
  obtain ⟨v, hv, ht⟩ := andThen_eq_next.mp h
  simp only [epilogue, Bool.false_eq_true, if_false, hk] at hv
  obtain ⟨w, harm, hv⟩ := andThen_eq_next.mp hv
  obtain ⟨u, hu, harm⟩ := andThen_eq_next.mp harm
  cases harm; cases hv; cases ht
  have hp : u.params = s.params := by rw [copyFromSource_eq hu]
  refine (sameBytesExcept_copyFromSource hw (Nat.min_le_right _ _) hu).trans
    (d := fun a => inBd s.params .ep0Out a ∨ inBd s.params .ep0In a) ?_ (fun a ha => .inr (.inr ha)) fun a ha => ha.imp id .inl
  rw [← hp]
  exact sameBytesExcept_ep0 rfl rfl rfl fun _ => id

/-! ### The requests -/

/-- An event that arms the two descriptors alone stores no more than one that sends a packet beside. -/
theorem sameBytesExcept_ep0Stores {s t : State} {d e : BD} (n : Nat) (hp : t.params = s.params) (hr : t.ram = s.ram)
    (hb : t.bd = { s.bd with ep0Out := d, ep0In := e }) : sameBytesExcept s t (ep0Stores s.params n) :=
  sameBytesExcept_ep0 hp hr hb fun _ ha => ha.imp id .inl

/-- A request that begins an IN context stores the first packet (42_ep0_requests.md R203). -/
theorem bytes_of_beginIn {rule : State → State × Bool} {s t : State} {sp : Space} {ptr : Pointer} {len : BitVec 16}
    (hw : s.params.wf = true) (hr : rule (aborted s) = (beginIn sp ptr len (aborted s), false)) (h : setupEvent rule s = .next t) :
    sameBytesExcept s t (ep0Stores s.params (packetSize len)) := by
  rw [setupEvent_eq, hr] at h
  exact sameBytesExcept_finishEp0_in (s := { beginIn sp ptr len (aborted s) with pktdis := false }) hw rfl h

/-- GET_DESCRIPTOR stores the first packet of the descriptor LOOKUP finds (42_ep0_requests.md R191 to R195). -/
theorem bytes_of_getDescriptor {s t : State} {type index : Byte} {l : BitVec 16} (hw : s.params.wf = true)
    (h : setupEvent (getDescriptor type index l) s = .next t) :
    sameBytesExcept s t (ep0Stores s.params (descriptorPacket s.params type index l)) := by
  cases hl : lookup s.params type index with
  | none =>
    rw [getDescriptor_missing hl] at h
    cases h
    exact sameBytesExcept_ep0Stores _ rfl rfl rfl
  | some found =>
    obtain ⟨ptr, len⟩ := found
    have hrule : getDescriptor type index l (aborted s) = (beginIn .rom ptr (clampLength len l) (aborted s), false) := by
      simp only [getDescriptor, show (aborted s).params = s.params from rfl, hl]
    have hsize : descriptorPacket s.params type index l = packetSize (clampLength len l) := by
      rw [packetSize, clampLength_toNat, descriptorPacket, hl]
      rfl
    rw [hsize]
    exact bytes_of_beginIn hw hrule h

/-- The bytes a request stores with its SETUP event: the two descriptors, its first packet, and the configuration for SET_CONFIGURATION
alone (42_ep0_requests.md R191 to R204). -/
def requestStores (p : Params) (i : Instr) (a : Nat) : Prop :=
  ep0Stores p (packetOf p i) a ∨ (i.mnemonic = .setConfiguration ∧ a = p.addrConfig)

/-- SET_CONFIGURATION writes the byte of the configuration beside the descriptors (42_ep0_requests.md R197). -/
theorem bytes_of_setConfiguration (s : State) (v : Byte) :
    sameBytesExcept s { beginsOut s with ram := s.ram.write s.params.addrConfig v }
      fun a => ep0Stores s.params 0 a ∨ a = s.params.addrConfig := by
  have hram : sameBytesExcept s { s with ram := s.ram.write s.params.addrConfig v } fun a => a = s.params.addrConfig :=
    sameBytesExcept_of rfl (fun _ ha _ => Memory.read_write_other s.ram v ha) fun _ _ _ _ => rfl
  exact hram.trans (sameBytesExcept_ep0Stores 0 rfl rfl rfl) (fun _ => .inr) fun _ => .inl

/-- A request whose next state `u` differs in RAM in the two descriptors alone. -/
theorem bytes_of_arms {i : Instr} {s t u : State} {d e : BD} (hu : exec i s = .next u) (hp : u.params = s.params)
    (hr : u.ram = s.ram) (hb : u.bd = { s.bd with ep0Out := d, ep0In := e }) (h : exec i s = .next t) :
    sameBytesExcept s t (requestStores s.params i) := by
  cases hu.symm.trans h
  exact (sameBytesExcept_ep0Stores _ hp hr hb).mono fun _ => .inl

/-- A request of a nonstandard type stalls, or is refused, or is none that a SETUP event runs (42_ep0_requests.md R204). -/
theorem bytes_of_nonstd {i : Instr} {s t : State} {attr : ReqAttr} {c : BitVec 1} {b : Byte} {v x l : BitVec 16}
    (hi : i = .nonstdRequestType attr c b v x l) (hn : s.params.nonstdTypePolicy ≠ .asStandard) (h : exec i s = .next t) :
    sameBytesExcept s t (requestStores s.params i) := by
  have hexec : exec i s = execNonstdRequestType attr b v x l s := hi ▸ rfl
  unfold execNonstdRequestType at hexec
  cases hpol : s.params.nonstdTypePolicy with
  | refuse => rw [hexec, hpol] at h; cases h
  | asStandard => exact absurd hpol hn
  | stall => rw [hpol] at hexec; exact bytes_of_arms (hexec.trans (setupEvent_stall _ s)) rfl rfl rfl h

/-- A request that goes on stores nowhere else. -/
theorem bytes_of_request {i : Instr} {s t : State} (hw : s.params.wf = true) (hf : i.format = .sp)
    (hn : i.mnemonic ≠ .nonstdRequestType ∨ s.params.nonstdTypePolicy ≠ .asStandard) (h : exec i s = .next t) :
    sameBytesExcept s t (requestStores s.params i) := by
  cases i with
  | getDescriptorDevice | getDescriptorConfiguration | getDescriptorReport | getDescriptorString | getDescriptorStringOutOfRange
  | getDescriptorUnknown => exact (bytes_of_getDescriptor hw h).mono fun _ => .inl
  | getConfiguration | getReport => exact (bytes_of_beginIn hw rfl h).mono fun _ => .inl
  | setAddress _ v => exact bytes_of_arms (execSetAddress_next v s) rfl rfl rfl h
  | setIdle => exact bytes_of_arms (execSetIdle_next s) rfl rfl rfl h
  | unsupportedStandard => exact bytes_of_arms (execUnsupportedStandard_next s) rfl rfl rfl h
  | unsupportedClass => exact bytes_of_arms (execUnsupportedClass_next s) rfl rfl rfl h
  | setConfiguration _ v =>
    cases (execSetConfiguration_next v s).symm.trans h
    exact (bytes_of_setConfiguration s _).mono fun _ ha => ha.imp_right fun ha => ⟨rfl, ha⟩
  | nonstdRequestType => exact bytes_of_nonstd rfl (hn.resolve_left fun hne => hne rfl) h
  | _ => cases hf

/-- A SETUP event stores what the request it runs stores (41_ep0_control_engine.md R160). -/
theorem bytes_of_setup {i : Instr} {s t : State} (hw : s.params.wf = true) (hi : i.mnemonic.isSetup = true)
    (h : exec i s = .next t) : sameBytesExcept s t (requestStores s.params (s.requestOf i)) := by
  obtain ⟨hrun, hf⟩ := exec_requestOf hw hi
  exact bytes_of_request hw hf (requestOf_typed s i) (hrun.trans h)

end Sys2Proof.Machine
end

section
/-! SUPPORT. A SETUP word by its bytes, and the row of its request by its bits (30_encoding.md R96 to R103). -/

namespace Sys2Proof

/-- Byte `k` of a SETUP word is the `k`-th of the bytes it is put together from (30_encoding.md R96). -/
theorem extract_spwOfBytes (b0 b1 b2 b3 b4 b5 b6 b7 : Byte) {k : Nat} (hk : k < 8) :
    (spwOfBytes b0 b1 b2 b3 b4 b5 b6 b7).extractLsb' (8 * k) 8 = [b0, b1, b2, b3, b4, b5, b6, b7][k] := by
  have h := spBytes_of_bytes b0 b1 b2 b3 b4 b5 b6 b7
  simp only [spBytes, List.cons.injEq, and_true] at h
  obtain ⟨h0, h1, h2, h3, h4, h5, h6, h7⟩ := h
  match k, hk with
  | 0, _ => exact h0
  | 1, _ => exact h1
  | 2, _ => exact h2
  | 3, _ => exact h3
  | 4, _ => exact h4
  | 5, _ => exact h5
  | 6, _ => exact h6
  | 7, _ => exact h7

/-- A bit of a word, as a part of one bit. -/
theorem extract_one {n : Nat} (x : BitVec n) (k : Nat) : x.extractLsb' k 1 = BitVec.ofBool (x.getLsbD k) := by
  ext i hi
  obtain rfl : i = 0 := by omega
  simp

theorem spNonstd_eq_one_iff {w : Spw} : spNonstd w = 1 ↔ w.getLsbD 6 = true := by
  rw [spNonstd, extract_one]
  cases w.getLsbD 6 <;> decide

/-- The type bits of a SETUP word (30_encoding.md R97). -/
theorem spClass_of_bit {w : Spw} {b : Bool} (h : w.getLsbD 5 = b) : spClass w = BitVec.ofBool b := by
  rw [spClass, extract_one, h]

theorem descType_spValue (w : Spw) : descType (spValue w) = w.extractLsb' 24 8 := extract_extract w (by omega)

theorem descIndex_spValue (w : Spw) : descIndex (spValue w) = w.extractLsb' 16 8 := extract_extract w (by omega)

/-- The row of a GET_DESCRIPTOR (30_encoding.md R103). -/
theorem decodeGetDescriptor_mnemonic (a : ReqAttr) (v x l : BitVec 16) : (decodeGetDescriptor a v x l).mnemonic =
    if descType v = 0x01 then .getDescriptorDevice
    else if descType v = 0x02 then .getDescriptorConfiguration
    else if descType v = 0x22 then .getDescriptorReport
    else if descType v = 0x03 then
      if (descIndex v).toNat < 4 then .getDescriptorString else .getDescriptorStringOutOfRange
    else .getDescriptorUnknown := by
  simp only [decodeGetDescriptor, index_in_range, apply_ite Instr.mnemonic]
  rfl

/-- A SETUP word of a standard or class type. -/
theorem decodeSp_typed {w : Spw} (h : w.getLsbD 6 = false) :
    decodeSp w = decodeTyped (spAttr w) (spClass w) (spRequest w) (spValue w) (spIndex w) (spLength w) :=
  if_neg fun hn => by rw [spNonstd_eq_one_iff.mp hn] at h; cases h

/-- Exactly the words with bit 6 set are of a nonstandard type (30_encoding.md R97). -/
theorem decodeSp_nonstd_iff {w : Spw} : (decodeSp w).mnemonic = .nonstdRequestType ↔ w.getLsbD 6 = true := by
  cases h : w.getLsbD 6 with
  | true => simp only [decodeSp, spNonstd_eq_one_iff.mpr h, if_true, Instr.mnemonic]
  | false =>
    rw [decodeSp_typed h]
    exact iff_of_false (Machine.decodeTyped_format _ _ _ _ _ _).2 Bool.false_ne_true

/-- REFUSE leaves a request as the packet says (42_ep0_requests.md R204). -/
theorem Instr.underPolicy_refuse (i : Instr) : i.underPolicy .refuse = i := by
  cases i <;> rfl

end Sys2Proof
end

section
/-! PROOFS. The Endpoint-0 Control Engine: the SETUP event (41_ep0_control_engine.md R160, R170; 42_ep0_requests.md R190). -/

namespace Sys2Proof.Machine

/-- Settles O20: the fetch is `execTrnEp0Setup_eq`, the word's bytes are `extract_spwOfBytes`, and the dispatch is the decoder's
(`decodeTyped_standard`, `decodeTyped_class`). -/
theorem setupRunsTheRequestInTheBuffer : Obligations.SetupRunsTheRequestInTheBuffer := by
  refine ⟨fun zero s hw => ?_, fun s k hk => ?_, fun w => ⟨decodeSp_nonstd_iff.symm, fun h6 h5 => ?_, fun h6 h5 => ?_⟩⟩
  · exact (execTrnEp0Setup_eq hw).trans (exec_eq_runRequest (decodeSp_format _) s).symm
  · refine (extract_spwOfBytes _ _ _ _ _ _ _ _ hk).trans ?_
    interval_cases k <;> rfl
  · rw [decodeSp_typed h6, show spClass w = 0 from spClass_of_bit h5, decodeTyped_standard]
    simp only [apply_ite Instr.mnemonic, decodeGetDescriptor_mnemonic, descType_spValue, descIndex_spValue]
    rfl
  · rw [decodeSp_typed h6, show spClass w = 1 from spClass_of_bit h5, decodeTyped_class]
    simp only [apply_ite Instr.mnemonic]
    rfl

/-! ### Every SETUP event completes -/

/-- A SETUP event of a request that the policy does not refuse ends in one of the four ways (41_ep0_control_engine.md R160). -/
theorem execSetup_next {i : Instr} {s : State} (hw : s.params.wf = true) (hi : i.mnemonic.isSetup = true)
    (hpol : s.params.nonstdTypePolicy = .refuse →
      i.mnemonic ≠ .nonstdRequestType ∧ (i.mnemonic = .trnEp0Setup → spNonstd s.setupWord = 0)) :
    ∃ t, exec i s = .next t ∧ setupOutcome s t := by
  obtain ⟨hrun, hf⟩ := exec_requestOf hw hi
  rw [← hrun, exec_eq_runRequest hf]
  rcases runRequest_outcome hw hf with ⟨hn, hrefuse, -⟩ | ⟨t, ht, ho, -⟩
  · obtain ⟨hne, hword⟩ := hpol hrefuse
    rw [State.requestOf, hrefuse, Instr.underPolicy_refuse] at hn
    split at hn
    · next hm =>
      have h1 := spNonstd_eq_one_iff.mpr (decodeSp_nonstd_iff.mp hn)
      rw [hword hm] at h1
      cases h1
    · exact absurd hn hne
  · exact ⟨t, ht, ho⟩

/-- A packet has at most 8 bytes (41_ep0_control_engine.md R165). -/
theorem packetOf_le (p : Params) (i : Instr) : packetOf p i ≤ 8 := by
  have hdesc (type index : Byte) (l : BitVec 16) : descriptorPacket p type index l ≤ 8 := by
    unfold descriptorPacket
    split
    · exact Nat.min_le_right _ _
    · exact Nat.zero_le 8
  cases i with
  | getDescriptorDevice | getDescriptorConfiguration | getDescriptorReport | getDescriptorString | getDescriptorStringOutOfRange
  | getDescriptorUnknown => simp only [packetOf, hdesc]
  | _ => simp only [packetOf]; omega

/-- The report is none of the bytes a request stores (20_memory.md R67). -/
theorem not_requestStores_report {p : Params} (hw : p.wf = true) (i : Instr) {a : Nat} (ha : inRun p.addrReport 2 a) :
    ¬ requestStores p i a := by
  have hl := Params.ram_layout hw
  have hn := packetOf_le p i
  rintro ((hb | hb | hb) | ⟨-, hb⟩)
  · exact (clearOfBds_report hw (Nat.le_refl 2)).not_inBd ha _ hb
  · exact (clearOfBds_report hw (Nat.le_refl 2)).not_inBd ha _ hb
  · unfold inRun at ha hb
    omega
  · unfold inRun at ha
    omega

/-- No SETUP event writes the report. -/
theorem report_of_setup {i : Instr} {s t : State} (hw : s.params.wf = true) (hi : i.mnemonic.isSetup = true)
    (h : exec i s = .next t) : t.report = s.report := by
  have hp := exec_params h
  have hbytes := bytes_of_setup hw hi h
  have hsame (k : Nat) (hk : k < 2) : t.ramByte (s.params.addrReport + k) = s.ramByte (s.params.addrReport + k) :=
    hbytes _ (not_requestStores_report hw _ ⟨Nat.le_add_right _ _, Nat.add_lt_add_left hk _⟩)
  obtain ⟨hs1, hs2⟩ := State.ramByte_report hw
  obtain ⟨ht1, ht2⟩ := State.ramByte_report (s := t) (hp ▸ hw)
  rw [hp] at ht1 ht2
  exact Prod.ext (ht1.symm.trans ((hsame 0 (by omega)).trans hs1)) (ht2.symm.trans ((hsame 1 (by omega)).trans hs2))

/-- What every SETUP event leaves alone, and what it does to `pktdis` and the queue (41_ep0_control_engine.md R160, R170). -/
theorem setupOutcome.frame {s t : State} (h : setupOutcome s t) : ∃ ctx pendingAddr ep0Out ep0In trace ram, t = { s with
    ctx := ctx
    dev := { uaddr := s.dev.uaddr, pendingAddr := pendingAddr }
    bd := { s.bd with ep0Out := ep0Out, ep0In := ep0In }
    pktdis := false
    trnFifo := s.trnFifo.tail
    ip := trnCleared s
    trace := trace
    ram := ram } := by
  rcases h with ⟨sp, a, n, -, -, -, -, -, -, ht⟩ | rfl | ⟨dev, ram, rfl, ⟨rfl, -⟩ | ⟨v, rfl, -⟩ | ⟨v, rfl, -⟩⟩ | rfl
  · exact ⟨t.ctx, s.dev.pendingAddr, _, _, s.trace, t.ram, ht⟩
  · exact ⟨_, s.dev.pendingAddr, _, _, s.trace, s.ram, rfl⟩
  · exact ⟨_, s.dev.pendingAddr, _, _, s.trace, ram, rfl⟩
  · exact ⟨_, v, _, _, s.trace, ram, rfl⟩
  · exact ⟨_, s.dev.pendingAddr, _, _, s.trace, ram, rfl⟩
  · exact ⟨_, s.dev.pendingAddr, _, _, _, s.ram, rfl⟩

/-- The three ends of a SETUP event, with the arms of each (41_ep0_control_engine.md R163; D8, D15, D16). -/
def setupEnds (s t : State) : Prop :=
  (t.ctx.kind = .ctlIn ∧ t.bd.ep0Out = armed s.bd.ep0Out 8 s.params.ep0OutBuf false true true ∧
    ∃ n, n ≤ 8 ∧ t.bd.ep0In = armed s.bd.ep0In (BitVec.ofNat 8 n) s.params.ep0InBuf false true true) ∨
  (t.ctx.kind = .ctlOut ∧ t.bd.ep0Out = armed s.bd.ep0Out 8 s.params.ep0OutBuf false true true ∧
    t.bd.ep0In = armed s.bd.ep0In 0 s.params.ep0InBuf false true true) ∨
  (t.ctx.kind = .none ∧ t.bd.ep0Out = armed s.bd.ep0Out 8 s.params.ep0OutBuf true false false ∧
    t.bd.ep0In = armed s.bd.ep0In 0 s.params.ep0InBuf true false false)

/-- Every SETUP event sets the toggle and ends in one of the three ways. -/
theorem setupOutcome.ends {s t : State} (h : setupOutcome s t) : t.ctx.nextToggle = true ∧ setupEnds s t := by
  rcases h with ⟨sp, a, n, -, -, -, hc, -, -, ht⟩ | rfl | ⟨dev, ram, rfl, -⟩ | rfl
  · have hbd := congrArg State.bd ht
    exact ⟨by rw [hc], .inl ⟨by rw [hc], by rw [hbd], min n 8, Nat.min_le_right n 8, by rw [hbd]⟩⟩
  · exact ⟨rfl, .inl ⟨rfl, rfl, 0, Nat.zero_le 8, rfl⟩⟩
  · exact ⟨rfl, .inr (.inl ⟨rfl, rfl, rfl⟩)⟩
  · exact ⟨rfl, .inr (.inr ⟨rfl, rfl, rfl⟩)⟩

/-- Settles O21: the event goes on (`execSetup_next`), with its frame (`setupOutcome.frame`, `report_of_setup`) and its ends
(`setupOutcome.ends`). -/
theorem everySetupCompletes : Obligations.EverySetupCompletes := by
  intro i s hw hi hpol
  obtain ⟨t, ht, ho⟩ := execSetup_next hw hi hpol
  have hreport := report_of_setup hw hi ht
  obtain ⟨htoggle, hends⟩ := ho.ends
  obtain ⟨ctx, pendingAddr, ep0Out, ep0In, trace, ram, rfl⟩ := ho.frame
  exact ⟨_, ht, rfl, htoggle, rfl, rfl, rfl, rfl, hreport, rfl, rfl, rfl, rfl, rfl, rfl, rfl, rfl, hends⟩

end Sys2Proof.Machine
end

section
/-! PROOFS. The Endpoint-0 Control Engine: the completions of IN and OUT packets and the epilogue (41_ep0_control_engine.md R161 to
R169). -/

namespace Sys2Proof.Machine

/-- The bytes of EP0_IN_BUF belong to no descriptor (20_memory.md R67). -/
theorem not_inBd_ep0InBuf {p : Params} (hw : p.wf = true) {k : Nat} (hk : k < 8) (b : BdIx) : ¬ inBd p b (p.ep0InBuf + k) :=
  (clearOfBds_ep0In hw (Nat.le_refl 8)).not_inBd ⟨Nat.le_add_right _ _, Nat.add_lt_add_left hk _⟩ b

/-- The status byte of a descriptor armed with toggle checking and no stall (41_ep0_control_engine.md R165). -/
theorem statusByte_armed_toggled (d : BD) (count : BitVec 8) (addr : Nat) (dts : Bool) :
    (armed d count addr false true dts).statusByte = if dts then 0xC8 else 0x88 := by
  cases dts <;> simp only [BD.statusByte, armed] <;> decide

/-- Settles O30: the arm with bytes left is `armInData_at`, the one with none left is `armInData_zero`. -/
theorem armInDataSendsTheNextPacket : Obligations.ArmInDataSendsTheNextPacket := by
  intro s hw
  refine ⟨fun a hd _ hin => ?_, fun hr hp => armInData_zero hr hp⟩
  obtain ⟨t, harm, ht, hpacket, hframe, -⟩ := armInData_at hw hd hin
  have hrest : t.ctx.remaining.toNat = s.ctx.remaining.toNat - packetSize s.ctx.remaining := by
    rw [ht]; exact remaining_sub_packetSize _
  have hstatus : t.bd.ep0In.statusByte = if s.ctx.nextToggle then 0xC8 else 0x88 := by
    rw [ht]; exact statusByte_armed_toggled _ _ _ _
  refine ⟨t, harm, hpacket, fun k hk hk8 => hframe _ ?_, hframe, hrest, hstatus, ?_⟩
  · rintro (⟨-, hlt⟩ | hbd)
    · exact absurd (Nat.lt_of_add_lt_add_left hlt) (Nat.not_lt.mpr hk)
    · exact not_inBd_ep0InBuf hw hk8 _ hbd
  · have hrem : t.ctx.remaining = s.ctx.remaining - BitVec.ofNat 16 (packetSize s.ctx.remaining) := by rw [ht]
    rw [hrem]
    exact ht

/-- Settles O31: one lemma per kind of the transfer (`execTrnEp0In_in`, `execTrnEp0In_empty`, `execTrnEp0In_out`,
`execTrnEp0In_none`). -/
theorem trnEp0InByKind : Obligations.TrnEp0InByKind := by
  intro pid zero s
  refine ⟨fun hw hok hk hpos => ?_, fun hok hk hr => execTrnEp0In_empty hk hr hok.2.2, fun hk => ?_, fun hk => execTrnEp0In_none hk,
    sameBytesExcept_ep0Out rfl rfl rfl fun _ => id⟩
  · obtain ⟨a, hd, hin⟩ := hok.1 hk hpos
    obtain ⟨t, ht, hsends, -⟩ := execTrnEp0In_in hw hk hd (hin.part (Nat.le_refl a) (Nat.add_le_add_left (Nat.min_le_left _ _) a))
    exact ⟨a, t, hd, ht, hsends⟩
  · rw [ite_not]
    exact execTrnEp0In_out hk

/-- OUT data of a transfer with a sink inside RAM, clear of the descriptors, goes there (41_ep0_control_engine.md R161). -/
theorem execTrnEp0Out_sink {s : State} {a : Nat} (hw : s.params.wf = true) (hk : s.ctx.kind = .ctlOut) (hd : s.ctx.data = .at a)
    (hn : s.bd.ep0Out.count.toNat ≤ 8) (hin : insideRegion s.params .ram a s.bd.ep0Out.count.toNat)
    (hc : clearOfBds s.params a s.bd.ep0Out.count.toNat) :
    ∃ m, execTrnEp0Out s = .next { awaitsOut { s with
            ctx := { s.ctx with data := .at (s.params.wrap (a + s.bd.ep0Out.count.toNat)), nextToggle := !s.ctx.nextToggle } } with
          ram := m } ∧
      (∀ k < s.bd.ep0Out.count.toNat, State.ramByte { s with ram := m } (a + k) = s.ramByte (s.params.ep0OutBuf + k)) ∧
      sameBytesExcept s { s with ram := m } (inRun a s.bd.ep0Out.count.toNat) := by
  obtain ⟨u, hcopy, hu, hbytes, hframe, -⟩ := copy_inside hw (insideRegion_ep0Out s.params hn) hin hc
  obtain ⟨m, rfl⟩ : ∃ m, u = { s with ram := m } := ⟨u.ram, hu⟩
  have hexec : execTrnEp0Out s = finishEp0 false { s with
      ctx := { s.ctx with data := .at (s.params.wrap (a + s.bd.ep0Out.count.toNat)), nextToggle := !s.ctx.nextToggle }
      ram := m } := by
    simp only [execTrnEp0Out, hk, copyToSink, hd, State.bdAt, BdFile.get, hcopy, andThen_next, flipToggle, Bool.xor_true,
      State.withCtx, Pointer.advance]
  exact ⟨m, hexec.trans (finishEp0_out hk), hbytes, hframe⟩

/-- Settles O32: one lemma per kind of the transfer (`execTrnEp0Out_in`, `execTrnEp0Out_none`, `execTrnEp0Out_empty`,
`execTrnEp0Out_sink`). -/
theorem trnEp0OutByKind : Obligations.TrnEp0OutByKind := by
  intro pid zero s
  refine ⟨fun hk => execTrnEp0Out_in hk, fun hk => execTrnEp0Out_none hk, fun hk hd hn => execTrnEp0Out_empty hk hd hn,
    fun a hw hk hd hn hin hc => ?_⟩
  obtain ⟨m, hexec, hbytes, hframe⟩ := execTrnEp0Out_sink hw hk hd hn hin hc
  refine ⟨_, hexec, fun k hlt => ?_, ?_, rfl⟩
  · rw [← hbytes k hlt]
    exact State.ramByte_congr (clearOfBds.not_inRegion hc hlt) rfl rfl
  · exact hframe.trans (sameBytesExcept_ep0 rfl rfl rfl fun _ => id) (fun _ => .inl) fun _ => .inr

end Sys2Proof.Machine
end

section
/-! PROOFS. The frame of memory over all events (41_ep0_control_engine.md R172). -/

namespace Sys2Proof.Machine

theorem storedBy_of_setup {i : Instr} {s : State} {a : Nat} (hi : i.mnemonic.isSetup = true)
    (h : requestStores s.params (s.requestOf i) a) : storedBy s i a := by
  have hall : inBd s.params .ep0Out a ∨ inBd s.params .ep0In a ∨ inRun s.params.ep0InBuf (packetOf s.params (s.requestOf i)) a ∨
      ((s.requestOf i).mnemonic = .setConfiguration ∧ a = s.params.addrConfig) := by
    simpa only [requestStores, ep0Stores, or_assoc] using h
  cases i with
  | busReset | trnEp0Out | trnEp0In | trnEp1 | trnOtherEp | busError | idle | activity | otherCause | reportWrite | reportChanged =>
    cases hi
  | _ => exact hall

/-- Every endpoint-0 completion arms EP0_OUT. -/
theorem storedBy_of_ep0Out {i : Instr} {s : State} (hi : i.mnemonic = .trnEp0In ∨ i.mnemonic = .trnEp0Out) {a : Nat}
    (h : inBd s.params .ep0Out a) : storedBy s i a := by
  rcases hi with hi | hi <;> simp only [storedBy, hi] <;> exact .inl h

/-- An IN completion of an IN transfer and an OUT completion of an OUT transfer arm both descriptors of endpoint 0. -/
theorem storedBy_of_ep0 {i : Instr} {s : State}
    (hi : (i.mnemonic = .trnEp0In ∧ s.ctx.kind = .ctlIn) ∨ (i.mnemonic = .trnEp0Out ∧ s.ctx.kind = .ctlOut)) {a : Nat}
    (h : inBd s.params .ep0Out a ∨ inBd s.params .ep0In a) : storedBy s i a := by
  rcases hi with ⟨hi, hk⟩ | ⟨hi, hk⟩ <;> simp only [storedBy, hi]
  · exact h.imp_right fun h => ⟨hk, .inl h⟩
  · exact h.imp_right fun h => ⟨hk, h⟩

/-- TRN_EP1 stores the report's packet and descriptor where a report is pending, else nothing (43_ep1_report_engine.md R224). -/
theorem bytes_of_trnEp1 {s t : State} (hw : s.params.wf = true) (h : execTrnEp1 s = .next t) :
    sameBytesExcept s t fun a => s.rpt.pending = true ∧ (inBd s.params .ep1In a ∨ inRun s.params.ep1InBuf 2 a) := by
  cases hp : s.rpt.pending with
  | false => cases (execTrnEp1_idle hp).symm.trans h; exact sameBytesExcept_of_eq rfl rfl rfl
  | true =>
    obtain ⟨u, hu, ⟨-, -, hb, -⟩, -⟩ := execTrnEp1_pending hw hp
    cases hu.symm.trans h
    exact hb.mono fun _ ha => ⟨rfl, ha.symm⟩

/-- REPORT_CHANGED stores the report's packet and descriptor where the block owns EP1_IN, else nothing (43_ep1_report_engine.md R221). -/
theorem bytes_of_reportChanged {s t : State} (hw : s.params.wf = true) (h : execReportChanged s = .next t) :
    sameBytesExcept s t fun a => s.bd.ep1In.own = .device ∧ (inBd s.params .ep1In a ∨ inRun s.params.ep1InBuf 2 a) := by
  cases ho : s.bd.ep1In.own with
  | sie => cases (execReportChanged_busy ho).symm.trans h; exact sameBytesExcept_of_eq rfl rfl rfl
  | device =>
    obtain ⟨u, hu, ⟨-, -, hb, -⟩, -⟩ := execReportChanged_free hw ho
    cases hu.symm.trans h
    exact hb.mono fun _ ha => ⟨rfl, ha.symm⟩

/-- Settles O51: a SETUP event stores what its request stores (`bytes_of_setup`); every other event ends in one of the ways of
`exec_shape`, and each names the bytes it changes. -/
theorem eventsStoreNowhereElse : Obligations.EventsStoreNowhereElse := by
  intro i s t hw hok h
  cases exec_shape hw hok h with
  | setup hi => exact (bytes_of_setup hw hi h).mono fun _ => storedBy_of_setup hi
  | inPacket hi _ _ _ hk o =>
    obtain ⟨-, -, hb, -⟩ := o
    refine hb.mono fun a ha => ?_
    simp only [storedBy, hi]
    rcases ha with ha | ha | ha
    · exact .inr ⟨hk, .inr ha⟩
    · exact .inr ⟨hk, .inl ha⟩
    · exact .inl ha
  | inEmpty hi _ hk o => subst o; exact sameBytesExcept_ep0 rfl rfl rfl fun _ => storedBy_of_ep0 (.inl ⟨hi, hk⟩)
  | outOut hi hk _ o => subst o; exact sameBytesExcept_ep0 rfl rfl rfl fun _ => storedBy_of_ep0 (.inr ⟨hi, hk⟩)
  | inOut hi _ o => subst o; exact sameBytesExcept_ep0Out rfl rfl rfl fun _ => storedBy_of_ep0Out (.inl hi)
  | outIn hi o => subst o; exact sameBytesExcept_ep0Out rfl rfl rfl fun _ => storedBy_of_ep0Out (.inr hi)
  | none hi _ o => subst o; exact sameBytesExcept_ep0Out rfl rfl rfl fun _ => storedBy_of_ep0Out hi
  | ep1Pend hi =>
    cases i with
    | trnEp1 => exact bytes_of_trnEp1 hw h
    | _ => cases hi
  | changedFree hi =>
    cases i with
    | reportChanged => exact bytes_of_reportChanged hw h
    | _ => cases hi
  | busReset hi =>
    cases i with
    | busReset low =>
      obtain ⟨u, hu, -, hb, -⟩ := busResetEffect low s hw
      cases hu.symm.trans h
      exact hb
    | _ => cases hi
  | write hi _ _ _ _ f =>
    refine f.mono fun a ha => ?_
    simpa only [storedBy, hi] using ha
  | ep1Idle _ o | busError _ o | idle _ o | activity _ o | other _ o | changedBusy _ o =>
    subst o
    exact sameBytesExcept_of_eq rfl rfl rfl

end Sys2Proof.Machine
end

section
/-! PROOFS. The endpoint-0 requests as whole SETUP events (42_ep0_requests.md R191 to R204). -/

namespace Sys2Proof.Machine

/-! ### GET_DESCRIPTOR -/

/-- Settles O23: LOOKUP finds each descriptor, and the SETUP event begins an IN context over it (`getDescriptor_found`). -/
theorem getDescriptorDelivers : Obligations.GetDescriptorDelivers := by
  intro s attr index x l hw
  obtain ⟨device, hdevice, hdeviceIn, -⟩ := execGetDescriptorDevice_next hw index l
  obtain ⟨config, hconfig, hconfigIn, -⟩ := execGetDescriptorConfiguration_next hw index l
  obtain ⟨report, hreport, hreportIn, -⟩ := execGetDescriptorReport_next hw index l
  exact ⟨⟨device, hdevice, hdeviceIn⟩, ⟨config, hconfig, hconfigIn⟩, ⟨report, hreport, hreportIn⟩⟩

/-- Settles O24: an index below 4 names a string of the repository (`lookup_string`); for the others LOOKUP answers no bytes from no
source, which arms an empty packet (`setupEvent_nothing`). -/
theorem stringDescriptors : Obligations.StringDescriptors := by
  intro s attr x l hw
  refine ⟨fun index => ?_, fun index hindex => ⟨?_, sameBytesExcept_ep0 rfl rfl rfl fun _ => id⟩⟩
  · obtain ⟨t, ht, hin, -⟩ := execGetDescriptorString_next hw index l
    exact ⟨t, ht, hin⟩
  · exact execGetDescriptorStringOutOfRange_next hindex l

/-- Settles O25: LOOKUP finds the HID part of the configuration descriptor under HID_DESC_GETTABLE, and nothing for any other unknown
type (`lookup_unknown`), which stalls (`getDescriptor_missing`). -/
theorem unknownDescriptorTypes : Obligations.UnknownDescriptorTypes := by
  intro s attr type index x l hw
  refine ⟨fun htype hgettable => ?_, fun h1 h2 h22 h3 hhid => ?_⟩
  · subst htype
    obtain ⟨t, ht, hin, -⟩ := execGetDescriptorUnknown_hid hw hgettable index l
    exact ⟨t, ht, hin⟩
  · have hmissing : ¬ (type = 0x21 ∧ s.params.hidDescGettable = true) := fun ⟨htype, hgettable⟩ =>
      hhid.elim (fun h => h htype) fun h => Bool.false_ne_true (h.symm.trans hgettable)
    exact execGetDescriptorUnknown_stalls h1 h2 h22 h3 hmissing index l

/-! ### GET_CONFIGURATION and GET_REPORT -/

/-- The first packet of an IN context holds the bytes of its source as they stand at the SETUP event (20_memory.md R74). -/
theorem beginsIn.packet {s t : State} {sp : Space} {base total : Nat} (h : beginsIn s t sp base total) {k : Nat}
    (hk : k < min total 8) : t.ramByte (s.params.ep0InBuf + k) = s.byteAt sp (base + k) := by
  obtain ⟨-, hpacket, -, -⟩ := h
  exact hpacket k hk

/-- Settles O27: the packet of each request holds the bytes of its source (`beginsIn.packet`), which are the configuration and the
report (`State.ramByte_config`, `State.ramByte_report`). -/
theorem configurationAndReportAreRead : Obligations.ConfigurationAndReportAreRead := by
  intro s attr v x l hw
  obtain ⟨config, hconfig, hconfigIn, -⟩ := execGetConfiguration_next hw
  obtain ⟨report, hreport, hreportIn, -⟩ := execGetReport_next hw
  obtain ⟨hreport0, hreport1⟩ := State.ramByte_report hw
  refine ⟨⟨config, hconfig, hconfigIn, ?_⟩, ⟨report, hreport, hreportIn, ?_, ?_⟩⟩
  · exact (hconfigIn.packet (k := 0) (by decide)).trans (State.ramByte_config hw)
  · exact (hreportIn.packet (k := 0) (by decide)).trans hreport0
  · exact (hreportIn.packet (k := 1) (by decide)).trans hreport1

/-! ### The requests that begin a zero-length OUT context -/

/-- SET_CONFIGURATION stores the configuration and arms the two descriptors of endpoint 0, and its packet has no bytes
(42_ep0_requests.md R197, R203). -/
theorem bytes_of_newConfiguration (s : State) (v : Byte) :
    sameBytesExcept s { beginsOut s with ram := s.ram.write s.params.addrConfig v }
      fun a => a = s.params.addrConfig ∨ inBd s.params .ep0Out a ∨ inBd s.params .ep0In a := by
  refine (bytes_of_setConfiguration s v).mono fun a ha => ?_
  rcases ha with (hout | hin | ⟨hle, hlt⟩) | hconfig
  · exact .inr (.inl hout)
  · exact .inr (.inr hin)
  · exact absurd hlt (Nat.not_lt.mpr hle)
  · exact .inl hconfig

/-- Settles O26: one lemma per request for its next state (`execSetAddress_next`, `execSetConfiguration_next`, `execSetIdle_next`). -/
theorem zeroLengthRequests : Obligations.ZeroLengthRequests := by
  intro s attr v x l hw
  refine ⟨execSetAddress_next v s, ⟨_, execSetConfiguration_next v s, ?_, rfl, bytes_of_newConfiguration s _⟩, execSetIdle_next s,
    sameBytesExcept_ep0 rfl rfl rfl fun _ => id⟩
  exact Memory.read_write_same s.ram s.params.addrConfig (newConfig v)

/-! ### The requests that stall, and those of a nonstandard type -/

/-- The status byte of a descriptor armed to stall (41_ep0_control_engine.md R169). -/
theorem statusByte_armed_stalled (d : BD) (count : BitVec 8) (addr : Nat) :
    (armed d count addr true false false).statusByte = 0x84 := by
  simp only [BD.statusByte, armed]
  decide

/-- Settles O28: each unsupported request raises ProtocolStall (`setupEvent_stall`), which arms both descriptors to stall. -/
theorem unsupportedRequestsStall : Obligations.UnsupportedRequestsStall := by
  intro s attr b v x l
  exact ⟨execUnsupportedStandard_next s, execUnsupportedClass_next s, statusByte_armed_stalled _ _ _, statusByte_armed_stalled _ _ _,
    sameBytesExcept_ep0 rfl rfl rfl fun _ => id⟩

/-- Under AS_STANDARD a request of a nonstandard type executes as the standard request of the same fields (42_ep0_requests.md R204). -/
theorem exec_nonstd_asStandard {s : State} (hpol : s.params.nonstdTypePolicy = .asStandard) (attr : ReqAttr) (c : BitVec 1) (b : Byte)
    (v x l : BitVec 16) :
    exec (.nonstdRequestType attr c b v x l) s = exec (decodeSp (spw attr 0 0 b v x l)) s := by
  have hrun := (exec_underPolicy (i := .nonstdRequestType attr c b v x l) rfl s).1
  rw [hpol, Instr.underPolicy, if_pos rfl] at hrun
  rw [decodeSp_spw, if_neg (by decide), hrun]

/-- Settles O29: one case per policy; AS_STANDARD never refuses, so that the event completes as every SETUP event does
(`execSetup_next`). -/
theorem nonstandardTypesFollowThePolicy : Obligations.NonstandardTypesFollowThePolicy := by
  intro s attr c b v x l hw
  have hexec : exec (.nonstdRequestType attr c b v x l) s = execNonstdRequestType attr b v x l s := rfl
  refine ⟨fun hpol => ?_, fun hpol => ?_, fun hpol => ⟨exec_nonstd_asStandard hpol attr c b v x l, ?_⟩⟩
  · rw [hexec, execNonstdRequestType, hpol]
  · rw [hexec, execNonstdRequestType, hpol]
    exact setupEvent_stall _ s
  · obtain ⟨t, ht, ho⟩ := execSetup_next (i := .nonstdRequestType attr c b v x l) hw rfl fun hrefuse => by
      rw [hpol] at hrefuse
      cases hrefuse
    obtain ⟨_, _, _, _, _, _, rfl⟩ := ho.frame
    exact ⟨_, ht, rfl, rfl⟩

end Sys2Proof.Machine
end

section
/-! PROOFS. The Endpoint-1 Report Engine (43_ep1_report_engine.md R220 to R225). -/

namespace Sys2Proof.Machine

/-! ### The three events -/

/-- Settles O35: both bytes lie in the report's own region (`execReportWrite_next`). -/
theorem reportWriteStoresBothBytes : Obligations.ReportWriteStoresBothBytes := by
  intro low b0 b1 s hw
  obtain ⟨t, hexec, ht, hreport, hframe, -⟩ := execReportWrite_next hw b0 b1
  exact ⟨t, hexec, hreport, hframe, ht⟩

/-- The descriptor a transmitted report is armed on (43_ep1_report_engine.md R223). -/
theorem transmits.ep1In {s t : State} {pending : Bool} {fifo : List TrnEntry} {ip : Causes} (h : transmits s t pending fifo ip) :
    t.bd.ep1In = armed s.bd.ep1In 2 s.params.ep1InBuf false true s.rpt.nextToggle := by
  obtain ⟨-, -, -, ht⟩ := h
  rw [ht]

/-- Settles O36: one lemma per owner of EP1_IN (`execReportChanged_free`, `execReportChanged_busy`). -/
theorem reportChangedTransmitsOrWaits : Obligations.ReportChangedTransmitsOrWaits := by
  intro low s hw
  refine ⟨fun hdevice => ?_, fun hsie => execReportChanged_busy hsie⟩
  obtain ⟨t, hexec, htransmits, -⟩ := execReportChanged_free hw hdevice
  exact ⟨t, hexec, htransmits, by rw [htransmits.ep1In]; exact statusByte_armed_toggled _ _ _ _⟩

/-- Settles O37: one lemma for a pending report, one for none (`execTrnEp1_pending`, `execTrnEp1_idle`). -/
theorem trnEp1TransmitsAPendingReport : Obligations.TrnEp1TransmitsAPendingReport := by
  intro dir pid zero s hw
  refine ⟨fun hpending => ?_, fun hidle => execTrnEp1_idle hidle⟩
  obtain ⟨t, hexec, htransmits, -⟩ := execTrnEp1_pending hw hpending
  exact ⟨t, hexec, htransmits⟩

/-! ### Changes while a packet is in flight -/

/-- The bytes of EP1_IN_BUF are not the report's (20_memory.md R67). -/
theorem not_inRun_report_ep1InBuf {p : Params} (hw : p.wf = true) {k : Nat} (hk : k < 8) :
    ¬ inRun p.addrReport 2 (p.ep1InBuf + k) := by
  have := Params.ram_layout hw
  unfold inRun
  omega

/-- What calls of the foreground do while the SIE owns EP1_IN: the bytes of the report become the last ones written, a report is pending
if one was or one of the calls is REPORT_CHANGED, and nothing else changes (43_ep1_report_engine.md R225). -/
theorem runCalls_inFlight {s : State} (hw : s.params.wf = true) (ho : s.bd.ep1In.own = .sie) (calls : List Call) :
    ∃ t, runCalls calls s = .next t ∧ t.report = lastWritten calls s.report ∧
      sameBytesExcept s t (inRun s.params.addrReport 2) ∧
      t = { s with
            rpt := { pending := s.rpt.pending || decide (Call.changed ∈ calls), nextToggle := s.rpt.nextToggle }
            ram := t.ram } := by
  induction calls generalizing s with
  | nil => exact ⟨s, rfl, rfl, fun _ _ => rfl, by simp⟩
  | cons call calls ih =>
    cases call with
    | write b0 b1 =>
      obtain ⟨u, hexec, hu, hreport, hframe, -⟩ := execReportWrite_next hw b0 b1
      obtain ⟨m, rfl⟩ : ∃ m, u = { s with ram := m } := ⟨u.ram, hu⟩
      obtain ⟨t, hrun, hlast, hrest, ht⟩ := ih (s := { s with ram := m }) hw ho
      refine ⟨t, ?_, ?_, hframe.trans hrest (fun _ => id) (fun _ => id), ?_⟩
      · exact (congrArg (andThen · (runCalls calls)) hexec).trans hrun
      · rw [hlast, hreport]; rfl
      · simpa using ht
    | changed =>
      obtain ⟨t, hrun, hlast, hrest, ht⟩ := ih (s := { s with rpt := { s.rpt with pending := true } }) hw ho
      refine ⟨t, ?_, hlast, hrest, ?_⟩
      · exact (congrArg (andThen · (runCalls calls)) (execReportChanged_busy ho)).trans hrun
      · simpa using ht

/-- The host can take the packet armed on EP1_IN (45_environment_agents.md R279). -/
theorem sieStep_inDone_ep1In {s : State} {addr : BitVec 7} (haddr : addr = s.dev.uaddr) (hsusp : s.suspended = false)
    (hown : s.bd.ep1In.own = .sie) (hstall : s.bd.ep1In.stall = false) (hroom : s.trnFifo.length < s.params.trnFifoDepth) :
    sieStep (.inDone addr .ep1In) s = .next (inDone .ep1In s) := by
  have hready : inReady .ep1In s = true :=
    inReady_iff.mpr ⟨.inr rfl, hown, hstall, nofun, decide_eq_false (Nat.not_le.mpr hroom)⟩
  rw [haddr]
  exact tokenStep_taken hsusp hready

/-- Once the host has taken the packet of EP1_IN, TRN_EP1 arms a pending report in its place (43_ep1_report_engine.md R224), and
the queue is as long as before the packet was taken. -/
theorem execTrnEp1_after_inDone {s : State} (hw : s.params.wf = true) (hp : s.rpt.pending = true) :
    ∃ t, execTrnEp1 (inDone .ep1In s) = .next t ∧
      (t.ramByte s.params.ep1InBuf, t.ramByte (s.params.ep1InBuf + 1)) = s.report ∧
      t.trnFifo.length = s.trnFifo.length ∧
      t = { s with
            rpt := { pending := false, nextToggle := !s.rpt.nextToggle }
            bd := { s.bd with ep1In := armed { s.bd.ep1In with pid := pidIn } 2 s.params.ep1InBuf false true s.rpt.nextToggle }
            trnFifo := t.trnFifo
            ip := t.ip
            wire := t.wire
            ram := t.ram } := by
  obtain ⟨t, hexec, ⟨hbyte0, hbyte1, -, ht⟩, -⟩ := execTrnEp1_pending (s := inDone .ep1In s) hw hp
  have hqueue : t.trnFifo = (s.trnFifo ++ [TrnEntry.mk 1 1]).tail := by rw [ht]; rfl
  refine ⟨t, hexec, Prod.ext hbyte0 hbyte1, by simp [hqueue], ?_⟩
  rw [ht]
  rfl

/-- Settles O38: the calls leave the packet in flight alone and a report pending (`runCalls_inFlight`); the first completion arms that
report and clears the flag (`execTrnEp1_after_inDone`), so that the second arms none (`execTrnEp1_idle`). -/
theorem changesInFlightCoalesce : Obligations.ChangesInFlightCoalesce := by
  intro s calls hw hdescriptors hown hsusp hroom hchanged
  obtain ⟨-, -, -, -, -, hstall, -⟩ := hdescriptors
  obtain ⟨a, hrun, hlast, hframe, ha⟩ := runCalls_inFlight hw hown calls
  have hpending : a.rpt.pending = true := by rw [ha]; simp [hchanged]
  obtain ⟨c, hrearm, hbytes, hqueue, hc⟩ := execTrnEp1_after_inDone (s := a) (by rw [ha]; exact hw) hpending
  have hbuffer (k : Nat) (hk : k < 8) : a.ramByte (s.params.ep1InBuf + k) = s.ramByte (s.params.ep1InBuf + k) :=
    hframe _ (not_inRun_report_ep1InBuf hw hk)
  have hbd : a.bd = s.bd := by rw [ha]
  have hfirst : sieStep (.inDone s.dev.uaddr .ep1In) a = .next (inDone .ep1In a) := by
    rw [ha]
    exact sieStep_inDone_ep1In rfl hsusp hown hstall hroom
  obtain ⟨hown', hcount, hdts, hidle⟩ : c.bd.ep1In.own = .sie ∧ c.bd.ep1In.count = 2 ∧ c.bd.ep1In.dts = s.rpt.nextToggle ∧
      c.rpt.pending = false := by
    rw [hc, ha]
    exact ⟨rfl, rfl, rfl, rfl⟩
  have hroom' : c.trnFifo.length < s.params.trnFifoDepth := by
    rw [hqueue, ha]
    exact hroom
  have hsecond : sieStep (.inDone s.dev.uaddr .ep1In) c = .next (inDone .ep1In c) := by
    rw [hc, ha]
    exact sieStep_inDone_ep1In rfl hsusp rfl rfl hroom'
  have hparams : a.params = s.params := by rw [ha]
  rw [hparams, hlast] at hbytes
  exact ⟨a, _, c, _, _, hrun, hbd, hbuffer, hfirst, hrearm, hown', hcount, hdts, hbytes, hsecond,
    execTrnEp1_idle (s := inDone .ep1In c) hidle, rfl, hidle⟩

end Sys2Proof.Machine
end

section
/-! PROOFS. The Descriptor Repository: the bytes of the descriptors, and where ROM holds them (44_descriptor_repository.md R242 to R250,
20_memory.md R67). -/

namespace Sys2Proof.Machine

/-! ### The bytes -/

/-- Settles O11: the fixed bytes stand in the two lists as they are written out, whatever the parameters. -/
theorem descriptorBytesTheSourceFixes : Obligations.DescriptorBytesTheSourceFixes := fun _ =>
  ⟨rfl, rfl, rfl, rfl, rfl, rfl, rfl, rfl, rfl⟩

/-! ### The entries of ROM -/

/-- The run of addresses an entry of ROM takes up (20_memory.md R67). -/
def entryRegion (e : Nat × List Byte) : Region := ⟨e.1, e.2.length⟩

/-- The entries of ROM fill its regions (20_memory.md R67). -/
theorem map_entryRegion_romEntries {p : Params} (hw : p.wf = true) : p.romEntries.map entryRegion = p.romRegions := by
  simp only [Params.romEntries, Params.romRegions, List.map_cons, List.map_nil, entryRegion, Params.rpt_length hw]
  rfl

theorem entryRegion_mem {p : Params} (hw : p.wf = true) {e : Nat × List Byte} (he : e ∈ p.romEntries) :
    entryRegion e ∈ p.romRegions :=
  map_entryRegion_romEntries hw ▸ List.mem_map_of_mem he

/-- No other entry holds the address of a byte of an entry, so ROM reads as that byte (20_memory.md R67). -/
theorem romByte_of_mem {p : Params} (hw : p.wf = true) {e : Nat × List Byte} (he : e ∈ p.romEntries) {k : Nat}
    (hk : k < e.2.length) : p.romByte (e.1 + k) = e.2.getD k 0 := by
  obtain ⟨before, after, hsplit⟩ := List.append_of_mem he
  have hdisjoint : p.romEntries.Pairwise fun d f => (entryRegion d).disjoint (entryRegion f) = true := by
    have h := regionsOf_disjoint hw .rom
    rw [regionsOf, ← map_entryRegion_romEntries hw] at h
    exact List.pairwise_map.mp h
  rw [hsplit, List.pairwise_append] at hdisjoint
  obtain ⟨-, -, hbefore⟩ := hdisjoint
  have hfind : (p.romEntries.find? fun d => decide (d.1 ≤ e.1 + k ∧ e.1 + k < d.1 + d.2.length)) = some e := by
    refine List.find?_eq_some_iff_append.mpr ⟨decide_eq_true (by omega), before, after, hsplit, fun d hd => ?_⟩
    have hapart : d.1 + d.2.length ≤ e.1 ∨ e.1 + e.2.length ≤ d.1 := of_decide_eq_true (hbefore d hd e List.mem_cons_self)
    simp only [Bool.not_eq_true', decide_eq_false_iff_not]
    omega
  simp only [Params.romByte, hfind, Nat.add_sub_cancel_left]

theorem device_mem_romEntries (p : Params) : (p.romDevice, p.deviceDescriptor) ∈ p.romEntries := .head _

theorem config_mem_romEntries (p : Params) : (p.romConfig, p.configDescriptor) ∈ p.romEntries := .tail _ (.head _)

theorem report_mem_romEntries (p : Params) : (p.romReport, p.rpt) ∈ p.romEntries := .tail _ (.tail _ (.head _))

theorem string_mem_romEntries (p : Params) (i : BitVec 2) :
    ((p.string i).addr, (p.string i).descriptor) ∈ p.romEntries := by
  unfold Params.string Params.romEntries
  split_ifs <;> simp

/-- Settles O10: the lengths are those of the lists, and an entry's bytes stand at their addresses since the entries are disjoint
(`romByte_of_mem`). -/
theorem romHoldsTheDescriptors : Obligations.RomHoldsTheDescriptors := by
  intro p hw
  have hreport := Params.rpt_length hw
  exact ⟨rfl, rfl, hreport, fun _ => ⟨rfl, rfl, rfl, fun _ => rfl⟩,
    fun _ => romByte_of_mem hw (device_mem_romEntries p),
    fun _ => romByte_of_mem hw (config_mem_romEntries p),
    fun _ hk => romByte_of_mem hw (report_mem_romEntries p) (hreport.symm ▸ hk),
    fun i _ => romByte_of_mem hw (string_mem_romEntries p i)⟩

end Sys2Proof.Machine
end

section
/-! SUPPORT. Packets of an IN transfer over ROM, one after the other: what the SIE sends, and what the completion arms next
(41_ep0_control_engine.md R162, R165; 45_environment_agents.md R279). -/

namespace Sys2Proof.Machine

/-! ### Runs of bytes in ROM -/

/-- The bytes stand in ROM from an address on, inside one region. -/
def romHolds (p : Params) (a : Nat) (bytes : List Byte) : Prop :=
  insideRegion p .rom a bytes.length ∧ ∀ k, k < bytes.length → p.romByte (a + k) = bytes.getD k 0

theorem romHolds_of_mem {p : Params} (hw : p.wf = true) {a : Nat} {bytes : List Byte} (h : (a, bytes) ∈ p.romEntries) :
    romHolds p a bytes :=
  ⟨⟨_, entryRegion_mem hw h, Nat.le_refl _, Nat.le_refl _⟩, fun _ hk => romByte_of_mem hw h hk⟩

theorem romHolds.take {p : Params} {a : Nat} {bytes : List Byte} (h : romHolds p a bytes) (n : Nat) :
    romHolds p a (bytes.take n) := by
  obtain ⟨hin, hbyte⟩ := h
  have hlen : (bytes.take n).length ≤ bytes.length := List.length_take_le' n bytes
  refine ⟨hin.part (Nat.le_refl a) (by omega), fun k hk => ?_⟩
  rw [hbyte k (by omega), List.getD_eq_getElem _ _ hk, List.getD_eq_getElem _ _ (by omega), List.getElem_take]

theorem romHolds.drop {p : Params} {a : Nat} {bytes : List Byte} (h : romHolds p a bytes) {n : Nat} (hn : n ≤ bytes.length) :
    romHolds p (a + n) (bytes.drop n) := by
  obtain ⟨hin, hbyte⟩ := h
  rw [romHolds, List.length_drop]
  refine ⟨hin.part (by omega) (by omega), fun k hk => ?_⟩
  rw [Nat.add_assoc, hbyte (n + k) (by omega), List.getD_eq_getElem?_getD, List.getD_eq_getElem?_getD, List.getElem?_drop]

/-! ### A packet on offer -/

/-- Endpoint 0 offers the first packet of `bytes`, which are what an IN transfer over ROM has still to deliver, with toggle `dts`: the
packet is armed and the host may take it (45_environment_agents.md R279), and the context holds the bytes after it (10_state.md R26). -/
structure offersBytes (s : State) (bytes : List Byte) (dts : Bool) : Prop where
  wf : s.params.wf = true
  awake : s.suspended = false
  pktdis : s.pktdis = false
  room : s.trnFifo.length < s.params.trnFifoDepth
  short : bytes.length < 2 ^ 16
  descriptor : s.bd.ep0In = armed s.bd.ep0In (BitVec.ofNat 8 (min bytes.length 8)) s.params.ep0InBuf false true dts
  packet : ∀ k, k < min bytes.length 8 → s.ramByte (s.params.ep0InBuf + k) = bytes.getD k 0
  context : ∃ a, a < 2 ^ s.params.ptrW ∧
    s.ctx = { kind := .ctlIn, mclass := .rom, data := .at a, remaining := BitVec.ofNat 16 (bytes.drop 8).length,
              nextToggle := dts } ∧
    (bytes.drop 8 ≠ [] → romHolds s.params a (bytes.drop 8))

/-- Where an event sends the first packet of bytes of ROM and leaves room in the queue, the packet is on offer
(41_ep0_control_engine.md R165). -/
theorem offersBytes_of_sendsPacket {s t : State} {a : Nat} {bytes : List Byte} {dts : Bool} (hw : s.params.wf = true)
    (hawake : s.suspended = false) (hroom : s.trnFifo.tail.length < s.params.trnFifoDepth) (hshort : bytes.length < 2 ^ 16)
    (hrom : romHolds s.params a bytes)
    (h : sendsPacket s t false .rom a (min bytes.length 8) (bytes.length - min bytes.length 8) dts) : offersBytes t bytes dts := by
  obtain ⟨hctx, hpacket, -, ht⟩ := h
  have hp : t.params = s.params := by rw [ht]
  obtain ⟨hin, hbyte⟩ := hrom
  have hleft : bytes.length - min bytes.length 8 = (bytes.drop 8).length := by rw [List.length_drop]; omega
  rw [hleft] at hctx
  refine ⟨hp ▸ hw, by rw [ht]; exact hawake, by rw [ht], by rw [ht]; exact hroom, hshort, by rw [ht]; rfl, fun k hk => ?_,
    _, ?_, hctx, fun hne => ?_⟩
  · rw [hp, hpacket k hk]
    exact hbyte k (by omega)
  · rw [hp]
    exact Nat.mod_lt _ (Nat.two_pow_pos _)
  · have hlong : 8 < bytes.length := by simpa using hne
    have hfit := hin.fits hw
    rw [hp, Nat.min_eq_right hlong.le, Params.wrap_eq (by omega)]
    exact romHolds.drop ⟨hin, hbyte⟩ hlong.le

/-- An IN completion with bytes of ROM left offers them, with the other toggle (41_ep0_control_engine.md R162, R165). -/
theorem execTrnEp0In_offers_more {s : State} {a : Nat} {bytes : List Byte} {dts : Bool} (hw : s.params.wf = true)
    (hawake : s.suspended = false) (hpktdis : s.pktdis = false) (hroom : s.trnFifo.tail.length < s.params.trnFifoDepth)
    (hshort : bytes.length < 2 ^ 16) (hrom : romHolds s.params a bytes)
    (hctx : s.ctx = { kind := .ctlIn, mclass := .rom, data := .at a, remaining := BitVec.ofNat 16 bytes.length,
                      nextToggle := dts }) :
    ∃ t, execTrnEp0In s = .next t ∧ offersBytes t bytes (!dts) ∧ t.wire = s.wire := by
  have hrem : s.ctx.remaining.toNat = bytes.length := by rw [hctx, BitVec.toNat_ofNat, Nat.mod_eq_of_lt hshort]
  have hsize : packetSize s.ctx.remaining = min bytes.length 8 := by rw [packetSize, hrem]; rfl
  have hin : insideRegion s.params s.ctx.mclass a (packetSize s.ctx.remaining) := by
    rw [hsize, hctx]
    exact hrom.1.part (Nat.le_refl a) (by omega)
  obtain ⟨t, hexec, hsends, -⟩ := execTrnEp0In_in hw (by rw [hctx]) (by rw [hctx]) hin
  rw [hsize, hrem, hctx, hpktdis] at hsends
  refine ⟨t, hexec, offersBytes_of_sendsPacket hw hawake hroom hshort hrom hsends, ?_⟩
  obtain ⟨-, -, -, ht⟩ := hsends
  rw [ht]

/-- An IN completion with nothing left offers an empty packet, with the other toggle (41_ep0_control_engine.md R162, R165). -/
theorem execTrnEp0In_offers_empty {s : State} {a : Nat} {dts : Bool} (hw : s.params.wf = true) (hawake : s.suspended = false)
    (hpktdis : s.pktdis = false) (hroom : s.trnFifo.tail.length < s.params.trnFifoDepth) (ha : a < 2 ^ s.params.ptrW)
    (hctx : s.ctx = { kind := .ctlIn, mclass := .rom, data := .at a, remaining := 0, nextToggle := dts }) :
    ∃ t, execTrnEp0In s = .next t ∧ offersBytes t [] (!dts) ∧ t.wire = s.wire := by
  have hptr : ∀ b, s.ctx.data = .at b → b < 2 ^ s.params.ptrW := by
    rw [hctx]
    rintro _ ⟨⟩
    exact ha
  refine ⟨_, execTrnEp0In_empty (by rw [hctx]) (by rw [hctx]) hptr, ?_, rfl⟩
  rw [hctx]
  exact ⟨hw, hawake, hpktdis, hroom, by decide, rfl, fun k hk => absurd hk (Nat.not_lt_zero k), a, ha, rfl,
    fun hne => absurd rfl hne⟩

section
variable {s : State} {bytes : List Byte} {dts : Bool}

/-- The count the block armed is the packet's length (10_state.md R38). -/
theorem count_offered (h : offersBytes s bytes dts) : (s.bdAt .ep0In).count.toNat = min bytes.length 8 := by
  rw [State.bdAt, BdFile.get, h.descriptor, armed, BitVec.toNat_ofNat]
  omega

/-- The packet on the wire holds the first eight bytes, or all of them (45_environment_agents.md R279). -/
theorem packetBytes_offered (h : offersBytes s bytes dts) : packetBytes .ep0In s = bytes.take 8 := by
  have hcount := count_offered h
  rw [packetBytes_eq h.wf (by omega) (.inl rfl), hcount]
  refine List.ext_getElem (by simp [Nat.min_comm]) fun k hk _ => ?_
  rw [List.length_map, List.length_range] at hk
  rw [List.getElem_map, List.getElem_range, List.getElem_take, State.bufferOf, h.packet k hk,
    List.getD_eq_getElem _ _ (by omega)]

/-- The host can take the packet on offer. -/
theorem sieStep_inDone_offered (h : offersBytes s bytes dts) :
    sieStep (.inDone s.dev.uaddr .ep0In) s = .next (inDone .ep0In s) := by
  have hown : s.bd.ep0In.own = .sie := by rw [h.descriptor]; rfl
  have hstall : s.bd.ep0In.stall = false := by rw [h.descriptor]; rfl
  have hready : inReady .ep0In s = true :=
    inReady_iff.mpr ⟨.inl rfl, hown, hstall, fun _ => h.pktdis, decide_eq_false (Nat.not_le.mpr h.room)⟩
  exact tokenStep_taken h.awake hready

/-- The record of the packet on offer (45_environment_agents.md R286). -/
theorem wire_inDone_offered (h : offersBytes s bytes dts) :
    (inDone .ep0In s).wire = s.wire ++ [.inData 0 dts (bytes.take 8)] := by
  have hdts : s.bd.ep0In.dts = dts := by rw [h.descriptor]; rfl
  rw [← packetBytes_offered h, ← hdts]
  rfl

/-- Once the host has taken a packet, the completion offers the bytes after it with the other toggle (41_ep0_control_engine.md R162). -/
theorem execTrnEp0In_after_inDone (h : offersBytes s bytes dts) :
    ∃ t, execTrnEp0In (inDone .ep0In s) = .next t ∧ offersBytes t (bytes.drop 8) (!dts) ∧ t.wire = (inDone .ep0In s).wire := by
  obtain ⟨a, ha, hctx, hrom⟩ := h.context
  have hshort : (bytes.drop 8).length < 2 ^ 16 := by have := h.short; rw [List.length_drop]; omega
  have hroom : (inDone .ep0In s).trnFifo.tail.length < s.params.trnFifoDepth := by
    have hqueue : (inDone .ep0In s).trnFifo = s.trnFifo ++ [⟨0, 1⟩] := rfl
    simpa [hqueue] using h.room
  by_cases hempty : bytes.drop 8 = []
  · rw [hempty] at hctx ⊢
    exact execTrnEp0In_offers_empty (s := inDone .ep0In s) h.wf h.awake h.pktdis hroom ha hctx
  · exact execTrnEp0In_offers_more (s := inDone .ep0In s) h.wf h.awake h.pktdis hroom hshort (hrom hempty) hctx

/-- The host takes the packet on offer, and the next one is on offer. -/
theorem readPacket_offered (h : offersBytes s bytes dts) :
    ∃ t, readPacket s = .next t ∧ offersBytes t (bytes.drop 8) (!dts) ∧ t.wire = s.wire ++ [.inData 0 dts (bytes.take 8)] := by
  obtain ⟨t, hexec, hoffers, hwire⟩ := execTrnEp0In_after_inDone h
  refine ⟨t, ?_, hoffers, hwire.trans (wire_inDone_offered h)⟩
  rw [readPacket, sieStep_inDone_offered h, andThen_next]
  exact hexec

end

end Sys2Proof.Machine
end

section
/-! PROOFS. A control read of a descriptor, from the SETUP event to the short packet (44_descriptor_repository.md R241,
45_environment_agents.md R286). -/

namespace Sys2Proof.Machine

/-! ### The records of the packets -/

/-- The first `n` packets of bytes on endpoint 0, of eight bytes each as far as they reach, with toggles in turn. -/
def inPackets : Nat → Bool → List Byte → List WireRecord
  | 0, _, _ => []
  | n + 1, dts, bytes => .inData 0 dts (bytes.take 8) :: inPackets n (!dts) (bytes.drop 8)

@[simp] theorem length_inPackets (n : Nat) (dts : Bool) (bytes : List Byte) : (inPackets n dts bytes).length = n := by
  induction n generalizing dts bytes with
  | zero => rfl
  | succ n ih => exact congrArg Nat.succ (ih _ _)

theorem returnedBytes_inPackets (n : Nat) (dts : Bool) (bytes : List Byte) :
    returnedBytes (inPackets n dts bytes) = bytes.take (8 * n) := by
  induction n generalizing dts bytes with
  | zero => rfl
  | succ n ih =>
    rw [inPackets, returnedBytes, if_pos rfl, ih, ← List.take_add, Nat.mul_succ, Nat.add_comm 8]

theorem getElem?_inPackets {n k : Nat} (hk : k < n) (dts : Bool) (bytes : List Byte) :
    (inPackets n dts bytes)[k]? = some (.inData 0 (dts ^^ decide (k % 2 = 1)) ((bytes.drop (8 * k)).take 8)) := by
  induction n generalizing k dts bytes with
  | zero => omega
  | succ n ih =>
    cases k with
    | zero => simp [inPackets]
    | succ k =>
      have htoggle : (!dts ^^ decide (k % 2 = 1)) = (dts ^^ decide ((k + 1) % 2 = 1)) := by
        rcases Nat.mod_two_eq_zero_or_one k with h | h <;> simp [h, Nat.succ_mod_two_eq_one_iff]
      rw [inPackets, List.getElem?_cons_succ, ih (by omega), htoggle, List.drop_drop, Nat.mul_succ, Nat.add_comm 8]

/-- A host that takes `n` packets finds them on the wire. -/
theorem readPackets_offered {s : State} {bytes : List Byte} {dts : Bool} (h : offersBytes s bytes dts) (n : Nat) :
    ∃ t, readPackets n s = .next t ∧ t.wire = s.wire ++ inPackets n dts bytes := by
  induction n generalizing s bytes dts with
  | zero => exact ⟨s, rfl, (List.append_nil _).symm⟩
  | succ n ih =>
    obtain ⟨t, hread, hoffers, hwire⟩ := readPacket_offered h
    obtain ⟨u, hreads, hrest⟩ := ih hoffers
    refine ⟨u, ?_, ?_⟩
    · rw [readPackets, hread, andThen_next, hreads]
    · rw [hrest, hwire, List.append_assoc]
      rfl

/-! ### The control read -/

/-- A request that begins an IN context over an entry of ROM, clamped to `wLength`, returns the bytes of that entry. -/
theorem controlReadReturns_of_beginsIn {s : State} {i : Instr} {a : Nat} {desc : List Byte} {l : BitVec 16}
    (hw : s.params.wf = true) (hawake : s.suspended = false) (hqueue : s.trnFifo.length ≤ s.params.trnFifoDepth)
    (hmem : (a, desc) ∈ s.params.romEntries)
    (h : ∃ t, exec i s = .next t ∧ beginsIn s t .rom a (min desc.length l.toNat)) :
    controlReadReturns s i l.toNat desc := by
  obtain ⟨t, hexec, hbegins⟩ := h
  have hlen : (desc.take l.toNat).length = min desc.length l.toNat := by rw [List.length_take, Nat.min_comm]
  have hroom : s.trnFifo.tail.length < s.params.trnFifoDepth := by
    have := Params.depth_pos hw
    rw [List.length_tail]
    omega
  have hwire : t.wire = s.wire := by
    obtain ⟨-, -, -, ht⟩ := hbegins
    rw [ht]
  rw [beginsIn, ← hlen] at hbegins
  have hoffers : offersBytes t (desc.take l.toNat) true :=
    offersBytes_of_sendsPacket hw hawake hroom (by have := l.isLt; omega) ((romHolds_of_mem hw hmem).take _) hbegins
  obtain ⟨u, hread, hlog⟩ := readPackets_offered hoffers (min desc.length l.toNat / 8 + 1)
  refine ⟨t, u, _, hexec, hread, hwire ▸ hlog, ?_, length_inPackets _ _ _, fun k hk => ?_⟩
  · rw [returnedBytes_inPackets]
    exact List.take_of_length_le (by omega)
  · rw [length_inPackets] at hk
    have htoggle : (true ^^ decide (k % 2 = 1)) = decide (k % 2 = 0) := by
      rcases Nat.mod_two_eq_zero_or_one k with h | h <;> simp [h]
    rw [getElem?_inPackets hk, htoggle, List.extract_eq_take_drop, Nat.add_sub_cancel_left]

/-- Settles O53: each request begins an IN context over its entry of ROM (`getDescriptorDelivers`, `stringDescriptors`), and the packets
follow one another to the short one (`readPackets_offered`). -/
theorem controlReadsReturnTheDescriptor : Obligations.ControlReadsReturnTheDescriptor := by
  intro s attr x l hw hawake hqueue
  obtain ⟨hstring, -⟩ := stringDescriptors s attr x l hw
  refine ⟨fun index => ?_, fun index => ?_, fun index => ?_, fun index => ?_⟩
  · obtain ⟨hdevice, -, -⟩ := getDescriptorDelivers s attr index x l hw
    exact controlReadReturns_of_beginsIn hw hawake hqueue (device_mem_romEntries _) hdevice
  · obtain ⟨-, hconfig, -⟩ := getDescriptorDelivers s attr index x l hw
    exact controlReadReturns_of_beginsIn hw hawake hqueue (config_mem_romEntries _) hconfig
  · obtain ⟨-, -, hreport⟩ := getDescriptorDelivers s attr index x l hw
    exact controlReadReturns_of_beginsIn hw hawake hqueue (report_mem_romEntries _) ((Params.rpt_length hw).symm ▸ hreport)
  · exact controlReadReturns_of_beginsIn hw hawake hqueue (string_mem_romEntries _ index) (hstring index)

end Sys2Proof.Machine
end

section
/-! SUPPORT. When a token is taken: the address and suspension, the guards of the SIE's steps and when they are false
(45_environment_agents.md R273, R277 to R283). -/

namespace Sys2Proof.Machine

/-! ### Tokens the SIE does not take -/

/-- A token to another address changes nothing (45_environment_agents.md R273). -/
theorem tokenStep_elsewhere {addr : BitVec 7} {ready : State → Bool} {effect : State → State} {s : State} (hs : s.suspended = false)
    (ha : addr ≠ s.dev.uaddr) : tokenStep addr ready effect s = .next s := by
  simp [tokenStep, hs, ha]

/-- No token step is enabled while the device is suspended (45_environment_agents.md R283). -/
theorem tokenStep_suspended {addr : BitVec 7} {ready : State → Bool} {effect : State → State} {s : State} (hs : s.suspended = true) :
    tokenStep addr ready effect s = .refused .sieGuardFalse := by
  simp [tokenStep, hs]

/-- The five steps that carry a token are token steps, each with its own guard and effect. -/
theorem sieStep_eq_tokenStep {addr : BitVec 7} {packet : Spw} {toggle : Bool} {bytes : List Byte} {b : BdIx} {a : SieStep}
    (ha : a ∈ [.setupToken addr packet, .outData addr toggle bytes, .inDone addr b, .nak addr b, .stallHandshake addr b]) :
    ∃ ready effect, sieStep a = tokenStep addr ready effect := by
  simp only [List.mem_cons, List.not_mem_nil, or_false] at ha
  rcases ha with rfl | rfl | rfl | rfl | rfl <;> exact ⟨_, _, rfl⟩

/-! ### The guards, and when they are false -/

theorem trnFull_iff {s : State} : s.trnFull = true ↔ s.params.trnFifoDepth ≤ s.trnFifo.length := decide_eq_true_iff

theorem trnFull_eq_false_iff {s : State} : s.trnFull = false ↔ s.trnFifo.length < s.params.trnFifoDepth :=
  decide_eq_false_iff_not.trans Nat.not_le

theorem Owner.ne_sie_iff {o : Owner} : o ≠ .sie ↔ o = .device := by cases o <;> decide

theorem Owner.ne_device_iff {o : Owner} : o ≠ .device ↔ o = .sie := by cases o <;> decide

theorem BdIx.endp_eq_zero_iff {b : BdIx} : b.endp = 0 ↔ b = .ep0Out ∨ b = .ep0In := by cases b <;> decide

theorem BdIx.endp_ne_zero_iff {b : BdIx} : b.endp ≠ 0 ↔ b = .ep1Out ∨ b = .ep1In := by cases b <;> decide

theorem setupReady_eq_false_iff {s : State} : setupReady s = false ↔
    (s.bdAt .ep0Out).own = .device ∨ s.pktdis = true ∨ s.params.trnFifoDepth ≤ s.trnFifo.length := by
  simp only [setupReady, Bool.and_eq_false_iff, decide_eq_false_iff_not, Bool.not_eq_false', ← ne_eq, Owner.ne_sie_iff, trnFull_iff,
    or_assoc]

theorem outReady_eq_false_iff {bytes : List Byte} {s : State} : outReady bytes s = false ↔
    (s.bdAt .ep0Out).own = .device ∨ (s.bdAt .ep0Out).stall = true ∨ s.pktdis = true ∨
      s.params.trnFifoDepth ≤ s.trnFifo.length ∨ (s.bdAt .ep0Out).count.toNat < bytes.length := by
  simp only [outReady, Bool.and_eq_false_iff, decide_eq_false_iff_not, Bool.not_eq_false', ← ne_eq, Owner.ne_sie_iff, trnFull_iff,
    Nat.not_le, or_assoc]

theorem inReady_eq_false_iff {b : BdIx} {s : State} : inReady b s = false ↔
    (b = .ep0Out ∨ b = .ep1Out) ∨ (s.bdAt b).own = .device ∨ (s.bdAt b).stall = true ∨ (b = .ep0In ∧ s.pktdis = true) ∨
      s.params.trnFifoDepth ≤ s.trnFifo.length := by
  have hdir : (decide (b = .ep0In) || decide (b = .ep1In)) = false ↔ b = .ep0Out ∨ b = .ep1Out := by cases b <;> decide
  simp only [inReady, Bool.and_eq_false_iff, hdir, decide_eq_false_iff_not, Bool.not_eq_false', ← ne_eq, Owner.ne_sie_iff,
    Bool.and_eq_true, decide_eq_true_eq, trnFull_iff, or_assoc]

theorem nakReady_iff {b : BdIx} {s : State} : nakReady b s = true ↔
    (s.bdAt b).own = .device ∨ ((b = .ep0Out ∨ b = .ep0In) ∧ s.pktdis = true) ∨ s.params.trnFifoDepth ≤ s.trnFifo.length := by
  simp only [nakReady, Bool.or_eq_true, Bool.and_eq_true, decide_eq_true_eq, BdIx.endp_eq_zero_iff, trnFull_iff, or_assoc]

theorem nakReady_eq_false_iff {b : BdIx} {s : State} : nakReady b s = false ↔
    (s.bdAt b).own = .sie ∧ ((b = .ep1Out ∨ b = .ep1In) ∨ s.pktdis = false) ∧ s.trnFifo.length < s.params.trnFifoDepth := by
  simp only [nakReady, Bool.or_eq_false_iff, Bool.and_eq_false_iff, decide_eq_false_iff_not, ← ne_eq, Owner.ne_device_iff,
    BdIx.endp_ne_zero_iff, trnFull_eq_false_iff, and_assoc]

theorem stallReady_eq_false_iff {b : BdIx} {s : State} : stallReady b s = false ↔
    (s.bdAt b).own = .device ∨ (s.bdAt b).stall = false ∨ s.pktdis = true := by
  simp only [stallReady, Bool.and_eq_false_iff, decide_eq_false_iff_not, Bool.not_eq_false', ← ne_eq, Owner.ne_sie_iff, or_assoc]

end Sys2Proof.Machine
end

section
/-! PROOFS. The steps of the SIE, acting for the host (45_environment_agents.md R273 to R286, D29). -/

namespace Sys2Proof.Machine

/-! ### Tokens the SIE does not take -/

/-- Settles O44: each of the five is a token step (`sieStep_eq_tokenStep`). -/
theorem tokensTheSieDoesNotTake : Obligations.TokensTheSieDoesNotTake := by
  intro s addr packet toggle bytes b a ha
  obtain ⟨ready, effect, hstep⟩ := sieStep_eq_tokenStep ha
  rw [hstep]
  exact ⟨tokenStep_elsewhere, tokenStep_suspended⟩

/-! ### The bus-level causes -/

/-- A reset by the host under SIE_RESET_FLUSH (45_environment_agents.md R276, D43). -/
theorem hostBusReset_flush {s : State} (h : s.params.sieResetFlush = true) : hostBusReset s = { s with
    ip := { s.ip with reset := true, actv := s.ip.actv || s.suspended, trn := false }
    pktdis := false
    trnFifo := []
    wire := s.wire ++ [.reset] } := by
  simp only [hostBusReset, State.withIp_params, h, if_true]
  rfl

/-- A reset by the host without SIE_RESET_FLUSH (45_environment_agents.md R276, D43). -/
theorem hostBusReset_keep {s : State} (h : s.params.sieResetFlush = false) : hostBusReset s = { s with
    ip := { s.ip with reset := true, actv := s.ip.actv || s.suspended }
    wire := s.wire ++ [.reset] } := by
  simp only [hostBusReset, State.withIp_params, h, Bool.false_eq_true, if_false]
  rfl

/-- Settles O43: the reset by SIE_RESET_FLUSH (`hostBusReset_flush`, `hostBusReset_keep`), and the other causes by their guards. -/
theorem busLevelSteps : Obligations.BusLevelSteps := by
  refine fun s => ⟨fun h => congrArg Host.Outcome.next (hostBusReset_flush h),
    fun h => congrArg Host.Outcome.next (hostBusReset_keep h), fun e he => if_neg he, rfl, fun hawake => ?_,
    fun hsuspended => ⟨if_pos hsuspended, if_pos hsuspended⟩, rfl⟩
  have hs : ¬ s.suspended = true := Bool.eq_false_iff.mp hawake
  exact ⟨if_neg hs, if_neg hs⟩

/-! ### NAK and STALL -/

/-- Settles O42: NAK by its guard (`nakReady_iff`, `nakReady_eq_false_iff`), STALL by `sieStep_stallHandshake` and its guard's negation
(`stallReady_eq_false_iff`). -/
theorem nakAndStallSteps : Obligations.NakAndStallSteps := by
  intro s b hawake
  refine ⟨fun hready => tokenStep_taken hawake (nakReady_iff.mpr hready),
    fun hown hep hroom => tokenStep_refused hawake (nakReady_eq_false_iff.mpr ⟨hown, hep, hroom⟩),
    fun hown hstall hpktdis => sieStep_stallHandshake hawake hpktdis hown hstall, fun hready => ?_⟩
  exact tokenStep_refused (effect := fun t => wireWrite (.stall b) (t.withIp { t.ip with other := true })) hawake
    (stallReady_eq_false_iff.mpr hready)

/-! ### Packets the host sends -/

/-- What stands in RAM once a packet has been stored in EP0_OUT_BUF and EP0_OUT written (45_environment_agents.md R277, R278). -/
theorem bytes_of_received {s t : State} {v : List Byte} {d : BD} (hw : s.params.wf = true) (hv : v.length ≤ 8)
    (hp : t.params = s.params) (hr : t.ram = (s.pokeBytes s.params.ep0OutBuf v).ram) (hb : t.bd = { s.bd with ep0Out := d }) :
    (∀ k, k < v.length → t.ramByte (s.params.ep0OutBuf + k) = v.getD k 0) ∧
    sameBytesExcept s t fun a => inRun s.params.ep0OutBuf v.length a ∨ inBd s.params .ep0Out a := by
  obtain ⟨hu, hbytes, hframe⟩ := pokeBytes_ep0Out hw hv
  generalize s.pokeBytes s.params.ep0OutBuf v = u at hu hbytes hframe hr
  have hup : u.params = s.params := by rw [hu]
  have hub : u.bd = s.bd := by rw [hu]
  have htp : t.params = u.params := hp.trans hup.symm
  have hdescriptor : sameBytesExcept u t (inBd u.params .ep0Out) := sameBytesExcept_ep0Out htp hr (hub ▸ hb) fun _ => id
  refine ⟨fun k hk => ?_, hframe.trans hdescriptor (fun _ => .inl) fun _ ha => .inr (hup ▸ ha)⟩
  rw [← hbytes k hk]
  exact State.ramByte_congr (hup ▸ (clearOfBds_ep0Out hw hv).not_inRegion hk) htp hr

/-- The SETUP word in EP0_OUT_BUF is the one whose bytes stand there (30_encoding.md R96). -/
theorem setupWord_of_bytes {t : State} {packet : Spw}
    (h : ∀ k, k < 8 → t.ramByte (t.params.ep0OutBuf + k) = (spBytes packet).getD k 0) : t.setupWord = packet := by
  have h0 := h 0 (by omega)
  rw [Nat.add_zero] at h0
  simp only [State.setupWord, h0, h 1 (by omega), h 2 (by omega), h 3 (by omega), h 4 (by omega), h 5 (by omega), h 6 (by omega),
    h 7 (by omega)]
  exact spWord_of_bytes packet

/-- A SETUP taken by the SIE: the whole next state but for RAM's list (45_environment_agents.md R277). -/
theorem setupToken_eq {s : State} (hw : s.params.wf = true) (packet : Spw) : setupToken packet s = { s with
    bd := { s.bd with ep0Out := { s.bd.ep0Out with count := 8, pid := 0xD, dts := false, own := .device } }
    pktdis := true
    trnFifo := s.trnFifo ++ [{ endp := 0, dir := 0 }]
    ip := { s.ip with trn := true }
    wire := s.wire ++ [.setup packet]
    ram := (setupToken packet s).ram } := by
  obtain ⟨hu, -⟩ := pokeBytes_ep0Out hw (v := spBytes packet) (Nat.le_refl 8)
  unfold setupToken
  generalize s.pokeBytes s.params.ep0OutBuf (spBytes packet) = u at hu ⊢
  obtain ⟨m, rfl⟩ : ∃ m, u = { s with ram := m } := ⟨u.ram, hu⟩
  rfl

theorem setupToken_ram (packet : Spw) (s : State) :
    (setupToken packet s).ram = (s.pokeBytes s.params.ep0OutBuf (spBytes packet)).ram := by
  unfold setupToken
  generalize s.pokeBytes s.params.ep0OutBuf (spBytes packet) = u
  rfl

/-- Settles O39: the whole next state is `setupToken_eq`, with the packet's bytes in RAM (`bytes_of_received`). -/
theorem setupTokenStep : Obligations.SetupTokenStep := by
  intro s packet hw hawake
  refine ⟨fun hown hpktdis hroom => ?_, fun hready => tokenStep_refused hawake (setupReady_eq_false_iff.mpr hready)⟩
  have ht := setupToken_eq hw packet
  have hp : (setupToken packet s).params = s.params := by rw [ht]
  have hlen : (spBytes packet).length = 8 := rfl
  obtain ⟨hbytes, hframe⟩ := bytes_of_received (t := setupToken packet s) (v := spBytes packet) hw (Nat.le_of_eq hlen) hp
    (setupToken_ram packet s) (by rw [ht])
  rw [hlen] at hbytes hframe
  exact ⟨_, tokenStep_taken hawake (setupReady_iff.mpr ⟨hown, hpktdis, trnFull_eq_false_iff.mpr hroom⟩),
    setupWord_of_bytes (by rwa [hp]), hframe, ht⟩

theorem toggleAccepted_iff {toggle : Bool} {s : State} :
    toggleAccepted toggle s = true ↔ s.bd.ep0Out.dtsen = false ∨ toggle = s.bd.ep0Out.dts := by
  simp [toggleAccepted, State.bdAt, BdFile.get]

/-- An OUT packet with an acceptable toggle: the whole next state but for RAM's list (45_environment_agents.md R278). -/
theorem outData_accepted {s : State} {toggle : Bool} {bytes : List Byte} (hw : s.params.wf = true) (hlen : bytes.length ≤ 8)
    (h : toggleAccepted toggle s = true) : outData toggle bytes s = { s with
    bd := { s.bd with ep0Out :=
            { s.bd.ep0Out with count := BitVec.ofNat 8 bytes.length, pid := 0x1, dts := toggle, own := .device } }
    trnFifo := s.trnFifo ++ [{ endp := 0, dir := 0 }]
    ip := { s.ip with trn := true }
    wire := s.wire ++ [.outData toggle bytes]
    ram := (outData toggle bytes s).ram } := by
  obtain ⟨hu, -⟩ := pokeBytes_ep0Out hw hlen
  rw [outData, if_pos h]
  generalize s.pokeBytes s.params.ep0OutBuf bytes = u at hu ⊢
  obtain ⟨m, rfl⟩ : ∃ m, u = { s with ram := m } := ⟨u.ram, hu⟩
  rfl

/-- Settles O40: within the guard the toggle decides (`outData_accepted`, `toggleAccepted_iff`); the count of the descriptor bounds the
packet to the buffer. -/
theorem outDataStep : Obligations.OutDataStep := by
  intro s toggle bytes hw hdescriptors hawake
  obtain ⟨-, -, -, hcount, -⟩ := hdescriptors
  refine ⟨fun hown hstall hpktdis hroom hlen => ?_, fun hready => tokenStep_refused hawake (outReady_eq_false_iff.mpr hready)⟩
  have hlen8 : bytes.length ≤ 8 := Nat.le_trans hlen (hcount .ep0Out)
  have hstep : sieStep (.outData s.dev.uaddr toggle bytes) s = .next (outData toggle bytes s) :=
    tokenStep_taken hawake (outReady_iff.mpr ⟨hown, hstall, hpktdis, trnFull_eq_false_iff.mpr hroom, hlen⟩)
  refine ⟨fun htoggle => ⟨_, hstep, ?_⟩, fun hdtsen htoggle => ?_⟩
  · have haccepted := toggleAccepted_iff.mpr htoggle
    have ht := outData_accepted hw hlen8 haccepted
    obtain ⟨hbytes, hframe⟩ := bytes_of_received (t := outData toggle bytes s) hw hlen8 (by rw [ht])
      (by rw [outData, if_pos haccepted]; rfl) (by rw [ht])
    exact ⟨hbytes, hframe, ht⟩
  · have hwrong : ¬ toggleAccepted toggle s = true := by simp [toggleAccepted_iff, hdtsen, htoggle]
    rw [hstep, outData, if_neg hwrong]

/-! ### Packets the host takes -/

/-- Settles O41: an IN packet within the guard carries the buffer's first bytes (`packetBytes_eq`), and outside it the step is refused
(`inReady_eq_false_iff`). -/
theorem inPacketStep : Obligations.InPacketStep := by
  intro s hw hdescriptors hawake
  obtain ⟨-, -, -, hcount, -, hstall1, -⟩ := hdescriptors
  refine ⟨fun hown hstall hpktdis hroom => ?_, fun hown hroom => ?_, fun h => ?_, fun h => ?_, fun b hb => ?_⟩
  · have hready : inReady .ep0In s = true :=
      inReady_iff.mpr ⟨.inl rfl, hown, hstall, fun _ => hpktdis, trnFull_eq_false_iff.mpr hroom⟩
    refine (tokenStep_taken hawake hready).trans ?_
    rw [inDone, packetBytes_eq hw (hcount .ep0In) (.inl rfl)]
    rfl
  · rw [sieStep_inDone_ep1In rfl hawake hown hstall1 hroom, inDone, packetBytes_eq hw (hcount .ep1In) (.inr rfl)]
    rfl
  all_goals refine tokenStep_refused hawake (inReady_eq_false_iff.mpr ?_)
  · rcases h with hdevice | hstall | hpktdis | hfull
    · exact .inr (.inl hdevice)
    · exact .inr (.inr (.inl hstall))
    · exact .inr (.inr (.inr (.inl ⟨rfl, hpktdis⟩)))
    · exact .inr (.inr (.inr (.inr hfull)))
  · rcases h with hdevice | hfull
    · exact .inr (.inl hdevice)
    · exact .inr (.inr (.inr (.inr hfull)))
  · exact .inl hb

end Sys2Proof.Machine
end

section
/-! PROOFS. What comes next between the events of the block, and the end of a handler invocation (45_environment_agents.md R271, R287). -/

namespace Sys2Proof.Machine

/-! ### Steps between the events -/

/-- A step of the SIE at the head of the inputs is taken (45_environment_agents.md R271, D1). -/
theorem step_of_sie {s : State} {a : SieStep} {rest : List Input} (hs : s.inHandler = false ∨ asleep s = true)
    (hin : s.inputs = .sie a :: rest) : step s = sieStep a (s.withInputs rest) := by
  have hrun : (s.inHandler && !asleep s) = false := by rcases hs with h | h <;> simp [h]
  simp only [step, stepWith, hrun, hin, Bool.false_eq_true, if_false]

/-- With nothing offered and no interrupt taken the machine waits (log 8). -/
theorem step_of_nothing {s : State} (hh : s.inHandler = false) (hin : s.inputs = []) (hint : interruptTaken s = false) :
    step s = .next s := by
  simp [step, stepWith, hh, hin, hint]

/-- A foreground call waits while an interrupt is taken: the invocation starts (45_environment_agents.md R271). -/
theorem offeredEvent_of_interrupt {s : State} {w : Evw} {b0 b1 : Byte} {i : Instr} (hi : decodeEv w b0 b1 = .ok i)
    (hfg : i.mnemonic.isForeground = true) (hsus : s.suspended = false) (hint : interruptTaken s = true) (rest : List Input) :
    offeredEvent exec w b0 b1 rest s = handlerStep exec (enterHandler s) := by
  simp [offeredEvent, hi, hfg, hsus, hint]

/-- Settles O16: the SIE (`step_of_sie`), the wait (`step_of_nothing`), and the call that stays offered while the invocation's first event
runs (`offeredEvent_of_interrupt`). -/
theorem otherStepsBetweenEvents : Obligations.OtherStepsBetweenEvents := by
  refine fun s => ⟨fun a rest => step_of_sie, step_of_nothing, fun w b0 b1 rest i v j hh hsus hint hin hi hfg hv hj => ?_⟩
  have hv' : formEvw (enterHandler s) (select (enterHandler s) (enterHandler s).phase) = some v := hv
  rw [step_of_event hh hin, offeredEvent_of_interrupt hi hfg hsus hint, handlerStep_of_formEvw hv', runEvent_of_decodeEv hj]
  rfl

/-! ### A handler invocation ends -/

/-- The most events an invocation still has from a place: after IDLE it is in the wait, with ACTIVITY and the drain to come
(40_bus_event_dispatcher.md R131, R136). -/
def Phase.eventsLeft : Phase → Nat
  | .reset => 6
  | .trn => 5
  | .error => 4
  | .idle => 3
  | .wake => 2
  | .actv => 2
  | .drain => 1

/-- The place an invocation is in after the event of a cause (40_bus_event_dispatcher.md R131, R136). -/
def placeAfter (c : Cause) : Phase := if c = .idle then .wake else phaseAfter c

/-- The causes an invocation has still to examine from a place (40_bus_event_dispatcher.md R131). -/
def causesFrom : Phase → List Cause
  | .reset => [.reset, .trn, .error, .idle, .actv]
  | .trn => [.trn, .error, .idle, .actv]
  | .error => [.error, .idle, .actv]
  | .idle => [.idle, .actv]
  | .wake => [.actv]
  | .actv => [.actv]
  | .drain => []

theorem select_eq (s : State) (p : Phase) : select s p = ((causesFrom p).find? (pendingEnabled s)).getD .other := by
  cases p with
  | reset => exact selectReset_eq s
  | trn => exact selectTrn_eq s
  | error => exact selectError_eq s
  | idle => exact selectIdle_eq s
  | wake | actv => exact selectActv_eq s
  | drain => rfl

/-- The cause acted on is the drain or one not yet examined. -/
theorem select_mem {s : State} {p : Phase} (h : select s p ≠ .other) : select s p ∈ causesFrom p := by
  rw [select_eq] at h ⊢
  cases hf : (causesFrom p).find? (pendingEnabled s) with
  | none => rw [hf] at h; exact absurd rfl h
  | some c => exact List.mem_of_find?_eq_some hf

/-- Every event of an invocation but the drain leaves fewer to come. -/
theorem eventsLeft_placeAfter_lt {p : Phase} : ∀ c ∈ causesFrom p, (placeAfter c).eventsLeft < p.eventsLeft := by
  cases p <;> decide

/-- An event of the handler stays in the invocation; only IDLE moves its place, to the wait (40_bus_event_dispatcher.md R136). -/
theorem exec_place {i : Instr} {c : Cause} {s t : State} (hc : causeOfInstr i = some c)
    (h : exec i (s.withPhase (phaseAfter c)) = .next t) : t.inHandler = s.inHandler ∧ t.phase = placeAfter c := by
  cases i with
  | idle | activity => cases hc; cases h; exact ⟨rfl, rfl⟩
  | busReset | trnEp0Setup | trnEp0Out | trnEp0In | trnEp1 | trnOtherEp | busError | otherCause =>
    cases hc
    have hframe := exec_framed (fun hi => by cases hi) (fun hi => by cases hi) h
    exact ⟨hframe.inHandler, hframe.phase⟩
  | _ => cases hc

/-- The invocation has ended, or sleeps, or the model stops at its next step. -/
def invocationOver (t : State) : Prop :=
  t.inHandler = false ∨ asleep t = true ∨ (∃ e, step t = .fault e) ∨ (∃ e, step t = .refused e)

/-- A running invocation that is not over takes an event, and then the handler has returned or fewer events are to come. -/
theorem step_of_invocation {s : State} (hh : s.inHandler = true) (ho : ¬ invocationOver s) : ∃ t, step s = .next t ∧
    (t.inHandler = false ∨ t.inHandler = true ∧ t.phase.eventsLeft < s.phase.eventsLeft) := by
  simp only [invocationOver, not_or, not_exists] at ho
  obtain ⟨-, ha, hfault, hrefused⟩ := ho
  have hrun := step_of_running hh (Bool.eq_false_iff.mpr ha)
  rcases handlerStep_cases exec s with ⟨-, -, hempty⟩ | ⟨i, hc, hevent⟩
  · exact absurd (hrun.trans hempty) (hfault _)
  · cases hx : exec i (s.withPhase (phaseAfter (select s s.phase))) with
    | fault e => exact absurd (by rw [hrun, hevent, hx]; rfl) (hfault e)
    | refused e => exact absurd (by rw [hrun, hevent, hx]; rfl) (hrefused e)
    | next u =>
      obtain ⟨hin, hphase⟩ := exec_place hc hx
      refine ⟨_, by rw [hrun, hevent, hx]; rfl, ?_⟩
      rw [afterEvent_eq]
      split
      · exact .inl rfl
      · next hother => exact .inr ⟨hin.trans hh, hphase ▸ eventsLeft_placeAfter_lt _ (select_mem hother)⟩

/-- An invocation is over within as many steps as events are to come. -/
theorem invocation_ends {n : Nat} {s : State} (hh : s.inHandler = true) (hn : s.phase.eventsLeft ≤ n) :
    ∃ m, m ≤ n ∧ ∃ t, runSteps m s = .next t ∧ invocationOver t := by
  induction n generalizing s with
  | zero => cases hp : s.phase <;> simp [hp, Phase.eventsLeft] at hn
  | succ n ih =>
    by_cases ho : invocationOver s
    · exact ⟨0, Nat.zero_le _, s, rfl, ho⟩
    obtain ⟨t, hstep, hreturned | ⟨ht, hfewer⟩⟩ := step_of_invocation hh ho
    · exact ⟨1, by omega, t, by rw [runSteps, hstep]; rfl, .inl hreturned⟩
    · obtain ⟨m, hm, u, hrun, hu⟩ := ih ht (by omega)
      exact ⟨m + 1, by omega, u, by rw [runSteps, hstep]; exact hrun, hu⟩

/-- Settles O18: six events are to come at most (`Phase.eventsLeft`), and each step of the invocation takes one (`invocation_ends`). -/
theorem handlerInvocationEnds : Obligations.HandlerInvocationEnds := fun s hh =>
  invocation_ends hh (by cases s.phase <;> decide)

end Sys2Proof.Machine
end

section
/-! PROOFS. What the block leaves to the SIE, and the descriptor it hands over for the next SETUP (45_environment_agents.md R270,
R274). -/

namespace Sys2Proof.Machine

/-! ### The block only clears what the SIE sets -/

/-- Every pending cause of the one set is pending in the other. -/
def Causes.sub (c d : Causes) : Prop :=
  (c.reset = true → d.reset = true) ∧ (c.trn = true → d.trn = true) ∧ (c.error = true → d.error = true) ∧
  (c.idle = true → d.idle = true) ∧ (c.actv = true → d.actv = true) ∧ (c.other = true → d.other = true)

theorem Causes.sub_refl (c : Causes) : c.sub c := ⟨id, id, id, id, id, id⟩

/-- Clearing the TRN condition raises no cause: where another entry waits, TRN was pending (10_state.md R43). -/
theorem trnCleared_sub {s : State} (hq : s.queueOk) : (trnCleared s).sub s.ip := by
  refine ⟨id, fun h => hq.1.mpr fun hempty => ?_, id, id, id, id⟩
  have hwaits : s.trnFifo.tail ≠ [] := of_decide_eq_true h
  exact hwaits (by rw [hempty]; rfl)

/-- Every event leaves each pending cause as it is or clears it, and the queue as it is or without its head (10_state.md R41, R43). -/
theorem exec_ip_trnFifo {i : Instr} {s t : State} (hq : s.queueOk) (h : exec i s = .next t) :
    t.ip.sub s.ip ∧ (t.trnFifo = s.trnFifo ∨ t.trnFifo = s.trnFifo.tail) := by
  by_cases hi : Instr.isTrn i = true
  · obtain ⟨u, hu, rfl⟩ := endsTrn_exec hi h
    have hqu : u.queueOk := hq.congr (by rw [hu.ip]) hu.trnFifo hu.params
    rw [clearTrn_eq]
    exact ⟨hu.ip ▸ trnCleared_sub hqu, .inr (congrArg List.tail hu.trnFifo)⟩
  · cases i with
    | busReset => cases h; exact ⟨⟨nofun, id, id, id, id, id⟩, .inl rfl⟩
    | busError => cases h; exact ⟨⟨id, id, nofun, id, id, id⟩, .inl rfl⟩
    | idle => cases h; exact ⟨⟨id, id, id, nofun, id, id⟩, .inl rfl⟩
    | activity => cases h; exact ⟨⟨id, id, id, id, nofun, id⟩, .inl rfl⟩
    | otherCause => cases h; exact ⟨⟨id, id, id, id, id, nofun⟩, .inl rfl⟩
    | reportWrite =>
      have hu := quiet_memWrite h
      exact ⟨hu.ip ▸ Causes.sub_refl _, .inl hu.trnFifo⟩
    | reportChanged =>
      have hu := quiet_execReportChanged h
      exact ⟨hu.ip ▸ Causes.sub_refl _, .inl hu.trnFifo⟩
    | _ => exact absurd rfl hi

theorem calm_transmitReport {s t : State} (h : transmitReport s = .next t) : calm s t := by
  obtain ⟨u, hcopy, hu⟩ := andThen_eq_next.mp h
  cases hu
  exact (calm_copy hcopy).trans ⟨rfl, rfl, rfl, rfl, rfl, rfl⟩

theorem ended_execTrnEp1 {s t : State} (h : execTrnEp1 s = .next t) : ended s t := by
  unfold execTrnEp1 at h
  split at h
  · obtain ⟨u, hsent, hu⟩ := andThen_eq_next.mp h
    cases hu
    exact ended_clearTrn ((calm_transmitReport hsent).trans ⟨rfl, rfl, rfl, rfl, rfl, rfl⟩)
  · cases h
    exact ended_clearTrn (calm.refl s)

theorem calm_execReportChanged {s t : State} (h : execReportChanged s = .next t) : calm s t := by
  obtain ⟨u, hbody, hu⟩ := andThen_eq_next.mp h
  cases hu
  unfold reportChangedBody at hbody
  split at hbody
  · have hsent := calm_transmitReport hbody
    exact ⟨hsent.trace, hsent.dev, hsent.errFlags, hsent.pktdis, hsent.ip, hsent.trnFifo⟩
  · cases hbody
    exact ⟨rfl, rfl, rfl, rfl, rfl, rfl⟩

/-- Every event leaves the error flags and `pktdis` as they are or clears them (10_state.md R40, R44). -/
theorem exec_errFlags_pktdis {i : Instr} {s t : State} (hw : s.params.wf = true) (h : exec i s = .next t) :
    (t.errFlags = s.errFlags ∨ t.errFlags = 0) ∧ (t.pktdis = true → s.pktdis = true) := by
  have hsame (he : t.errFlags = s.errFlags) (hp : t.pktdis = s.pktdis) :
      (t.errFlags = s.errFlags ∨ t.errFlags = 0) ∧ (t.pktdis = true → s.pktdis = true) := ⟨.inl he, fun ht => hp ▸ ht⟩
  by_cases hs : i.mnemonic.isSetup = true
  · rcases execSetup_outcome hw hs with ⟨-, hrefused⟩ | ⟨u, hu, ho, -⟩
    · rw [hrefused] at h; cases h
    · cases hu.symm.trans h
      obtain ⟨ctx, pendingAddr, ep0Out, ep0In, trace, ram, rfl⟩ := ho.frame
      exact ⟨.inl rfl, nofun⟩
  · cases i with
    | trnEp0Out => exact hsame (ended_execTrnEp0Out h).errFlags (ended_execTrnEp0Out h).pktdis
    | trnEp0In => exact hsame (ended_execTrnEp0In h).1.errFlags (ended_execTrnEp0In h).1.pktdis
    | trnEp1 => exact hsame (ended_execTrnEp1 h).errFlags (ended_execTrnEp1 h).pktdis
    | reportWrite => exact hsame (calm_memWrite h).errFlags (calm_memWrite h).pktdis
    | reportChanged => exact hsame (calm_execReportChanged h).errFlags (calm_execReportChanged h).pktdis
    | busReset | trnOtherEp | idle | activity | otherCause => cases h; exact hsame rfl rfl
    | busError => cases h; exact ⟨.inr rfl, id⟩
    | _ => exact absurd rfl hs

/-- No event writes a record of the wire log, `gie` or the fields of the agents outside (45_environment_agents.md R270, D39). -/
theorem exec_outside {i : Instr} {s t : State} (h : exec i s = .next t) :
    t.wire = s.wire ∧ t.gie = s.gie ∧ t.inHandler = s.inHandler ∧ t.inputs = s.inputs ∧ t.params = s.params := by
  cases i with
  | idle | activity => cases h; exact ⟨rfl, rfl, rfl, rfl, rfl⟩
  | _ =>
    have hframe := exec_framed (fun hi => by cases hi) (fun hi => by cases hi) h
    exact ⟨hframe.wire, hframe.gie, hframe.inHandler, hframe.inputs, hframe.params⟩

/-- Settles O48: the causes and the queue (`exec_ip_trnFifo`), the two other registers (`exec_errFlags_pktdis`), and the frame
(`exec_outside`). -/
theorem theBlockOnlyClearsWhatTheSieSets : Obligations.TheBlockOnlyClearsWhatTheSieSets := by
  intro i s t hw hq h
  obtain ⟨⟨hreset, htrn, herror, hidle, hactv, hother⟩, hqueue⟩ := exec_ip_trnFifo hq h
  obtain ⟨herrFlags, hpktdis⟩ := exec_errFlags_pktdis hw h
  exact ⟨hreset, htrn, herror, hidle, hactv, hother, hqueue, herrFlags, hpktdis, exec_outside h⟩

/-! ### EP0_OUT is handed over -/

/-- EP0_OUT belongs to the SIE, for 8 bytes of its buffer (45_environment_agents.md R274). -/
def ep0OutHandedOver (t : State) : Prop :=
  t.bd.ep0Out.own = .sie ∧ t.bd.ep0Out.count = 8 ∧ t.bd.ep0Out.addr = t.params.ep0OutBuf

/-- The end of an endpoint-0 event that did not stall hands EP0_OUT over, whatever the transfer (41_ep0_control_engine.md R163). -/
theorem handedOver_of_finishEp0 {u t : State} (h : finishEp0 false u = .next t) : ep0OutHandedOver t := by
  obtain ⟨v, hepilogue, hclear⟩ := andThen_eq_next.mp h
  cases hclear
  simp only [epilogue, Bool.false_eq_true, if_false] at hepilogue
  split at hepilogue
  · obtain ⟨w, -, harm⟩ := andThen_eq_next.mp hepilogue
    cases harm
    exact ⟨rfl, rfl, rfl⟩
  all_goals
    cases hepilogue
    exact ⟨rfl, rfl, rfl⟩

theorem handedOver_of_execTrnEp0In {s t : State} (h : execTrnEp0In s = .next t) : ep0OutHandedOver t := by
  unfold execTrnEp0In at h
  split at h <;> exact handedOver_of_finishEp0 h

theorem handedOver_of_execTrnEp0Out {s t : State} (h : execTrnEp0Out s = .next t) : ep0OutHandedOver t := by
  unfold execTrnEp0Out at h
  split at h
  · exact handedOver_of_finishEp0 h
  · obtain ⟨u, -, hu⟩ := andThen_eq_next.mp h
    exact handedOver_of_finishEp0 hu
  · exact handedOver_of_finishEp0 h

theorem handedOver_of_setup {i : Instr} {s t : State} (hw : s.params.wf = true) (hi : i.mnemonic.isSetup = true)
    (h : exec i s = .next t) : ep0OutHandedOver t := by
  have hp := exec_params h
  rcases execSetup_outcome hw hi with ⟨-, hrefused⟩ | ⟨u, hu, ho, -⟩
  · rw [hrefused] at h; cases h
  · cases hu.symm.trans h
    obtain ⟨-, ⟨-, harm, -⟩ | ⟨-, harm, -⟩ | ⟨-, harm, -⟩⟩ := ho.ends
    all_goals
      rw [ep0OutHandedOver, harm, hp]
      exact ⟨rfl, rfl, rfl⟩

/-- Every endpoint-0 event and a bus reset hand EP0_OUT over (45_environment_agents.md R274). -/
theorem exec_handsOver {i : Instr} {s t : State} (hw : s.params.wf = true) (hi : i.mnemonic.isEp0 = true ∨ i.mnemonic = .busReset)
    (h : exec i s = .next t) : ep0OutHandedOver t := by
  by_cases hs : i.mnemonic.isSetup = true
  · exact handedOver_of_setup hw hs h
  · cases i with
    | trnEp0Out => exact handedOver_of_execTrnEp0Out h
    | trnEp0In => exact handedOver_of_execTrnEp0In h
    | busReset => cases h; exact ⟨rfl, rfl, rfl⟩
    | trnEp1 | trnOtherEp | busError | idle | activity | otherCause | reportWrite | reportChanged =>
      rcases hi with hi | hi <;> cases hi
    | _ => exact absurd rfl hs

/-- Settles O34: the event hands EP0_OUT over (`exec_handsOver`), and SETUP_TOKEN needs no more than that and the premises
(`setupTokenStep`). -/
theorem ep0EventsHandOverEp0Out : Obligations.Ep0EventsHandOverEp0Out := by
  intro i s t hw hi h
  have hp := exec_params h
  obtain ⟨hown, hcount, haddr⟩ := exec_handsOver hw hi h
  refine ⟨hown, hcount, hp ▸ haddr, fun hawake hpktdis hroom packet => ?_⟩
  obtain ⟨haccepted, -⟩ := setupTokenStep t packet (hp ▸ hw) hawake
  obtain ⟨u, hstep, hword, -⟩ := haccepted hown hpktdis hroom
  exact ⟨u, hstep, hword⟩

end Sys2Proof.Machine
end

section
/-! PROOFS. The stops of 60_exceptions.md: data without a sink, and events that are not enabled. -/

namespace Sys2Proof.Machine

/-- Settles O33: `execTrnEp0Out_fault`. -/
theorem outDataWithoutASinkStops : Obligations.OutDataWithoutASinkStops := fun _ _ _ hk hd hn => execTrnEp0Out_fault hk hd hn

/-! ### Offered events that are not enabled -/

/-- An offered handler event that does not say what the registers say is refused (60_exceptions.md R307, log 9). -/
theorem offeredEvent_of_mismatch {s : State} {w v : Evw} {b0 b1 : Byte} {i : Instr} (hi : decodeEv w b0 b1 = .ok i)
    (hfg : i.mnemonic.isForeground = false) (hint : interruptTaken s = true) (hv : formEvw s (selectReset s) = some v)
    (hm : evwMeaning w ≠ evwMeaning v) (rest : List Input) :
    offeredEvent exec w b0 b1 rest s = .refused .handlerEventNotEnabled := by
  simp [offeredEvent, hi, hfg, hint, hv, hm]

/-- A handler event offered while no interrupt is taken is refused (60_exceptions.md R307, 40_bus_event_dispatcher.md R130). -/
theorem offeredEvent_of_noInterrupt {s : State} {w : Evw} {b0 b1 : Byte} {i : Instr} (hi : decodeEv w b0 b1 = .ok i)
    (hfg : i.mnemonic.isForeground = false) (hint : interruptTaken s = false) (rest : List Input) :
    offeredEvent exec w b0 b1 rest s = .refused .handlerEventNotEnabled := by
  simp [offeredEvent, hi, hfg, hint]

/-- A foreground call offered while the processor is suspended is refused (60_exceptions.md R307, R319). -/
theorem offeredEvent_of_suspended {s : State} {w : Evw} {b0 b1 : Byte} {i : Instr} (hi : decodeEv w b0 b1 = .ok i)
    (hfg : i.mnemonic.isForeground = true) (hsus : s.suspended = true) (rest : List Input) :
    offeredEvent exec w b0 b1 rest s = .refused .foregroundNotEnabled := by
  simp [offeredEvent, hi, hfg, hsus]

/-- Settles O60: outside the handler a word is offered (`step_of_event`), and each of the refusals is a lemma about the offer; into the
sleep it is `step_of_asleep_event`. -/
theorem eventsNotEnabledAreRefused : Obligations.EventsNotEnabledAreRefused := by
  refine fun s w b0 b1 rest i hin hi => ⟨fun v hh hint hfg hv hm => ?_, fun hh hint hfg => ?_,
    fun ha => step_of_asleep_event ha hin hi, fun hh hsus hfg => ?_⟩
  · exact (step_of_event hh hin).trans (offeredEvent_of_mismatch hi hfg hint hv hm rest)
  · exact (step_of_event hh hin).trans (offeredEvent_of_noInterrupt hi hfg hint rest)
  · exact (step_of_event hh hin).trans (offeredEvent_of_suspended hi hfg hsus rest)

end Sys2Proof.Machine
end

section
/-! PROOFS. The two contexts: the foreground leaves endpoint 0 and the interrupt registers alone, the handler leaves the report alone
(60_exceptions.md R315). -/

namespace Sys2Proof.Machine

/-- A foreground call writes the report's state, EP1_IN's descriptor and RAM, and no other field (43_ep1_report_engine.md R220, R221). -/
theorem exec_of_foreground {i : Instr} {s t : State} (hw : s.params.wf = true) (hi : i.mnemonic.isForeground = true)
    (h : exec i s = .next t) : t = { s with rpt := t.rpt, bd := { s.bd with ep1In := t.bd.ep1In }, ram := t.ram } := by
  cases i with
  | reportWrite low b0 b1 =>
    obtain ⟨u, hu, hram, -⟩ := execReportWrite_next hw b0 b1
    cases hu.symm.trans h
    rw [hram]
  | reportChanged low =>
    cases ho : s.bd.ep1In.own with
    | sie => cases (execReportChanged_busy ho).symm.trans h; rfl
    | device =>
      obtain ⟨u, hu, ⟨-, -, -, htransmits⟩, -⟩ := execReportChanged_free hw ho
      cases hu.symm.trans h
      rw [htransmits]
  | _ => cases hi

/-- A foreground call stores to the report, to EP1_IN's descriptor and to EP1_IN_BUF (43_ep1_report_engine.md R220, R223). -/
theorem storedBy_of_foreground {i : Instr} {s : State} {a : Nat} (hi : i.mnemonic.isForeground = true) (h : storedBy s i a) :
    inRun s.params.addrReport 2 a ∨ inBd s.params .ep1In a ∨ inRun s.params.ep1InBuf 2 a := by
  cases i with
  | reportWrite => exact .inl h
  | reportChanged => exact .inr h.2
  | _ => cases hi

/-- An event of the handler stores to descriptors, to the configuration and to the IN buffers (41_ep0_control_engine.md R172,
43_ep1_report_engine.md R224). -/
theorem storedBy_of_handler {i : Instr} {s : State} {a : Nat} (hi : i.mnemonic.isForeground = false) (h : storedBy s i a) :
    (∃ b, inBd s.params b a) ∨ a = s.params.addrConfig ∨ inRun s.params.ep0InBuf 8 a ∨ inRun s.params.ep1InBuf 2 a := by
  have hrun {n : Nat} (hn : n ≤ 8) (ha : inRun s.params.ep0InBuf n a) : inRun s.params.ep0InBuf 8 a :=
    ⟨ha.1, Nat.lt_of_lt_of_le ha.2 (Nat.add_le_add_left hn _)⟩
  cases i with
  | reportWrite | reportChanged => cases hi
  | trnOtherEp | busError | idle | activity | otherCause => exact h.elim
  | busReset =>
    rcases h with ha | hb
    · exact .inr (.inl ha)
    · exact .inl ⟨_, hb⟩
  | trnEp0Out =>
    rcases h with hb | ⟨-, hb⟩ <;> exact .inl ⟨_, hb⟩
  | trnEp0In =>
    rcases h with hb | ⟨-, hb | ha⟩
    · exact .inl ⟨_, hb⟩
    · exact .inl ⟨_, hb⟩
    · exact .inr (.inr (.inl (hrun (Nat.min_le_right _ _) ha)))
  | trnEp1 =>
    rcases h with ⟨-, hb | ha⟩
    · exact .inl ⟨_, hb⟩
    · exact .inr (.inr (.inr ha))
  | _ =>
    rcases h with hb | hb | ha | ⟨-, ha⟩
    · exact .inl ⟨_, hb⟩
    · exact .inl ⟨_, hb⟩
    · exact .inr (.inr (.inl (hrun (packetOf_le _ _) ha)))
    · exact .inr (.inl ha)

/-- The configuration and the buffers of endpoint 0 are no bytes a foreground call stores (20_memory.md R67). -/
theorem not_storedBy_of_foreground {i : Instr} {s : State} {a : Nat} (hw : s.params.wf = true) (hi : i.mnemonic.isForeground = true)
    (ha : inRun s.params.addrConfig 1 a ∨ inRun s.params.ep0OutBuf 8 a ∨ inRun s.params.ep0InBuf 8 a) : ¬ storedBy s i a := by
  intro hst
  have hl := Params.ram_layout hw
  rcases storedBy_of_foreground hi hst with h | h | h
  · unfold inRun at ha h
    rcases ha with ha | ha | ha <;> omega
  · rcases ha with ha | ha | ha
    · exact (clearOfBds_config hw (Nat.le_refl 1)).not_inBd ha _ h
    · exact (clearOfBds_ep0Out hw (Nat.le_refl 8)).not_inBd ha _ h
    · exact (clearOfBds_ep0In hw (Nat.le_refl 8)).not_inBd ha _ h
  · unfold inRun at ha h
    rcases ha with ha | ha | ha <;> omega

/-- The report is none of the bytes an event of the handler stores (20_memory.md R67, R70). -/
theorem not_storedBy_of_handler {i : Instr} {s : State} {a : Nat} (hw : s.params.wf = true) (hi : i.mnemonic.isForeground = false)
    (ha : inRun s.params.addrReport 2 a) : ¬ storedBy s i a := by
  intro hst
  have hl := Params.ram_layout hw
  rcases storedBy_of_handler hi hst with ⟨b, h⟩ | h | h | h
  · exact (clearOfBds_report hw (Nat.le_refl 2)).not_inBd ha b h
  all_goals
    unfold inRun at *
    omega

/-- The report is read from the two bytes at ADDR_REPORT alone (10_state.md R30). -/
theorem report_of_sameBytes {s t : State} (hw : s.params.wf = true) (hp : t.params = s.params)
    (h : ∀ a, inRun s.params.addrReport 2 a → t.ramByte a = s.ramByte a) : t.report = s.report := by
  obtain ⟨hs1, hs2⟩ := State.ramByte_report hw
  obtain ⟨ht1, ht2⟩ := State.ramByte_report (s := t) (hp ▸ hw)
  rw [hp] at ht1 ht2
  have h0 := h s.params.addrReport ⟨Nat.le_refl _, by omega⟩
  have h1 := h (s.params.addrReport + 1) ⟨by omega, by omega⟩
  exact Prod.ext (ht1.symm.trans (h0.trans hs1)) (ht2.symm.trans (h1.trans hs2))

/-- Settles O49: the registers are `exec_of_foreground`, the bytes of RAM are the frame of memory (`eventsStoreNowhereElse`) with the
layout (`not_storedBy_of_foreground`, `not_storedBy_of_handler`). -/
theorem contextsKeepTheirDiscipline : Obligations.ContextsKeepTheirDiscipline := by
  intro i s t hw hok h
  have hp := exec_params h
  have hbytes := eventsStoreNowhereElse i s t hw hok h
  refine ⟨fun hi => ?_, fun hi => report_of_sameBytes hw hp fun a ha => hbytes a (not_storedBy_of_handler hw hi ha)⟩
  have hsame {a : Nat} (ha : inRun s.params.addrConfig 1 a ∨ inRun s.params.ep0OutBuf 8 a ∨ inRun s.params.ep0InBuf 8 a) :
      t.ramByte a = s.ramByte a := hbytes a (not_storedBy_of_foreground hw hi ha)
  have hconfig : t.configuration = s.configuration := by
    rw [← State.ramByte_config hw, ← State.ramByte_config (s := t) (hp ▸ hw), hp]
    exact hsame (.inl ⟨Nat.le_refl _, Nat.lt_succ_self _⟩)
  have hout (k : Nat) (hk : k < 8) : t.ramByte (s.params.ep0OutBuf + k) = s.ramByte (s.params.ep0OutBuf + k) :=
    hsame (.inr (.inl ⟨Nat.le_add_right _ _, Nat.add_lt_add_left hk _⟩))
  have hin (k : Nat) (hk : k < 8) : t.ramByte (s.params.ep0InBuf + k) = s.ramByte (s.params.ep0InBuf + k) :=
    hsame (.inr (.inr ⟨Nat.le_add_right _ _, Nat.add_lt_add_left hk _⟩))
  have hframe := exec_of_foreground hw hi h
  refine ⟨?_, ?_, hconfig, ?_, ?_, ?_, hout, hin, ?_, ?_, ?_, ?_, ?_, ?_, ?_, ?_⟩
  all_goals rw [hframe]

end Sys2Proof.Machine
end

section
/-! PROOFS. Which event can raise what (60_exceptions.md R308). -/

namespace Sys2Proof.Machine

/-! ### The events that raise nothing -/

/-- A report that is sent leaves EP0_OUT alone (43_ep1_report_engine.md R223). -/
theorem transmits.ep0Out {s t : State} {pending : Bool} {fifo : List TrnEntry} {ip : Causes} (h : transmits s t pending fifo ip) :
    t.bd.ep0Out = s.bd.ep0Out := by
  obtain ⟨-, -, -, ht⟩ := h
  rw [ht]

/-- An event of another cause than endpoint 0's goes on, and stalls nothing: it leaves EP0_OUT alone, or arms it unstalled as a bus reset
does (40_bus_event_dispatcher.md R132 to R138, 43_ep1_report_engine.md R220 to R224). -/
theorem exec_raises_nothing {i : Instr} {s : State} (hw : s.params.wf = true)
    (hi : i.mnemonic ∈ [.busReset, .busError, .idle, .activity, .otherCause, .trnOtherEp, .trnEp1, .reportWrite, .reportChanged]) :
    ∃ t, exec i s = .next t ∧ (t.bd.ep0Out.stall = true → t.bd.ep0Out = s.bd.ep0Out) := by
  cases i with
  | busReset => exact ⟨_, execBusReset_eq s, nofun⟩
  | busError | idle | activity | otherCause | trnOtherEp => exact ⟨_, rfl, fun _ => rfl⟩
  | trnEp1 =>
    cases hp : s.rpt.pending with
    | false => exact ⟨_, execTrnEp1_idle hp, fun _ => rfl⟩
    | true =>
      obtain ⟨t, ht, hsent, -⟩ := execTrnEp1_pending hw hp
      exact ⟨t, ht, fun _ => hsent.ep0Out⟩
  | reportWrite low b0 b1 =>
    obtain ⟨t, ht, hram, -⟩ := execReportWrite_next hw b0 b1
    exact ⟨t, ht, fun _ => by rw [hram]⟩
  | reportChanged =>
    cases ho : s.bd.ep1In.own with
    | sie => exact ⟨_, execReportChanged_busy ho, fun _ => rfl⟩
    | device =>
      obtain ⟨t, ht, hsent, -⟩ := execReportChanged_free hw ho
      exact ⟨t, ht, fun _ => hsent.ep0Out⟩
  | _ => exact absurd hi (by simp [Instr.mnemonic])

/-! ### The completions of endpoint 0 -/

/-- Over the invariant of the transfer an IN completion goes on without a stall: one of the four ways of `trnEp0InByKind`
(60_exceptions.md R308). -/
theorem execTrnEp0In_goes_on {s : State} (pid : BitVec 4) (zero : BitVec 3) (hw : s.params.wf = true) (hok : s.transferOk) :
    ∃ t, exec (.trnEp0In pid zero) s = .next t ∧ t.bd.ep0Out.stall = false := by
  obtain ⟨hmore, hempty, hout, hnone, -⟩ := trnEp0InByKind pid zero s
  cases hk : s.ctx.kind with
  | none => exact ⟨_, hnone hk, rfl⟩
  | ctlOut => exact ⟨_, hout hk, rfl⟩
  | ctlIn =>
    by_cases hr : s.ctx.remaining = 0
    · exact ⟨_, hempty hok hk hr, rfl⟩
    · obtain ⟨-, t, -, ht, -, -, -, hsent⟩ := hmore hw hok hk (Nat.pos_of_ne_zero fun h => hr (BitVec.eq_of_toNat_eq h))
      exact ⟨t, ht, by rw [hsent]; rfl⟩

/-- A write goes on, or stops with one of its addresses that is outside RAM's regions (60_exceptions.md R306). -/
theorem memWrite_goes_on_or {s : State} {v : List Byte} {n : Nat} (a : Nat) (hv : v.length = n) :
    (∃ t, memWrite s a v = .next t) ∨ ∃ k, k < n ∧ inSpace s.params .ram (s.params.wrap (a + k)) = false ∧
      memWrite s a v = .fault (.ptrRange .ram (s.params.wrap (a + k))) := by
  subst hv
  unfold memWrite
  cases hf : (s.params.addrs a v.length).find? fun x => !inSpace s.params .ram x with
  | none => exact .inl ⟨_, rfl⟩
  | some x =>
    obtain ⟨k, hk, rfl⟩ := Params.mem_addrs_iff.mp (List.mem_of_find?_eq_some hf)
    exact .inr ⟨k, hk, by simpa using List.find?_some hf, rfl⟩

/-- OUT data with a sink is copied there, or the model stops with an address of the copy (41_ep0_control_engine.md R161,
60_exceptions.md R306). -/
theorem copyToSink_goes_on_or {s : State} {a n : Nat} (hw : s.params.wf = true) (hd : s.ctx.data = .at a) (hn : n ≤ 8) :
    (∃ t, copyToSink s n = .next t) ∨ ∃ k, k < n ∧ inSpace s.params .ram (s.params.wrap (a + k)) = false ∧
      copyToSink s n = .fault (.ptrRange .ram (s.params.wrap (a + k))) := by
  have hcopy : copyToSink s n = copy s .ram s.params.ep0OutBuf a n := by rw [copyToSink, hd]
  rw [hcopy, copy_of_memRead_next (memRead_inside hw (insideRegion_ep0Out _ hn))]
  exact memWrite_goes_on_or a (by simp)

/-- The copy to the sink leaves the context alone. -/
theorem ctx_of_copyToSink {s t : State} {n : Nat} (h : copyToSink s n = .next t) : t.ctx = s.ctx := by
  unfold copyToSink at h
  split at h
  · rw [copy_eq h]
  · split at h <;> cases h
    rfl

/-- An OUT packet of an OUT-kind transfer ends the event if its bytes could be stored (41_ep0_control_engine.md R161). -/
theorem execTrnEp0Out_of_copied {s u : State} (hk : s.ctx.kind = .ctlOut) (h : copyToSink s s.bd.ep0Out.count.toNat = .next u) :
    ∃ t, execTrnEp0Out s = .next t ∧ t.bd.ep0Out.stall = false := by
  have hkind : u.ctx.kind = .ctlOut := by rw [ctx_of_copyToSink h, hk]
  simp only [execTrnEp0Out, hk, State.bdAt, BdFile.get, h, andThen_next]
  exact ⟨_, finishEp0_out hkind, rfl⟩

/-- Where they could not be stored the model stops (60_exceptions.md R306). -/
theorem execTrnEp0Out_of_not_copied {s : State} {e : Fault} (hk : s.ctx.kind = .ctlOut)
    (h : copyToSink s s.bd.ep0Out.count.toNat = .fault e) : execTrnEp0Out s = .fault e := by
  simp only [execTrnEp0Out, hk, State.bdAt, BdFile.get, h, andThen_fault]

/-- An OUT completion goes on without a stall, or stops for data without a sink, or with an address of the copy that is outside RAM's
regions (60_exceptions.md R305, R306, R308). -/
theorem execTrnEp0Out_goes_on_or {s : State} (hw : s.params.wf = true) (hn : s.bd.ep0Out.count.toNat ≤ 8) :
    (∃ t, execTrnEp0Out s = .next t ∧ t.bd.ep0Out.stall = false) ∨
    (s.ctx.kind = .ctlOut ∧ s.bd.ep0Out.count ≠ 0 ∧ s.ctx.data = .unspecified ∧
      execTrnEp0Out s = .fault (.unspecifiedSink s.bd.ep0Out.count.toNat)) ∨
    ∃ a k, s.ctx.kind = .ctlOut ∧ s.ctx.data = .at a ∧ k < s.bd.ep0Out.count.toNat ∧
      inSpace s.params .ram (s.params.wrap (a + k)) = false ∧
      execTrnEp0Out s = .fault (.ptrRange .ram (s.params.wrap (a + k))) := by
  cases hk : s.ctx.kind with
  | none => exact .inl ⟨_, execTrnEp0Out_none hk, rfl⟩
  | ctlIn => exact .inl ⟨_, execTrnEp0Out_in hk, rfl⟩
  | ctlOut =>
    cases hd : s.ctx.data
    case unspecified =>
      by_cases h0 : s.bd.ep0Out.count = 0
      · exact .inl ⟨_, execTrnEp0Out_empty hk hd h0, rfl⟩
      · exact .inr (.inl ⟨rfl, h0, rfl, execTrnEp0Out_fault hk hd h0⟩)
    next a =>
      rcases copyToSink_goes_on_or hw hd hn with ⟨u, hu⟩ | ⟨k, hlt, hout, hfault⟩
      · exact .inl (execTrnEp0Out_of_copied hk hu)
      · exact .inr (.inr ⟨a, k, rfl, rfl, hlt, hout, execTrnEp0Out_of_not_copied hk hfault⟩)

/-! ### The table -/

/-- A request of a nonstandard type under REFUSE is refused (42_ep0_requests.md R204). -/
theorem exec_nonstd_refuse {s : State} (hpol : s.params.nonstdTypePolicy = .refuse) (attr : ReqAttr) (c : BitVec 1) (b : Byte)
    (v x l : BitVec 16) : exec (.nonstdRequestType attr c b v x l) s = .refused .nonstandardRequestType := by
  show execNonstdRequestType attr b v x l s = _
  rw [execNonstdRequestType, hpol]

/-- Settles O50: the rows of R308 (`exec_raises_nothing`, `execSetup_outcome`, `execTrnEp0Out_goes_on_or`, `execTrnEp0In_goes_on`) and a
case for each entry (`execUnsupportedStandard_next`, `execTrnEp0Out_fault`, `exec_nonstd_refuse`). -/
theorem whatEachEventCanRaise : Obligations.WhatEachEventCanRaise := by
  intro i s hw ⟨_, _, _, hcount, _⟩
  refine ⟨exec_raises_nothing hw, fun hi => ?_, fun hi => ?_, fun hi hok => ?_,
    fun attr b v x l => ⟨_, execUnsupportedStandard_next s, rfl, rfl⟩, fun _ _ hk hn hd => execTrnEp0Out_fault hk hd hn,
    fun attr c b v x l hpol => exec_nonstd_refuse hpol attr c b v x l⟩
  · exact (execSetup_outcome hw hi).symm.imp_left fun ⟨t, ht, _⟩ => ⟨t, ht⟩
  · cases i with
    | trnEp0Out => exact execTrnEp0Out_goes_on_or hw (hcount .ep0Out)
    | _ => cases hi
  · cases i with
    | trnEp0In pid zero => exact execTrnEp0In_goes_on pid zero hw hok
    | _ => cases hi

end Sys2Proof.Machine
end

section
/-! PROOFS. The trace (60_exceptions.md R318). -/

namespace Sys2Proof.Machine

/-- A SETUP event writes the trace exactly where it ends without a transfer, which is where it stalls (60_exceptions.md R301). -/
theorem setupOutcome.trace {s t : State} (h : setupOutcome s t) :
    (t.ctx.kind = .none ∧ t.trace = if s.params.traceStall then s.trace ++ [s.params.traceStallChar] else s.trace) ∨
    (t.ctx.kind ≠ .none ∧ t.trace = s.trace) := by
  rcases h with ⟨sp, a, n, -, -, -, hctx, -, -, ht⟩ | rfl | ⟨dev, ram, rfl, -⟩ | rfl
  · exact .inr ⟨by rw [hctx]; exact Kind.noConfusion, by rw [ht]⟩
  · exact .inr ⟨Kind.noConfusion, rfl⟩
  · exact .inr ⟨Kind.noConfusion, rfl⟩
  · exact .inl ⟨rfl, rfl⟩

/-- An event that is neither a SETUP event nor a bus reset leaves the trace alone. -/
theorem trace_of_other {i : Instr} {s t : State} (hs : ¬ i.mnemonic.isSetup = true) (hr : i.mnemonic ≠ .busReset)
    (h : exec i s = .next t) : t.trace = s.trace := by
  cases i with
  | busReset => exact absurd rfl hr
  | trnEp0Out => exact (ended_execTrnEp0Out h).trace
  | trnEp0In => exact (ended_execTrnEp0In h).1.trace
  | trnEp1 => exact (ended_execTrnEp1 h).trace
  | trnOtherEp | busError | idle | activity | otherCause => cases h; rfl
  | reportWrite => exact (calm_memWrite h).trace
  | reportChanged => exact (calm_execReportChanged h).trace
  | _ => exact absurd rfl hs

/-- Settles O52: the three kinds of event (`setupOutcome.trace`, `execBusReset_eq`, `trace_of_other`), and the frame of the SIE. -/
theorem traceBytes : Obligations.TraceBytes := by
  refine ⟨fun i s t hw h => ?_, fun a s t h => (sieStep_framed h).trace⟩
  by_cases hs : i.mnemonic.isSetup = true
  · rcases execSetup_outcome hw hs with ⟨-, hrefused⟩ | ⟨u, hu, ho, -⟩
    · rw [hrefused] at h; cases h
    · cases hu.symm.trans h
      rcases ho.trace with ⟨hk, ht⟩ | ⟨hk, ht⟩
      · exact .inr (.inl ⟨hs, hk, ht⟩)
      · exact .inr (.inr ⟨fun hr => Bool.noConfusion (show Mnemonic.busReset.isSetup = true from hr ▸ hs), fun _ => hk, ht⟩)
  by_cases hr : i.mnemonic = .busReset
  · cases i with
    | busReset => cases h; exact .inl ⟨rfl, rfl⟩
    | _ => cases hr
  · exact .inr (.inr ⟨hr, fun hi => absurd hi hs, trace_of_other hs hr h⟩)

end Sys2Proof.Machine
end

section
/-! PROOFS. The interrupt and power discipline over every step (60_exceptions.md R319, 40_bus_event_dispatcher.md R136, R137). -/

namespace Sys2Proof.Machine

/-- The invariant reads the interrupt enables, the suspension and the place of the invocation. -/
theorem State.powerOk.congr {s t : State} (h : s.powerOk) (hg : t.gie = s.gie) (hs : t.suspended = s.suspended) (hi : t.ie = s.ie)
    (hh : t.inHandler = s.inHandler) (hp : t.phase = s.phase) : t.powerOk := by
  unfold State.powerOk
  rw [hg, hs, hi, hh, hp]
  exact h

/-- An awake machine meets the invariant if it is not at IDLE's wait and, outside the handler, at the first cause. -/
theorem State.powerOk_of_awake {s : State} (hg : s.gie = true) (hs : s.suspended = false) (hi : s.ie = fullIe)
    (hp : s.phase ≠ .wake) (hr : s.inHandler = false → s.phase = .reset) : s.powerOk :=
  ⟨hg, by simp [hs, hp], by simp [hs, hi], hr⟩

/-- Outside the handler the machine is awake. -/
theorem State.powerOk.awake {s : State} (h : s.powerOk) (hh : s.inHandler = false) : s.suspended = false ∧ s.ie = fullIe := by
  obtain ⟨-, hsus, hie, -⟩ := h
  have hs : s.suspended = false := by simpa [hh] using hsus
  exact ⟨hs, by simpa [hs] using hie⟩

/-- A handler that is suspended but does not sleep takes ACTIVITY (40_bus_event_dispatcher.md R136, R137). -/
theorem State.powerOk.select_suspended {s : State} (h : s.powerOk) (ha : asleep s = false) (hs : s.suspended = true) :
    select s s.phase = .actv := by
  obtain ⟨-, hsus, hie, -⟩ := h
  obtain ⟨hh, hp⟩ := hsus.mp hs
  rw [if_pos hs] at hie
  have hactv : s.ip.actv = true := by simpa [asleep, hh, hp] using ha
  simp [hp, select, selectActv, hactv, hie, suspendIe]

/-- The state in which a handler's event starts meets the invariant and does not sleep. -/
theorem handlerBase.powerOk {s s0 : State} (hb : handlerBase s s0) (h : s.powerOk) : s0.powerOk ∧ asleep s0 = false := by
  have hnew (hh : s.inHandler = false) : (enterHandler s).powerOk ∧ asleep (enterHandler s) = false := by
    obtain ⟨hs, hie⟩ := h.awake hh
    exact ⟨State.powerOk_of_awake h.1 hs hie Phase.noConfusion fun _ => rfl, rfl⟩
  rcases hb.place with ⟨-, ha, rfl⟩ | ⟨hh, -, rfl⟩ | ⟨hh, -, rest, rfl⟩
  · exact ⟨h, ha⟩
  · exact hnew hh
  · exact hnew hh

/-- After a handler's event that leaves the machine awake, and its place not the wait, the invariant holds. -/
theorem powerOk_afterEvent {t : State} (c : Cause) (hg : t.gie = true) (hs : t.suspended = false) (hi : t.ie = fullIe)
    (hp : t.phase ≠ .wake) (hh : t.inHandler = true) : (afterEvent c t).powerOk := by
  rw [afterEvent_eq]
  split
  · exact State.powerOk_of_awake hg hs hi Phase.noConfusion fun _ => rfl
  · exact State.powerOk_of_awake hg hs hi hp fun hout => Bool.noConfusion (hout.symm.trans hh)

/-- An event of the handler keeps the invariant: IDLE suspends the machine at the wait, ACTIVITY wakes it, and the others find it awake
and leave it so (60_exceptions.md R319). -/
theorem powerOk_of_handlerEvent {i : Instr} {s t : State} (h : s.powerOk) (hrun : s.inHandler = true) (ha : asleep s = false)
    (hc : causeOfInstr i = some (select s s.phase)) (ht : exec i (s.withPhase (phaseAfter (select s s.phase))) = .next t) :
    (afterEvent (select s s.phase) t).powerOk := by
  obtain ⟨hh, hphase⟩ := exec_place hc ht
  have hsel := h.select_suspended ha
  obtain ⟨hg, -, hie, -⟩ := h
  generalize select s s.phase = c at hc ht hphase hsel ⊢
  cases i with
  | idle => cases hc; cases ht; exact ⟨hg, iff_of_true rfl ⟨hrun, rfl⟩, rfl, fun hout => Bool.noConfusion (hout.symm.trans hrun)⟩
  | activity => cases hc; cases ht; exact powerOk_afterEvent .actv hg rfl rfl Phase.noConfusion hrun
  | busReset | trnEp0Setup | trnEp0Out | trnEp0In | trnEp1 | trnOtherEp | busError | otherCause =>
    cases hc
    have hframe := exec_framed (fun hi => by cases hi) (fun hi => by cases hi) ht
    have hs : s.suspended = false := Bool.eq_false_iff.mpr fun hs => Cause.noConfusion (hsel hs)
    refine powerOk_afterEvent _ (hframe.gie.trans hg) (hframe.suspended.trans hs) (hframe.ie.trans ?_) ?_ (hh.trans hrun)
    · exact hie.trans (if_neg (by simp [hs]))
    · rw [hphase]
      decide
  | _ => cases hc

/-- A foreground call leaves the interrupt discipline alone (60_exceptions.md R315). -/
theorem powerOk_of_foreground {i : Instr} {s t : State} (h : s.powerOk) (hi : i.mnemonic.isForeground = true)
    (ht : exec i s = .next t) : t.powerOk := by
  have hframe := exec_framed (fun hm => by rw [hm] at hi; cases hi) (fun hm => by rw [hm] at hi; cases hi) ht
  exact h.congr hframe.gie hframe.suspended hframe.ie hframe.inHandler hframe.phase

/-- A step of the SIE leaves the interrupt discipline alone (45_environment_agents.md R270). -/
theorem powerOk_of_sieStep {a : SieStep} {s t : State} (h : s.powerOk) (ht : sieStep a s = .next t) : t.powerOk := by
  have hframe := sieStep_framed ht
  exact h.congr hframe.gie hframe.suspended hframe.ie hframe.inHandler hframe.phase

/-- Settles O57: the SIE and the foreground leave the discipline alone, and each event of the handler keeps it from the state it starts
in (`handlerBase.powerOk`, `powerOk_of_handlerEvent`). -/
theorem stepKeepsThePowerState : Obligations.StepKeepsThePowerState := by
  intro s t h ht
  have hrest (rest : List Input) : (s.withInputs rest).powerOk := h.congr rfl rfl rfl rfl rfl
  rcases step_cases s with ⟨hstep, -⟩ | ⟨a, rest, -, -, hstep⟩ | ⟨i, w, b0, b1, rest, -, -, hfg, -, -, -, hstep⟩ |
    ⟨s0, hb, ⟨-, -, hstep⟩ | ⟨i, hc, hstep⟩⟩ | ⟨w, b0, b1, rest, -, ⟨hstep, -⟩ | hstep | hstep⟩ <;> rw [hstep] at ht
  · cases ht; exact h
  · exact powerOk_of_sieStep (hrest rest) ht
  · exact powerOk_of_foreground (hrest rest) hfg ht
  · cases ht
  · obtain ⟨u, hu, hend⟩ := andThen_eq_next.mp ht
    cases hend
    obtain ⟨h0, ha⟩ := hb.powerOk h
    exact powerOk_of_handlerEvent h0 hb.running ha hc hu
  all_goals cases ht

end Sys2Proof.Machine
end

section
/-! PROOFS. When a step of the machine stops, over the invariants (60_exceptions.md R305 to R308). -/

namespace Sys2Proof.Machine

/-! ### When an event stops -/

/-- Over the invariant of the transfer an event faults only for OUT data without a sink (60_exceptions.md R305, R306). -/
theorem exec_fault {i : Instr} {s : State} {e : Fault} (hw : s.params.wf = true) (hok : s.transferOk) (h : exec i s = .fault e) :
    ∃ n, e = .unspecifiedSink n ∧ 0 < n ∧ s.ctx.kind = .ctlOut ∧ n = s.bd.ep0Out.count.toNat := by
  rcases exec_goes_on_or (i := i) hw hok with ⟨t, ht⟩ | ⟨-, ht⟩ | ⟨hk, hn, ht⟩ <;> cases ht.symm.trans h
  exact ⟨_, rfl, Nat.pos_of_ne_zero fun h0 => hn (BitVec.eq_of_toNat_eq h0), hk, rfl⟩

/-- Over the invariant of the transfer an event is refused only by NONSTD_TYPE_POLICY (42_ep0_requests.md R204). -/
theorem exec_refused {i : Instr} {s : State} {e : Refusal} (hw : s.params.wf = true) (hok : s.transferOk)
    (h : exec i s = .refused e) : e = .nonstandardRequestType ∧ s.params.nonstdTypePolicy = .refuse := by
  rcases exec_goes_on_or (i := i) hw hok with ⟨t, ht⟩ | ⟨hpol, ht⟩ | ⟨-, -, ht⟩ <;> cases ht.symm.trans h
  exact ⟨rfl, hpol⟩

/-! ### When a step stops -/

/-- The state in which a handler's event starts differs in the model's own fields alone (logs 7 and 8). -/
theorem handlerBase.eq {s s0 : State} (h : handlerBase s s0) :
    s0 = { s with inHandler := s0.inHandler, phase := s0.phase, inputs := s0.inputs } := by
  rcases h.place with ⟨-, -, rfl⟩ | ⟨-, -, rfl⟩ | ⟨-, -, rest, rfl⟩ <;> rfl

/-- An invocation takes TRN only while it is pending (40_bus_event_dispatcher.md R131). -/
theorem trn_pending_of_select {s : State} {p : Phase} (h : select s p = .trn) : s.ip.trn = true := by
  rw [select_eq] at h
  cases hf : (causesFrom p).find? (pendingEnabled s) with
  | none => rw [hf] at h; cases h
  | some c =>
    rw [hf] at h
    cases h
    have hpending := List.find?_some hf
    simp only [pendingEnabled, Bool.and_eq_true] at hpending
    exact hpending.1

/-- TRN is never taken with an empty queue (10_state.md R43, log 14). -/
theorem State.queueOk.waiting {s : State} {p : Phase} (hq : s.queueOk) (h : select s p = .trn) : s.trnFifo ≠ [] :=
  hq.1.mp (trn_pending_of_select h)

/-- A word that does not decode carries a reserved cause, 0x6 or more (30_encoding.md R92, R106). -/
theorem evCause_of_decodeEv_error {w : Evw} {b0 b1 : Byte} {e : DecodeError} (h : decodeEv w b0 b1 = .error e) :
    0x6 ≤ (evCause w).toNat := by
  have he : e = .reservedCause (evCause w) := by
    unfold decodeEv at h
    split_ifs at h
    cases h
    rfl
  have hreserved := decodeEv_reserved_iff.mp (he ▸ h)
  generalize evCause w = c at hreserved
  revert c
  decide

/-- Settles O59: the ways of `step_cases`, with what stops an event (`exec_fault`, `exec_refused`) and a step of the SIE
(`sieStep_stops`). -/
theorem stepStopsOnlyAsTheSpecSays : Obligations.StepStopsOnlyAsTheSpecSays := by
  intro s hw hq hok _
  rcases step_cases s with ⟨hstep, -⟩ | ⟨a, rest, -, -, hstep⟩ | ⟨i, w, b0, b1, rest, -, -, -, -, -, -, hstep⟩ |
    ⟨s0, hb, ⟨hsel, hempty, hstep⟩ | ⟨i, -, hstep⟩⟩ | ⟨w, b0, b1, rest, -, ⟨hstep, e, he⟩ | hstep | hstep⟩ <;> rw [hstep]
  · exact ⟨nofun, nofun⟩
  · obtain ⟨hfault, hrefused⟩ := sieStep_stops (a := a) (s := s.withInputs rest)
    exact ⟨fun e he => absurd he (hfault e), fun e he => .inr (.inr (.inr (.inr (hrefused e he))))⟩
  · exact ⟨fun e he => exec_fault (s := s.withInputs rest) hw hok he,
      fun e he => .inl (exec_refused (s := s.withInputs rest) hw hok he)⟩
  · rw [hb.eq] at hsel hempty
    exact absurd hempty (State.queueOk.waiting hq hsel)
  · have hctx : s0.ctx = s.ctx := by rw [hb.eq]
    have hbd : s0.bd = s.bd := by rw [hb.eq]
    have hp : s0.params = s.params := by rw [hb.eq]
    have hok0 : s0.transferOk := hok.congr hp hctx
    rw [← hp] at hw
    rw [← hctx, ← hbd, ← hp]
    refine ⟨fun e he => ?_, fun e he => .inl ?_⟩
    · rcases andThen_eq_fault.mp he with hx | ⟨t, -, ht⟩
      · exact exec_fault (s := s0.withPhase (phaseAfter (select s0 s0.phase))) hw hok0 hx
      · cases ht
    · rcases andThen_eq_refused.mp he with hx | ⟨t, -, ht⟩
      · exact exec_refused (s := s0.withPhase (phaseAfter (select s0 s0.phase))) hw hok0 hx
      · cases ht
  · exact ⟨nofun, fun e' he' => by cases he'; exact .inr (.inl ⟨_, rfl, evCause_of_decodeEv_error he⟩)⟩
  · exact ⟨nofun, fun e he => by cases he; exact .inr (.inr (.inl rfl))⟩
  · exact ⟨nofun, fun e he => by cases he; exact .inr (.inr (.inr (.inl rfl)))⟩

end Sys2Proof.Machine
end

section
/-! PROOFS. Module start and what a bus reset guarantees (70_reset_and_hazards.md R341, R342). -/

namespace Sys2Proof.Machine

/-! ### The report's bytes beside the configuration's -/

/-- ADDR_REPORT's two bytes and ADDR_CONFIG's byte are three addresses (20_memory.md R67). -/
theorem Params.report_config_distinct {p : Params} (hw : p.wf = true) :
    p.addrReport ≠ p.addrConfig ∧ p.wrap (p.addrReport + 1) ≠ p.addrConfig ∧ p.addrReport ≠ p.wrap (p.addrReport + 1) := by
  have hl := Params.ram_layout hw
  rw [Params.wrap_eq (by omega)]
  omega

/-- A new configuration leaves the report alone. -/
theorem State.report_withConfiguration {s : State} (hw : s.params.wf = true) (v : Byte) :
    (s.withConfiguration v).report = s.report := by
  obtain ⟨h0, h1, -⟩ := Params.report_config_distinct hw
  exact Prod.ext (Memory.read_write_other s.ram v h0) (Memory.read_write_other s.ram v h1)

/-! ### A bus reset -/

/-- The report's toggle is set unless the scope is the transfer's alone (D9). -/
theorem busResetRptToggle_cases (p : Params) (t : Bool) :
    (p.busResetToggleScope ≠ .ctx → busResetRptToggle p t = true) ∧ (p.busResetToggleScope = .ctx → busResetRptToggle p t = t) := by
  rw [busResetRptToggle_eq]
  cases p.busResetToggleScope <;> simp

/-- The transfer's toggle is set unless the scope is the report's alone (D9). -/
theorem busResetCtxToggle_cases (p : Params) (t : Bool) :
    (p.busResetToggleScope ≠ .rpt → busResetCtxToggle p t = true) ∧ (p.busResetToggleScope = .rpt → busResetCtxToggle p t = t) := by
  rw [busResetCtxToggle_eq]
  cases p.busResetToggleScope <;> simp

/-- Settles O13: the next state is `execBusReset_eq`, whose store of the configuration leaves the report alone. -/
theorem busResetGuarantees : Obligations.BusResetGuarantees := by
  intro low s hw
  obtain ⟨hrptSet, hrptKept⟩ := busResetRptToggle_cases s.params s.rpt.nextToggle
  obtain ⟨hctxSet, hctxKept⟩ := busResetCtxToggle_cases s.params s.ctx.nextToggle
  exact ⟨_, execBusReset_eq s, Memory.read_write_same s.ram s.params.addrConfig 0, rfl, ⟨rfl, rfl, rfl, rfl⟩, rfl, rfl,
    hrptSet, hrptKept, hctxSet, hctxKept, rfl, rfl, rfl, rfl, rfl, rfl, rfl, rfl, State.report_withConfiguration hw 0, rfl, rfl, rfl⟩

/-! ### Module start -/

theorem reset_eq_moduleStart : State.reset = moduleStart Params.standard := by decide

/-- `dev.configuration` starts at 0. -/
theorem moduleStart_configuration (p : Params) : (moduleStart p).configuration = 0 := Memory.read_write_same _ p.addrConfig 0

/-- The report starts as REPORT_INIT: none of the later stores of module start hits an earlier one. -/
theorem moduleStart_report {p : Params} (hw : p.wf = true) : (moduleStart p).report = (p.reportInit0, p.reportInit1) := by
  obtain ⟨h0, h1, h01⟩ := Params.report_config_distinct hw
  refine Prod.ext ?_ ?_
  · show (ramAtStart p).read p.addrReport = p.reportInit0
    rw [ramAtStart, Memory.read_write_other _ _ h0, Memory.read_write_other _ _ h01, Memory.read_write_same]
  · show (ramAtStart p).read (p.wrap (p.addrReport + 1)) = p.reportInit1
    rw [ramAtStart, Memory.read_write_other _ _ h1, Memory.read_write_same]

/-- Settles O1: the registers are those `moduleStart` writes down, EP0_OUT armed on top; the two values in RAM are
`moduleStart_configuration` and `moduleStart_report`. -/
theorem moduleStartValues : Obligations.ModuleStartValues :=
  ⟨reset_eq_moduleStart, by decide, fun p hw =>
    ⟨rfl, rfl, rfl, moduleStart_configuration p, moduleStart_report hw, rfl, rfl, rfl, rfl, rfl, rfl, rfl, rfl, rfl, rfl, rfl,
      rfl, rfl, rfl, rfl⟩⟩

/-! ### Module start and the invariants -/

theorem ramAtStart_wf (p : Params) : (ramAtStart p).wf :=
  Memory.wf_write (Memory.wf_write (Memory.wf_write ⟨.nil, nofun⟩ _ _) _ _) _ _

/-- No transaction has completed: TRN is clear and the queue empty. -/
theorem moduleStart_queueOk (p : Params) : (moduleStart p).queueOk :=
  ⟨⟨nofun, fun hne => absurd rfl hne⟩, Nat.zero_le _⟩

/-- No transfer is under way and the data pointer is the marker `unspecified`. -/
theorem moduleStart_transferOk (p : Params) : (moduleStart p).transferOk := ⟨nofun, nofun, nofun⟩

theorem moduleStart_powerOk (p : Params) : (moduleStart p).powerOk :=
  State.powerOk_of_awake rfl rfl rfl Phase.noConfusion fun _ => rfl

/-- EP0_OUT is armed for 8 bytes, the others are the device's with count 0. -/
theorem moduleStart_descriptorsOk (p : Params) : (moduleStart p).descriptorsOk := by
  refine descriptorsOk_iff.mpr fun b => ?_
  cases b with
  | ep0Out => exact ⟨rfl, Nat.le_refl 8⟩
  | ep0In => exact ⟨rfl, Nat.zero_le 8⟩
  | ep1Out => exact ⟨Nat.zero_le 8, rfl, rfl⟩
  | ep1In => exact ⟨rfl, Nat.zero_le 8, rfl⟩

/-- Settles O2: one lemma per invariant for every parameter set, and `State.reset` is module start of `Params.standard`. -/
theorem moduleStartMeetsTheInvariants : Obligations.ModuleStartMeetsTheInvariants := by
  have hstart (p : Params) : (moduleStart p).ram.wf ∧ (moduleStart p).queueOk ∧ (moduleStart p).transferOk ∧
      (moduleStart p).powerOk ∧ (moduleStart p).descriptorsOk :=
    ⟨ramAtStart_wf p, moduleStart_queueOk p, moduleStart_transferOk p, moduleStart_powerOk p, moduleStart_descriptorsOk p⟩
  refine ⟨?_, fun p _ => hstart p⟩
  rw [reset_eq_moduleStart]
  exact hstart Params.standard

end Sys2Proof.Machine
end
